-- ==== Sys2Proof/Word.lean ====
section
/-! DEFINITION. The word types of GCORE: bytes, 32-bit register words, the big-integer registers and byte strings
(00_scope.md R8, R9; 10_state.md R51). -/

namespace Sys2Proof

/-- One byte of DMEM or of a byte string. -/
abbrev Byte := BitVec 8

/-- A 32-bit register word, a command word or a host data word (10_state.md R32). -/
abbrev Word := BitVec 32

/-- A 64-bit register of two words (GIV, TK1..TK3, TIV), word 0 in the low half. -/
abbrev DWord := BitVec 64

/-- A 256-bit register of eight words; as an integer register it holds the unsigned value (10_state.md R51). -/
abbrev U256 := BitVec 256

/-- A 512-bit two's-complement integer register of sixteen words (10_state.md R51). -/
abbrev S512 := BitVec 512

/-- An S-box set: eight tables of sixteen 4-bit entries in sixteen words (10_state.md R44). -/
abbrev SboxSet := BitVec 512

/-- A byte string: b[0] first in memory (00_scope.md R9). -/
abbrev Bytes := List Byte

end Sys2Proof
end

