-- ==== Sys2Proof/Syntax.lean ====
section
/-! DEFINITION. The commands of GCORE, one constructor per row of spec/opcode_table.json (30_encoding.md R142), and
the fields of a command word (30_encoding.md R140). -/

namespace Sys2Proof

/-- A command. The only encoded operand is the bit F of G_GAMMA and H_INIT (30_encoding.md R141, R144). -/
inductive Instr where
  /-- NOP (49_control.md R420). -/
  | nop
  /-- G_KEYLOAD (42_gost89.md R271). -/
  | gKeyload
  /-- G_SBOXDEF (42_gost89.md R272). -/
  | gSboxdef
  /-- G_ECBENC (42_gost89.md R273). -/
  | gEcbenc
  /-- G_ECBDEC (42_gost89.md R274). -/
  | gEcbdec
  /-- G_GAMMA, with F = FIRST (42_gost89.md R275). -/
  | gGamma (first : Bool)
  /-- H_INIT, with F = COPY (43_gost3411.md R307). -/
  | hInit (copy : Bool)
  /-- H_UPDATE (43_gost3411.md R309). -/
  | hUpdate
  /-- H_FINAL (43_gost3411.md R310). -/
  | hFinal
  /-- H_STEP (43_gost3411.md R311). -/
  | hStep
  /-- E_PADD (41_ecpoint.md R232). -/
  | ePadd
  /-- E_PMUL (41_ecpoint.md R235). -/
  | ePmul
  /-- E_KEYGEN (44_signer.md R341). -/
  | eKeygen
  /-- E_SIGN (44_signer.md R342). -/
  | eSign
  /-- E_VERIFY (44_signer.md R343). -/
  | eVerify
  /-- M_MOD (40_modarith.md R202). -/
  | mMod
  /-- M_INV (40_modarith.md R204). -/
  | mInv
  /-- M_EGCD (40_modarith.md R206). -/
  | mEgcd
  /-- T_KEYLOAD (45_tdes.md R382). -/
  | tKeyload
  /-- T_FRMENC (45_tdes.md R383). -/
  | tFrmenc
  /-- T_FRMDEC (45_tdes.md R384). -/
  | tFrmdec
  deriving DecidableEq, Repr

/-- The three fields of a command word (30_encoding.md R140). -/
structure CommandFields where
  /-- Bits 7:0. -/
  op : BitVec 8
  /-- Bit 8. -/
  f : Bool
  /-- Bits 31:9. -/
  res : BitVec 23
  deriving DecidableEq, Repr

/-- The fields a command is written with (30_encoding.md R142). -/
def Instr.fields : Instr → CommandFields
  | .nop => ⟨0x00, false, 0⟩
  | .gKeyload => ⟨0x10, false, 0⟩
  | .gSboxdef => ⟨0x11, false, 0⟩
  | .gEcbenc => ⟨0x12, false, 0⟩
  | .gEcbdec => ⟨0x13, false, 0⟩
  | .gGamma first => ⟨0x14, first, 0⟩
  | .hInit copy => ⟨0x20, copy, 0⟩
  | .hUpdate => ⟨0x21, false, 0⟩
  | .hFinal => ⟨0x22, false, 0⟩
  | .hStep => ⟨0x23, false, 0⟩
  | .ePadd => ⟨0x30, false, 0⟩
  | .ePmul => ⟨0x31, false, 0⟩
  | .eKeygen => ⟨0x32, false, 0⟩
  | .eSign => ⟨0x33, false, 0⟩
  | .eVerify => ⟨0x34, false, 0⟩
  | .mMod => ⟨0x40, false, 0⟩
  | .mInv => ⟨0x41, false, 0⟩
  | .mEgcd => ⟨0x42, false, 0⟩
  | .tKeyload => ⟨0x50, false, 0⟩
  | .tFrmenc => ⟨0x51, false, 0⟩
  | .tFrmdec => ⟨0x52, false, 0⟩

end Sys2Proof
end

