-- ==== Sys2Proof/WellFormed.lean ====
section
/-! DEFINITION. When the fields of a command word are legal (30_encoding.md R143): the operation is assigned, RES is
zero, and F is set only where the operation defines it. -/

namespace Sys2Proof

/-- The assigned operation codes (30_encoding.md R142). -/
def assignedOps : List (BitVec 8) :=
  [0x00, 0x10, 0x11, 0x12, 0x13, 0x14, 0x20, 0x21, 0x22, 0x23, 0x30, 0x31, 0x32, 0x33, 0x34, 0x40, 0x41, 0x42,
   0x50, 0x51, 0x52]

/-- The operations that define F: G_GAMMA and H_INIT (30_encoding.md R141). -/
def flaggedOps : List (BitVec 8) := [0x14, 0x20]

/-- The OP value is in the opcode map (30_encoding.md R142, R143). -/
def CommandFields.opAssigned (c : CommandFields) : Bool := assignedOps.contains c.op

/-- The reserved field is zero (30_encoding.md R140, R143). -/
def CommandFields.resZero (c : CommandFields) : Bool := c.res == 0

/-- F is 0 unless the operation defines it (30_encoding.md R141, R143). -/
def CommandFields.flagAllowed (c : CommandFields) : Bool := !c.f || flaggedOps.contains c.op

/-- The fields make a legal command word (30_encoding.md R143). -/
def CommandFields.wf (c : CommandFields) : Bool := c.opAssigned && c.resZero && c.flagAllowed

/-- A command is well formed when the fields it is written with are legal. -/
def Instr.wf (i : Instr) : Bool := i.fields.wf

end Sys2Proof
end

