-- ==== Sys2Proof/Decode.lean ====
section
/-! DEFINITION. The decoder of command words (30_encoding.md R142, R143), total on every 32-bit word and rejecting by
name, and after it the encoder. -/

namespace Sys2Proof

/-- Why a command word is illegal (30_encoding.md R143). -/
inductive DecodeError where
  /-- The OP value is not in the opcode map. -/
  | unassignedOp
  /-- Bits 31:9 are not all zero. -/
  | reservedBits
  /-- F = 1 on an operation that defines no F. -/
  | flagUndefined
  deriving DecidableEq, Repr

/-- One row of the opcode map: the word is matched whole under the mask (30_encoding.md R142). -/
structure EncodingRow where
  mask : Word
  pattern : Word
  /-- The command, given the word's bit 8. -/
  instr : Bool → Instr

/-- The opcode map of 30_encoding.md R142. -/
def encodingTable : List EncodingRow :=
  [⟨0xFFFFFFFF, 0x00000000, fun _ => .nop⟩,
   ⟨0xFFFFFFFF, 0x00000010, fun _ => .gKeyload⟩,
   ⟨0xFFFFFFFF, 0x00000011, fun _ => .gSboxdef⟩,
   ⟨0xFFFFFFFF, 0x00000012, fun _ => .gEcbenc⟩,
   ⟨0xFFFFFFFF, 0x00000013, fun _ => .gEcbdec⟩,
   ⟨0xFFFFFEFF, 0x00000014, fun f => .gGamma f⟩,
   ⟨0xFFFFFEFF, 0x00000020, fun f => .hInit f⟩,
   ⟨0xFFFFFFFF, 0x00000021, fun _ => .hUpdate⟩,
   ⟨0xFFFFFFFF, 0x00000022, fun _ => .hFinal⟩,
   ⟨0xFFFFFFFF, 0x00000023, fun _ => .hStep⟩,
   ⟨0xFFFFFFFF, 0x00000030, fun _ => .ePadd⟩,
   ⟨0xFFFFFFFF, 0x00000031, fun _ => .ePmul⟩,
   ⟨0xFFFFFFFF, 0x00000032, fun _ => .eKeygen⟩,
   ⟨0xFFFFFFFF, 0x00000033, fun _ => .eSign⟩,
   ⟨0xFFFFFFFF, 0x00000034, fun _ => .eVerify⟩,
   ⟨0xFFFFFFFF, 0x00000040, fun _ => .mMod⟩,
   ⟨0xFFFFFFFF, 0x00000041, fun _ => .mInv⟩,
   ⟨0xFFFFFFFF, 0x00000042, fun _ => .mEgcd⟩,
   ⟨0xFFFFFFFF, 0x00000050, fun _ => .tKeyload⟩,
   ⟨0xFFFFFFFF, 0x00000051, fun _ => .tFrmenc⟩,
   ⟨0xFFFFFFFF, 0x00000052, fun _ => .tFrmdec⟩]

/-- The fields OP, F and RES of a word (30_encoding.md R140). -/
def fieldsOf (w : Word) : CommandFields :=
  ⟨w.extractLsb' 0 8, w.getLsbD 8, w.extractLsb' 9 23⟩

/-- The name of what makes an unmatched word illegal (30_encoding.md R143). -/
def decodeErrorOf (w : Word) : DecodeError :=
  if !(fieldsOf w).opAssigned then .unassignedOp
  else if !(fieldsOf w).resZero then .reservedBits
  else .flagUndefined

/-- Decode a command word: the row whose pattern the word matches whole under its mask (30_encoding.md R142, R147). -/
def decode (w : Word) : Except DecodeError Instr :=
  match encodingTable.find? (fun r => (w &&& r.mask) == r.pattern) with
  | some r => .ok (r.instr (w.getLsbD 8))
  | none => .error (decodeErrorOf w)

/-- What the decoder reads from an instruction of the opcode table given as a number: its command word is the one
32-bit word, bit 0 least significant. Bits from `nbits` up are zero. -/
def decodeTableWord (nbits w : Nat) : Option Instr :=
  if w % 2 ^ nbits < 2 ^ 32 then
    match decode (BitVec.ofNat 32 (w % 2 ^ nbits)) with
    | .ok i => some i
    | .error _ => none
  else none

/-- The command word of a command (the word column of 30_encoding.md R142). -/
def encode : Instr → Word
  | .nop => 0x00000000
  | .gKeyload => 0x00000010
  | .gSboxdef => 0x00000011
  | .gEcbenc => 0x00000012
  | .gEcbdec => 0x00000013
  | .gGamma false => 0x00000014
  | .gGamma true => 0x00000114
  | .hInit false => 0x00000020
  | .hInit true => 0x00000120
  | .hUpdate => 0x00000021
  | .hFinal => 0x00000022
  | .hStep => 0x00000023
  | .ePadd => 0x00000030
  | .ePmul => 0x00000031
  | .eKeygen => 0x00000032
  | .eSign => 0x00000033
  | .eVerify => 0x00000034
  | .mMod => 0x00000040
  | .mInv => 0x00000041
  | .mEgcd => 0x00000042
  | .tKeyload => 0x00000050
  | .tFrmenc => 0x00000051
  | .tFrmdec => 0x00000052

end Sys2Proof
end

