-- ==== Sys2Proof/Machine/Bytes.lean ====
section
/-! DEFINITION. Byte strings and the integer conversions of 00_scope.md R9 and R10. -/

namespace Sys2Proof.Machine

/-- `Σ b[i]·256^i`: the little-endian reading of a byte string (00_scope.md R10). -/
def leNat : Bytes → Nat
  | [] => 0
  | b :: bs => b.toNat + 256 * leNat bs

/-- The `k`-byte string whose little-endian reading is `v` modulo `256^k` (00_scope.md R10). -/
def leBytes : Nat → Nat → Bytes
  | 0, _ => []
  | k + 1, v => BitVec.ofNat 8 v :: leBytes k (v / 256)

/-- `Σ b[i]·256^(n-1-i)`: the big-endian reading of a byte string (00_scope.md R10). -/
def beNat (b : Bytes) : Nat := leNat b.reverse

/-- The `k`-byte string whose big-endian reading is `v` modulo `256^k` (00_scope.md R10). -/
def beBytes (k v : Nat) : Bytes := (leBytes k v).reverse

/-- `LE32(b)` (00_scope.md R10). -/
def le32 (b : Bytes) : Word := BitVec.ofNat 32 (leNat b)

/-- `toLE32(w)` (00_scope.md R10). -/
def toLE32 (w : Word) : Bytes := leBytes 4 w.toNat

/-- `LE64(b)` (00_scope.md R10). -/
def le64 (b : Bytes) : DWord := BitVec.ofNat 64 (leNat b)

/-- `toLE64(w)` (00_scope.md R10). -/
def toLE64 (w : DWord) : Bytes := leBytes 8 w.toNat

/-- `LE256(b)`, also the register that holds the 32-byte string `b` (00_scope.md R10, 10_state.md R52). -/
def le256 (b : Bytes) : U256 := BitVec.ofNat 256 (leNat b)

/-- `toLE256(v)`, also the byte string a 32-byte register holds (00_scope.md R10, 10_state.md R52). -/
def toLE256 (v : U256) : Bytes := leBytes 32 v.toNat

/-- `BE256(b)` (00_scope.md R10). -/
def be256 (b : Bytes) : U256 := BitVec.ofNat 256 (beNat b)

/-- `BE64(b)` (45_tdes.md R370). -/
def be64 (b : Bytes) : DWord := BitVec.ofNat 64 (beNat b)

/-- `toBE64(v)` (45_tdes.md R375). -/
def toBE64 (v : DWord) : Bytes := beBytes 8 v.toNat

/-- `b[i..j)`: bytes i to j-1 (00_scope.md R9). -/
def slice (b : Bytes) (i j : Nat) : Bytes := (b.drop i).take (j - i)

/-- `b ⊕ c` for two strings of equal length (00_scope.md R9). -/
def xorBytes (b c : Bytes) : Bytes := List.zipWith (· ^^^ ·) b c

/-- `0^n`: n zero bytes (00_scope.md R9). -/
def zeros (n : Nat) : Bytes := List.replicate n 0

/-- The first `k` blocks of eight bytes of a string, in order. -/
def blocks8 : Nat → Bytes → List Bytes
  | 0, _ => []
  | k + 1, b => b.take 8 :: blocks8 k (b.drop 8)

end Sys2Proof.Machine
end

