-- ==== Sys2Proof/Machine/Bits.lean ====
section
/-! DEFINITION. Bit fields of registers: the word and byte views of a multi-word register (10_state.md R51, R52) and the
32-bit rotation (00_scope.md R11). -/

namespace Sys2Proof.Machine

/-- `v` with the `k`-bit field `x` at bit `lo`; every other bit keeps its value. -/
def setField {n k : Nat} (v : BitVec n) (lo : Nat) (x : BitVec k) : BitVec n :=
  (v &&& ~~~((BitVec.allOnes k).setWidth n <<< lo)) ||| (x.setWidth n <<< lo)

/-- Word `j` of a multi-word register: bits 32j+31:32j, word 0 at the lowest offset (10_state.md R51). -/
def wordOf {n : Nat} (v : BitVec n) (j : Nat) : Word := v.extractLsb' (32 * j) 32

/-- The register with word `j` replaced (10_state.md R51). -/
def setWord {n : Nat} (v : BitVec n) (j : Nat) (w : Word) : BitVec n := setField v (32 * j) w

/-- The register with byte `k` of its byte string replaced: byte k is bits 8k+7:8k (10_state.md R52). -/
def setByte {n : Nat} (v : BitVec n) (k : Nat) (b : Byte) : BitVec n := setField v (8 * k) b

/-- The register whose words are `ws`, word 0 first (10_state.md R51). -/
def packWords {n : Nat} (ws : List Word) : BitVec n :=
  BitVec.ofNat n (ws.foldr (fun w acc => w.toNat + 2 ^ 32 * acc) 0)

/-- `rotl32(x, k)` (00_scope.md R11). -/
def rotl32 (x : Word) (k : Nat) : Word := (x <<< k) ||| (x >>> (32 - k))

end Sys2Proof.Machine
end

