-- ==== Sys2Proof/Machine/Constants.lean ====
section
/-! DEFINITION. The fixed constants that are not registers (10_state.md R70): identity values, the default S-box set, the
gamma constants, the hash constants and the curve. -/

namespace Sys2Proof.Machine

/-- What ID reads (10_state.md R33). -/
def idValue : Word := 0x47434F52

/-- What VERSION reads (10_state.md R34). -/
def versionValue : Word := 0x00010007

/-- The words of the default S-box set, S1_LO, S1_HI, ..., S8_HI (10_state.md R44). -/
def defaultSboxWords : List Word :=
  [0xE08D29A4, 0x35F7C1B6, 0xAFD6C4BE, 0x95701832, 0x243AD185, 0xB9067CFE, 0xF9801AD7, 0x352BC64E,
   0x8DF517C6, 0x2B30E9A4, 0xD1270AB4, 0xEFC95863, 0x95F314BD, 0xC2867EA0, 0x4A750DF1, 0xC8B6E329]

/-- The default S-box set as a register (10_state.md R44, 42_gost89.md R262). -/
def defaultSbox : SboxSet := packWords defaultSboxWords

/-- GC1 (42_gost89.md R268). -/
def gammaC1 : Word := 0x01010101

/-- GC2 (42_gost89.md R268). -/
def gammaC2 : Word := 0x01010104

/-- The hash constant C2 as its bytes (43_gost3411.md R303). C1 and C3 are 0^32. -/
def hashC2 : Bytes :=
  [0x00, 0xFF, 0x00, 0xFF, 0x00, 0xFF, 0x00, 0xFF, 0xFF, 0x00, 0xFF, 0x00, 0xFF, 0x00, 0xFF, 0x00,
   0x00, 0xFF, 0xFF, 0x00, 0xFF, 0x00, 0x00, 0xFF, 0xFF, 0x00, 0x00, 0x00, 0xFF, 0xFF, 0x00, 0xFF]

/-- The curve prime p = 2^255 + 1073 (41_ecpoint.md R230; 90_conflicts.md C1). -/
def curveP : Nat := 57896044618658097711785492504343953926634992332820282019728792003956564821041

/-- The curve coefficient a (41_ecpoint.md R230). -/
def curveA : Nat := 7

/-- The curve coefficient b (41_ecpoint.md R230). -/
def curveB : Nat := 43308876546767276905765904595650931995942111794451039583252968842033849580414

/-- The order q of the base point (41_ecpoint.md R230). -/
def curveQ : Nat := 57896044618658097711785492504343953927082934583725450622380973592137631069619

/-- The x coordinate of the base point G (41_ecpoint.md R230). -/
def baseX : Nat := 2

/-- The y coordinate of the base point G (41_ecpoint.md R230). -/
def baseY : Nat := 4018974056539037503335449422937059775635739389905545080690979365213431566280

end Sys2Proof.Machine
end

