-- ==== Sys2Proof/Config.lean ====
section
/-! DEFINITION. What an implementation fixes (00_scope.md R7) and the values the spec leaves free. The four opaque
constants have no body: nothing proved here can depend on what they are. -/

namespace Sys2Proof.Config

/-- The size of DMEM in bytes (00_scope.md R7). -/
def dmemSize : Nat := 4096

/-- The size of the aperture in bytes (00_scope.md R7, 20_memory.md R103). -/
def apertureSize : Nat := 8192

/-- Which 8 KiB slot of the host address space holds the aperture: the open parameter behind GCORE_BASE
(92_eei_decisions.md D3; log entry 5). -/
opaque baseSlot : Nat

/-- GCORE_BASE, the base address of the aperture: any multiple of 8 KiB (00_scope.md R7). -/
def gcoreBase : Nat := apertureSize * baseSlot

/-- GCORE_IRQ_LINE: the input of the host's interrupt controller that IRQ is wired to (60_exceptions.md R440;
92_eei_decisions.md D15; log entry 5). -/
opaque irqLine : Nat

/-- FREE VALUE: what the n-th draw of an unspecified 32-bit read value gives (20_memory.md R112, item U2 of
93_implementation_defined.md; log entry 3). -/
opaque busyRead : Nat → Word

/-- FREE VALUE: how many host steps the n-th draw lets pass between the start of a command and its completion
(70_reset_and_hazards.md R480, item U7; log entry 2). It is finite, which is the spec's fairness assumption. -/
opaque completionDelay : Nat → Nat

end Sys2Proof.Config
end

