-- ==== Sys2Proof/Machine/Memory.lean ====
section
/-! DEFINITION. The data memory DMEM (20_memory.md R100, R105, R118): the bytes that hold a value, listed by address.
A byte that nothing has written since power-on holds no value and is not listed. -/

namespace Sys2Proof.Machine

/-- DMEM: the (address, byte) pairs of the bytes that hold a value, in the form `Memory.wf` fixes. -/
abbrev Memory := List Host.Cell

/-- The canonical form: addresses strictly rising, each an offset of DMEM (20_memory.md R100). Every listed byte holds a
value and an unlisted one holds none, so no entry equals what an unlisted address reads as. -/
abbrev Memory.wf (m : Memory) : Prop :=
  m.Pairwise (fun c d => c.1 < d.1) ∧ ∀ c ∈ m, c.1 < Config.dmemSize

/-- The byte at an address; `none` where DMEM holds no value (20_memory.md R118). -/
def Memory.byteAt : Memory → Nat → Option Byte
  | [], _ => none
  | c :: m, a => if c.1 = a then some c.2 else Memory.byteAt m a

/-- DMEM with the byte at an address written. -/
def Memory.setByteAt : Memory → Nat → Byte → Memory
  | [], a, b => [(a, b)]
  | c :: m, a, b =>
    if a < c.1 then (a, b) :: c :: m
    else if a = c.1 then (a, b) :: m
    else c :: Memory.setByteAt m a b

/-- `MemRead(off, n)`: the bytes off..off+n-1 (20_memory.md R105), or the first of these offsets that holds no value
(20_memory.md R118). -/
def Memory.read (m : Memory) : Nat → Nat → Except Nat Bytes
  | _, 0 => .ok []
  | off, n + 1 =>
    match m.byteAt off with
    | none => .error off
    | some b =>
      match Memory.read m (off + 1) n with
      | .ok bs => .ok (b :: bs)
      | .error a => .error a

/-- `MemWrite(off, len(s), s)`: DMEM[off+i] <- s[i] (20_memory.md R105). -/
def Memory.write (m : Memory) (off : Nat) : Bytes → Memory
  | [] => m
  | b :: bs => Memory.write (m.setByteAt off b) (off + 1) bs

end Sys2Proof.Machine
end

