-- ==== Sys2Proof/Machine/State.lean ====
section
/-! DEFINITION. The architectural state of GCORE (10_state.md R31), grouped as the source groups its records
(GostCipherCtx, GostHashCtx, KeyPair and Signature, CurvePoint, TripleDesKeyset), the model's own bookkeeping of the
host's accesses, the reasons a step can stop, and the state after power-on reset (10_state.md R72, 70_reset_and_hazards.md R470). -/

namespace Sys2Proof.Machine

/-- The error codes a command can raise (60_exceptions.md R430). -/
inductive ErrCode where
  | invalidParameter
  | bufferShape
  | integrityFailure
  | verifyFailed
  | illegalCommand
  | addressRange
  deriving DecidableEq, Repr

/-- Why the machine stops. -/
inductive Fault where
  /-- A read, by the host or as a command input, of the DMEM byte at `offset`, which holds no value
  (20_memory.md R118, item U3 of 93_implementation_defined.md). Raised by `Memory.read` through `readInput` and
  `hostReadDmem`. SAFE: the spec itself makes it a fault. -/
  | dmemUnwritten (offset : Nat)
  deriving DecidableEq, Repr

/-- Why the machine refuses to go on. -/
inductive Refusal where
  /-- An instruction without a meaning in this model. No arm of `exec` answers it. SAFE. -/
  | notModelled (mnemonic : String)
  /-- A host access that is not 32 bits wide or not aligned to 4 (20_memory.md R102, item U1 of
  93_implementation_defined.md). Raised by `hostEvent`. SAFE: the spec has a model refuse it. -/
  | busContract
  deriving DecidableEq, Repr

/-- CTRL, STATUS and the pending command (10_state.md R35, R36, R69). STATUS.BUSY is `pending.isSome` (R69). -/
structure ControlRegs where
  /-- CTRL.IE -/
  ie : Bool
  /-- STATUS.DONE -/
  done : Bool
  /-- STATUS.VOK -/
  vok : Bool
  /-- STATUS.ERR -/
  err : BitVec 4
  /-- The command word accepted and not yet completed. -/
  pending : Option Word
  deriving DecidableEq, Repr

/-- SRC, DST, LEN and OUTLEN (10_state.md R38-R41). -/
structure RegionRegs where
  src : Word
  dst : Word
  len : Word
  outlen : Word
  deriving DecidableEq, Repr

/-- The cipher context: GKEY0..7, GIV_LO/GIV_HI and SBOX (10_state.md R42-R44). -/
structure CipherContext where
  gkey : U256
  giv : DWord
  sbox : SboxSet
  deriving DecidableEq, Repr

/-- The hash context: HSBOX, HH, HZ, HLEN, HCTL.FIN and HBUF (10_state.md R45-R50). Bits 2:0 of HLEN_LO are hard-wired 0,
so `hlen` holds bits 63:3 of the counter (R48). -/
structure HashContext where
  hsbox : SboxSet
  hh : U256
  hz : U256
  hlen : BitVec 61
  fin : Bool
  hbuf : U256
  deriving DecidableEq, Repr

/-- The signer's registers (10_state.md R53-R57). -/
structure SignerRegs where
  eH : U256
  eD : U256
  eK : U256
  eR : U256
  eS : U256
  eQX : U256
  eQY : U256
  deriving DecidableEq, Repr

/-- The point registers PA and PB and their infinity tags (10_state.md R58, R59). -/
structure PointRegs where
  paX : U256
  paY : U256
  pbX : U256
  pbY : U256
  paInf : Bool
  pbInf : Bool
  deriving DecidableEq, Repr

/-- The modular unit's registers (10_state.md R60-R63). -/
structure ModularRegs where
  mX : S512
  mM : U256
  mR : U256
  mGX : S512
  mGY : S512
  deriving DecidableEq, Repr

/-- The Triple-DES keyset (10_state.md R64, R65). -/
structure Keyset where
  tk1 : DWord
  tk2 : DWord
  tk3 : DWord
  tiv : DWord
  deriving DecidableEq, Repr

/-- What reaches GCORE from outside, in the order it is issued (20_memory.md R113): a host read or write of `width` bytes
at a host address, or the platform's reset (70_reset_and_hazards.md R470). -/
inductive HostEvent where
  | read (addr width : Nat)
  | write (addr width : Nat) (value : Word)
  | platformReset
  deriving DecidableEq, Repr

/-- A completed host read: the host address and the value returned. -/
structure HostRead where
  addr : Nat
  value : Word
  deriving DecidableEq, Repr

/-- THE MODEL'S OWN bookkeeping, not the spec's state (log entries 1, 2, 10): how many host steps may still pass before
the pending command completes, how many free values have been drawn, what the host is still to do (oldest first) and
what its reads have returned (newest first). -/
structure Environment where
  delay : Nat
  draws : Nat
  todo : List HostEvent
  seen : List HostRead
  deriving DecidableEq, Repr

/-- The state of GCORE (10_state.md R31) and the model's own environment record. -/
structure State where
  /-- CTRL, STATUS and the pending command. -/
  ctl : ControlRegs
  /-- SRC, DST, LEN, OUTLEN. -/
  io : RegionRegs
  /-- The GOST 28147-89 cipher context. -/
  cipher : CipherContext
  /-- The GOST R 34.11-94 hash context. -/
  hash : HashContext
  /-- The signer's registers. -/
  sign : SignerRegs
  /-- The point engine's registers. -/
  point : PointRegs
  /-- The modular unit's registers. -/
  modu : ModularRegs
  /-- The Triple-DES keyset. -/
  keys : Keyset
  /-- The data memory. -/
  dmem : Memory
  /-- The model's own bookkeeping. -/
  env : Environment
  deriving DecidableEq, Repr

/-- The machine after power-on reset (10_state.md R72, 70_reset_and_hazards.md R470). The values of `env` are the
model's (log entry 10). -/
def State.reset : State where
  ctl := { ie := false, done := false, vok := false, err := 0, pending := none }
  io := { src := 0, dst := 0, len := 0, outlen := 0 }
  cipher := { gkey := 0, giv := 0, sbox := defaultSbox }
  hash := { hsbox := defaultSbox, hh := 0, hz := 0, hlen := 0, fin := false, hbuf := 0 }
  sign := { eH := 0, eD := 0, eK := 0, eR := 0, eS := 0, eQX := 0, eQY := 0 }
  point := { paX := 0, paY := 0, pbX := 0, pbY := 0, paInf := false, pbInf := false }
  modu := { mX := 0, mM := 0, mR := 0, mGX := 0, mGY := 0 }
  keys := { tk1 := 0, tk2 := 0, tk3 := 0, tiv := 0 }
  dmem := []
  env := { delay := 0, draws := 0, todo := [], seen := [] }

end Sys2Proof.Machine
end

