-- ==== Sys2Proof/Machine/Flags.lean ====
section
/-! DEFINITION. Every flag and what computes it: the STATUS, CTRL, HCTL and PINF words, the error codes, and the interrupt
output (10_state.md R35, R36, R49, R59, R71; 60_exceptions.md R430, R440). -/

namespace Sys2Proof.Machine

/-- The code STATUS.ERR holds for an error (60_exceptions.md R430). -/
def ErrCode.code : ErrCode → BitVec 4
  | .invalidParameter => 1
  | .bufferShape => 2
  | .integrityFailure => 3
  | .verifyFailed => 4
  | .illegalCommand => 5
  | .addressRange => 6

/-- STATUS.BUSY: 1 exactly while a command is pending (10_state.md R36, R69). -/
def State.busy (s : State) : Bool := s.ctl.pending.isSome

/-- The STATUS word: BUSY bit 0, DONE bit 1, VOK bit 2, ERR bits 11:8, the rest 0 (10_state.md R36). -/
def statusWord (s : State) : Word :=
  0#20 ++ s.ctl.err ++ 0#5 ++ BitVec.ofBool s.ctl.vok ++ BitVec.ofBool s.ctl.done ++ BitVec.ofBool s.busy

/-- The CTRL word: IE bit 0; SRST reads 0, the rest 0 (10_state.md R35). -/
def ctrlWord (s : State) : Word := 0#31 ++ BitVec.ofBool s.ctl.ie

/-- The HCTL word: FIN bit 0, the rest 0 (10_state.md R49). -/
def hctlWord (s : State) : Word := 0#31 ++ BitVec.ofBool s.hash.fin

/-- The PINF word: PA_INF bit 0, PB_INF bit 1, the rest 0 (10_state.md R59). -/
def pinfWord (s : State) : Word := 0#30 ++ BitVec.ofBool s.point.pbInf ++ BitVec.ofBool s.point.paInf

/-- The interrupt output: IRQ = STATUS.DONE AND CTRL.IE (60_exceptions.md R440). -/
def State.irq (s : State) : Bool := s.ctl.done && s.ctl.ie

/-- The level GCORE drives on an input of the host's interrupt controller: IRQ on GCORE_IRQ_LINE, nothing on another
(60_exceptions.md R440, R441). -/
def State.irqInput (s : State) (line : Nat) : Bool := decide (line = Config.irqLine) && s.irq

end Sys2Proof.Machine
end

