-- ==== Sys2Proof/Machine/Ops.lean ====
section
/-! DEFINITION. The shared operations of commands: how a command starts and completes (30_encoding.md R145, R146), how it
raises an error (60_exceptions.md R432), region checks and DMEM accesses (20_memory.md R104-R107), and the soft reset
(70_reset_and_hazards.md R471). -/

namespace Sys2Proof.Machine

/-- What a command's pseudocode comes to: the state with its writes applied, a raised error, or a fault. -/
inductive Effect where
  /-- The outcome is OK; the argument is the state with the command's writes applied. -/
  | ok (t : State)
  /-- `raise e` (00_scope.md R12). -/
  | raise (e : ErrCode)
  /-- The command read a DMEM byte that holds no value (20_memory.md R118). -/
  | fault (f : Fault)

/-- The start of a command: DONE, ERR, VOK and OUTLEN become 0, the word is pending, BUSY becomes 1 (30_encoding.md R145).
`d` is how many host steps may pass before it completes (log entry 2). -/
def State.start (s : State) (w : Word) (d : Nat) : State :=
  { s with
    ctl := { s.ctl with done := false, err := 0, vok := false, pending := some w }
    io := { s.io with outlen := 0 }
    env := { s.env with delay := d } }

/-- An accepted write of `w` to CMD: the command starts, and when it completes is drawn (30_encoding.md R145,
70_reset_and_hazards.md R480). -/
def State.accept (s : State) (w : Word) : State :=
  { s.start w (Config.completionDelay s.env.draws) with
    env := { s.env with delay := Config.completionDelay s.env.draws, draws := s.env.draws + 1 } }

/-- The completion of a command without error, once its writes are applied: nothing is pending, BUSY is 0 and DONE is 1
(30_encoding.md R146). -/
def State.finishOk (t : State) : State :=
  { t with ctl := { t.ctl with pending := none, done := true } }

/-- The completion of a command that raises `e`: none of its writes happen, STATUS.ERR holds the code, nothing is pending,
BUSY is 0 and DONE is 1 (60_exceptions.md R432). This is GCORE's whole exception entry: there is no trap (R436). -/
def State.raiseError (s : State) (e : ErrCode) : State :=
  { s with ctl := { s.ctl with err := e.code, pending := none, done := true } }

/-- The completion step, given what the command's pseudocode comes to at `s` (30_encoding.md R146). -/
def complete (s : State) : Effect → Host.Outcome State Fault Refusal
  | .ok t => .next t.finishOk
  | .raise e => .next (s.raiseError e)
  | .fault f => .fault f

/-- The region (base, n) is in range: base + n ≤ 4096 on unbounded integers (20_memory.md R106). -/
def inRange (base n : Nat) : Bool := decide (base + n ≤ Config.dmemSize)

/-- `MemRead(off, n)` inside a command: go on with the bytes, or fault on a byte that holds no value
(20_memory.md R105, R118). -/
def readInput (s : State) (off n : Nat) (k : Bytes → Effect) : Effect :=
  match s.dmem.read off n with
  | .ok b => k b
  | .error a => .fault (.dmemUnwritten a)

/-- `MemWrite(DST, k, out); OUTLEN <- k` for an output of k bytes (20_memory.md R104, R105; 10_state.md R41). -/
def State.writeOutput (s : State) (out : Bytes) : State :=
  { s with
    dmem := s.dmem.write s.io.dst.toNat out
    io := { s.io with outlen := BitVec.ofNat 32 out.length } }

/-- The soft reset: every register takes its reset value, the pending command is abandoned, DMEM is kept
(70_reset_and_hazards.md R471). The model's own record is kept (log entry 14). -/
def State.softReset (s : State) : State := { State.reset with dmem := s.dmem, env := s.env }

/-- The platform's power-on reset (70_reset_and_hazards.md R470). The model's own record is kept (log entry 14). -/
def State.powerOn (s : State) : State := { State.reset with env := s.env }

/-- The completion of a command word that is illegal (30_encoding.md R143, R147). -/
def completeIllegal (s : State) : Host.Outcome State Fault Refusal := complete s (.raise .illegalCommand)

end Sys2Proof.Machine
end

