-- ==== Sys2Proof/Machine/Operands.lean ====
section
/-! DEFINITION. The operand forms of commands (30_encoding.md R144): DMEM regions given by SRC, DST and LEN
(20_memory.md R104), integer registers (10_state.md R51), byte-string registers (R52), point registers (R58, R59) and
S-box sets (R44). -/

namespace Sys2Proof.Machine

/-- SRC as an offset (10_state.md R38). -/
def State.srcOff (s : State) : Nat := s.io.src.toNat

/-- DST as an offset (10_state.md R39). -/
def State.dstOff (s : State) : Nat := s.io.dst.toNat

/-- LEN as a length in bytes (10_state.md R40). -/
def State.lenBytes (s : State) : Nat := s.io.len.toNat

/-- The fixed 32-byte input region DMEM[SRC..SRC+32): AddressRange when it is out of range (20_memory.md R104, R106). -/
def readFixed32 (s : State) (k : Bytes → Effect) : Effect :=
  if inRange s.srcOff 32 then readInput s s.srcOff 32 k else .raise .addressRange

/-- A point value: ∞ or an affine pair (41_ecpoint.md R231). -/
inductive Point where
  | infinity
  | affine (x y : Nat)
  deriving DecidableEq, Repr

/-- The operand PA: ∞ when PINF.PA_INF = 1, otherwise (PA_X, PA_Y) (41_ecpoint.md R232). -/
def State.pointA (s : State) : Point :=
  if s.point.paInf then .infinity else .affine s.point.paX.toNat s.point.paY.toNat

/-- The operand PB: ∞ when PINF.PB_INF = 1, otherwise (PB_X, PB_Y) (41_ecpoint.md R232). -/
def State.pointB (s : State) : Point :=
  if s.point.pbInf then .infinity else .affine s.point.pbX.toNat s.point.pbY.toNat

/-- A point result written to PA: ∞ sets PA_INF and zeroes the coordinates, an affine result clears it
(41_ecpoint.md R232). -/
def State.setPointA (s : State) : Point → State
  | .infinity => { s with point := { s.point with paX := 0, paY := 0, paInf := true } }
  | .affine x y =>
    { s with point := { s.point with paX := BitVec.ofNat 256 x, paY := BitVec.ofNat 256 y, paInf := false } }

/-- Entry `i` of S-box `j+1` of a set: bits 4i+3:4i of word S(j+1)_LO for i < 8 and bits 4(i-8)+3:4(i-8) of S(j+1)_HI
otherwise, which are bits 64j+4i+3:64j+4i of the register (10_state.md R44). -/
def sboxEntry (S : SboxSet) (j i : Nat) : BitVec 4 := S.extractLsb' (64 * j + 4 * i) 4

/-- The bit counter L = {HLEN_HI, HLEN_LO}; its bits 2:0 are 0 (10_state.md R48). -/
def HashContext.bitCount (c : HashContext) : BitVec 64 := c.hlen ++ 0#3

/-- What of a 64-bit value the bit counter keeps: its bits 63:3 (10_state.md R48). -/
def counterBits (L : BitVec 64) : BitVec 61 := L.extractLsb' 3 61

/-- The number of bytes waiting in HBUF: c = L[7:3] (10_state.md R48). -/
def HashContext.buffered (c : HashContext) : Nat := (c.bitCount.extractLsb' 3 5).toNat

/-- The 8-byte string a two-word register holds (10_state.md R52). -/
def dwordBytes (v : DWord) : Bytes := toLE64 v

end Sys2Proof.Machine
end

