-- ==== Sys2Proof/Machine/Control.lean ====
section
/-! DEFINITION. The control command (49_control.md). -/

namespace Sys2Proof.Machine

/-- NOP: the command completes with outcome OK and writes nothing (49_control.md R420). -/
def execNop (s : State) : Host.Outcome State Fault Refusal := complete s (.ok s)

end Sys2Proof.Machine
end

