-- ==== Sys2Proof/Machine/Gost89.lean ====
section
/-! DEFINITION. The GOST 28147-89 block cipher U1 (42_gost89.md): key schedule, round function, ECB block, CBC-gamma, and
the commands G_KEYLOAD, G_SBOXDEF, G_ECBENC, G_ECBDEC and G_GAMMA. A set of subkeys K[0..7] is a register whose word i
is K[i]. -/

namespace Sys2Proof.Machine

/-- The key schedule: word i of the result is K[i] = LE32(key[4i..4i+4)) (42_gost89.md R263). -/
def keySchedule (key : Bytes) : U256 :=
  packWords ((List.range 8).map fun i => le32 (slice key (4 * i) (4 * i + 4)))

/-- The substitution of the round function: nibble j of x goes through S-box j+1 (42_gost89.md R264). -/
def substitute (S : SboxSet) (x : Word) : Word :=
  (List.range 8).foldl
    (fun acc j => acc ||| ((sboxEntry S j (x.extractLsb' (4 * j) 4).toNat).setWidth 32 <<< (4 * j))) 0

/-- The round function f_S (42_gost89.md R264). -/
def roundF (S : SboxSet) (x : Word) : Word := rotl32 (substitute S x) 11

/-- The key order of encryption: K[0..7] three times, then K[7..0] (42_gost89.md R265). -/
def encOrder (i : Nat) : Nat := if i < 24 then i % 8 else 31 - i

/-- The key order of decryption: K[0..7] once, then K[7..0] three times (42_gost89.md R266). -/
def decOrder (i : Nat) : Nat := if i < 8 then i else 7 - i % 8

/-- Rounds 2r and 2r+1 on the halves (n1, n2) (42_gost89.md R265). -/
def roundPair (S : SboxSet) (K : U256) (order : Nat → Nat) (n : Word × Word) (r : Nat) : Word × Word :=
  let n2 := n.2 ^^^ roundF S (n.1 + wordOf K (order (2 * r)))
  let n1 := n.1 ^^^ roundF S (n2 + wordOf K (order (2 * r + 1)))
  (n1, n2)

/-- The 32 rounds on an 8-byte block under a key order (42_gost89.md R265). -/
def gostBlock (S : SboxSet) (K : U256) (order : Nat → Nat) (b : Bytes) : Bytes :=
  let n := (List.range 16).foldl (roundPair S K order) (le32 (slice b 0 4), le32 (slice b 4 8))
  toLE32 n.2 ++ toLE32 n.1

/-- `E_{S,K}(b)` (42_gost89.md R265). -/
def gostEncrypt (S : SboxSet) (K : U256) (b : Bytes) : Bytes := gostBlock S K encOrder b

/-- `D_{S,K}(b)` (42_gost89.md R266). -/
def gostDecrypt (S : SboxSet) (K : U256) (b : Bytes) : Bytes := gostBlock S K decOrder b

/-- The end-around addition of GC2 to the high half: t = hi + GC2, less 2^32 - 1 when it reaches 2^32
(42_gost89.md R268). -/
def advanceHigh (hi : Word) : Word :=
  if hi.toNat + gammaC2.toNat < 2 ^ 32 then BitVec.ofNat 32 (hi.toNat + gammaC2.toNat)
  else BitVec.ofNat 32 (hi.toNat + gammaC2.toNat - 2 ^ 32 + 1)

/-- `advance(g)` (42_gost89.md R268). -/
def gammaAdvance (g : Bytes) : Bytes :=
  toLE32 (le32 (slice g 0 4) + gammaC1) ++ toLE32 (advanceHigh (le32 (slice g 4 8)))

/-- The chunks of the gamma transform: the output and the last gamma block (42_gost89.md R269). The first argument is the
number of chunks still to do. -/
def gammaChunks (S : SboxSet) (K : U256) : Nat → Bytes → Bytes → Bytes × Bytes
  | 0, g, _ => ([], g)
  | c + 1, g, data =>
    let g1 := gammaAdvance g
    let rest := gammaChunks S K c g1 (data.drop 8)
    (xorBytes (data.take 8) (gostEncrypt S K g1) ++ rest.1, rest.2)

/-- `Gamma_{S,K}(g, data, first)` (42_gost89.md R269): ceil(n/8) chunks, the last one perhaps partial. -/
def gammaTransform (S : SboxSet) (K : U256) (g data : Bytes) (first : Bool) : Bytes × Bytes :=
  gammaChunks S K ((data.length + 7) / 8) (if first then gostEncrypt S K g else g) data

/-- G_KEYLOAD's pseudocode (42_gost89.md R271). -/
def gKeyloadEffect (s : State) : Effect :=
  readFixed32 s fun key => .ok { s with cipher := { s.cipher with gkey := keySchedule key } }

/-- G_KEYLOAD (42_gost89.md R271). -/
def execGKeyload (s : State) : Host.Outcome State Fault Refusal := complete s (gKeyloadEffect s)

/-- G_SBOXDEF (42_gost89.md R272). -/
def execGSboxdef (s : State) : Host.Outcome State Fault Refusal :=
  complete s (.ok { s with cipher := { s.cipher with sbox := defaultSbox } })

/-- The pseudocode of the two ECB commands for a block function (42_gost89.md R273, R274). -/
def ecbEffect (block : Bytes → Bytes) (s : State) : Effect :=
  if s.lenBytes % 8 ≠ 0 then .raise .bufferShape
  else if !(inRange s.srcOff s.lenBytes && inRange s.dstOff s.lenBytes) then .raise .addressRange
  else
    readInput s s.srcOff s.lenBytes fun input =>
      .ok (s.writeOutput ((blocks8 (s.lenBytes / 8) input).flatMap block))

/-- G_ECBENC (42_gost89.md R273). -/
def execGEcbenc (s : State) : Host.Outcome State Fault Refusal :=
  complete s (ecbEffect (gostEncrypt s.cipher.sbox s.cipher.gkey) s)

/-- G_ECBDEC (42_gost89.md R274). -/
def execGEcbdec (s : State) : Host.Outcome State Fault Refusal :=
  complete s (ecbEffect (gostDecrypt s.cipher.sbox s.cipher.gkey) s)

/-- G_GAMMA's pseudocode (42_gost89.md R275). -/
def gGammaEffect (first : Bool) (s : State) : Effect :=
  if !(inRange s.srcOff s.lenBytes && inRange s.dstOff s.lenBytes) then .raise .addressRange
  else
    readInput s s.srcOff s.lenBytes fun input =>
      match gammaTransform s.cipher.sbox s.cipher.gkey (dwordBytes s.cipher.giv) input first with
      | (out, g') => .ok { s.writeOutput out with cipher := { s.cipher with giv := le64 g' } }

/-- G_GAMMA (42_gost89.md R275). -/
def execGGamma (first : Bool) (s : State) : Host.Outcome State Fault Refusal := complete s (gGammaEffect first s)

end Sys2Proof.Machine
end

