-- ==== Sys2Proof/Machine/Gost3411.lean ====
section
/-! DEFINITION. The GOST R 34.11-94 hash core U2 (43_gost3411.md): the step transformation, the block transform, and the
commands H_INIT, H_UPDATE, H_FINAL and H_STEP. -/

namespace Sys2Proof.Machine

/-- `A(X)` (43_gost3411.md R301; 90_conflicts.md C6). -/
def hashA (X : Bytes) : Bytes := slice X 8 32 ++ xorBytes (slice X 0 8) (slice X 8 16)

/-- `P(X)`: byte 4i + k - 1 of the result is byte 8(k-1) + i of X (43_gost3411.md R302). -/
def hashP (X : Bytes) : Bytes := (List.range 32).map fun n => X.getD (8 * (n % 4) + n / 4) 0

/-- The 16-bit little-endian words of a 32-byte string (43_gost3411.md R304). -/
def psiWords (X : Bytes) : List (BitVec 16) :=
  (List.range 16).map fun i => X.getD (2 * i + 1) 0 ++ X.getD (2 * i) 0

/-- The bytes of 16-bit words, little-endian (43_gost3411.md R304). -/
def psiBytes (w : List (BitVec 16)) : Bytes := w.flatMap fun x => [x.extractLsb' 0 8, x.extractLsb' 8 8]

/-- The feedback word of ψ (43_gost3411.md R304). -/
def psiFeedback (w : List (BitVec 16)) : BitVec 16 :=
  w.getD 0 0 ^^^ w.getD 1 0 ^^^ w.getD 2 0 ^^^ w.getD 3 0 ^^^ w.getD 12 0 ^^^ w.getD 15 0

/-- `ψ(X)` (43_gost3411.md R304). -/
def psi (X : Bytes) : Bytes := psiBytes ((psiWords X).drop 1 ++ [psiFeedback (psiWords X)])

/-- The keys K1..K4 of a step as 32-byte strings (43_gost3411.md R305). C1 and C3 are 0^32 (R303). -/
def stepKeys (H M : Bytes) : List Bytes :=
  let u2 := xorBytes (hashA H) (zeros 32)
  let v2 := hashA (hashA M)
  let u3 := xorBytes (hashA u2) hashC2
  let v3 := hashA (hashA v2)
  let u4 := xorBytes (hashA u3) (zeros 32)
  let v4 := hashA (hashA v3)
  [hashP (xorBytes H M), hashP (xorBytes u2 v2), hashP (xorBytes u3 v3), hashP (xorBytes u4 v4)]

/-- The four encrypted slices of H, concatenated (43_gost3411.md R305). -/
def stepEncrypt (S : SboxSet) (H M : Bytes) : Bytes :=
  (List.zipWith (fun key block => gostEncrypt S (keySchedule key) block) (stepKeys H M) (blocks8 4 H)).flatten

/-- `step_S(H, M)` (43_gost3411.md R305). -/
def hashStep (S : SboxSet) (H M : Bytes) : Bytes :=
  Nat.iterate psi 61 (xorBytes (psi (xorBytes M (Nat.iterate psi 12 (stepEncrypt S H M)))) H)

/-- `block_transform(M)` (43_gost3411.md R306). -/
def HashContext.blockTransform (c : HashContext) (M : Bytes) : HashContext :=
  { c with hz := c.hz + le256 M, hh := le256 (hashStep c.hsbox (toLE256 c.hh) M) }

/-- `absorb(x)` (43_gost3411.md R308). -/
def HashContext.absorb (c : HashContext) (x : Byte) : HashContext :=
  let c1 := { c with hbuf := setByte c.hbuf c.buffered x, hlen := counterBits (c.bitCount + 8) }
  if c.buffered = 31 then c1.blockTransform (toLE256 c1.hbuf) else c1

/-- The context after the partial block, if there is one, is zero-padded and transformed (43_gost3411.md R310). -/
def HashContext.flush (c : HashContext) : HashContext :=
  if c.buffered = 0 then c
  else
    let b := (toLE256 c.hbuf).take c.buffered ++ zeros (32 - c.buffered)
    { c with hbuf := le256 b }.blockTransform b

/-- The chaining value after the length block and the Z block (43_gost3411.md R310). -/
def HashContext.digest (c : HashContext) : Bytes :=
  hashStep c.hsbox (hashStep c.hsbox (toLE256 c.hh) (toLE64 c.bitCount ++ zeros 24)) (toLE256 c.hz)

/-- The context H_INIT leaves, with the S-box set `S` (43_gost3411.md R307). -/
def HashContext.initial (S : SboxSet) : HashContext :=
  { hsbox := S, hh := 0, hz := 0, hlen := 0, fin := false, hbuf := 0 }

/-- H_INIT (43_gost3411.md R307). -/
def execHInit (copy : Bool) (s : State) : Host.Outcome State Fault Refusal :=
  complete s (.ok { s with hash := HashContext.initial (if copy then s.cipher.sbox else defaultSbox) })

/-- H_UPDATE's pseudocode (43_gost3411.md R309). -/
def hUpdateEffect (s : State) : Effect :=
  if s.hash.fin then .raise .bufferShape
  else if !inRange s.srcOff s.lenBytes then .raise .addressRange
  else readInput s s.srcOff s.lenBytes fun msg => .ok { s with hash := msg.foldl HashContext.absorb s.hash }

/-- H_UPDATE (43_gost3411.md R309). -/
def execHUpdate (s : State) : Host.Outcome State Fault Refusal := complete s (hUpdateEffect s)

/-- H_FINAL's pseudocode (43_gost3411.md R310). -/
def hFinalEffect (s : State) : Effect :=
  if s.hash.fin then .raise .bufferShape
  else if !inRange s.dstOff 32 then .raise .addressRange
  else
    let h := s.hash.flush.digest
    .ok { s.writeOutput h with
      hash := { s.hash.flush with hh := le256 h, fin := true }
      sign := { s.sign with eH := be256 h } }

/-- H_FINAL (43_gost3411.md R310). -/
def execHFinal (s : State) : Host.Outcome State Fault Refusal := complete s (hFinalEffect s)

/-- H_STEP's pseudocode (43_gost3411.md R311). -/
def hStepEffect (s : State) : Effect :=
  readFixed32 s fun m =>
    .ok { s with hash := { s.hash with hh := le256 (hashStep s.hash.hsbox (toLE256 s.hash.hh) m) } }

/-- H_STEP (43_gost3411.md R311). -/
def execHStep (s : State) : Host.Outcome State Fault Refusal := complete s (hStepEffect s)

end Sys2Proof.Machine
end

