-- ==== Sys2Proof/Machine/ModArith.lean ====
section
/-! DEFINITION. The modular unit U6 (40_modarith.md): sign-aware reduction, inverse and extended gcd on unbounded
integers, and the commands M_MOD, M_INV and M_EGCD. -/

namespace Sys2Proof.Machine

/-- `smod(x, m)`: the r with 0 ≤ r < m and m dividing x - r (40_modarith.md R201). -/
def smod (x : Int) (m : Nat) : Nat := (x % (m : Int)).toNat

/-- The loop of the iterative extended Euclidean algorithm (40_modarith.md R205). The first argument bounds the number of
rounds; r1 falls in every round, so r1 rounds are enough. -/
def egcdLoop : Nat → (r0 r1 : Nat) → (s0 s1 t0 t1 : Int) → Nat × Int × Int
  | 0, r0, _, s0, _, t0, _ => (r0, s0, t0)
  | k + 1, r0, r1, s0, s1, t0, t1 =>
    if r1 = 0 then (r0, s0, t0)
    else
      egcdLoop k r1 (r0 - r0 / r1 * r1) s1 (s0 - (r0 / r1 : Nat) * s1) t1 (t0 - (r0 / r1 : Nat) * t1)

/-- `egcd(a, b)` = (d, x, y) (40_modarith.md R205). -/
def egcd (a b : Nat) : Nat × Int × Int := egcdLoop b a b 1 0 0 1

/-- `modinv(a, n)`: the r with 0 ≤ r < n and a·r ≡ 1 (mod n); `none` when gcd(|a|, n) ≠ 1, where it is undefined and the
rule that calls it raises InvalidParameter (40_modarith.md R203; log entry 11). -/
def modinv (a : Int) (n : Nat) : Option Nat :=
  if Nat.gcd a.natAbs n = 1 then some (smod (egcd (smod a n) n).2.1 n) else none

/-- M_MOD's pseudocode (40_modarith.md R202). -/
def mModEffect (s : State) : Effect :=
  if s.modu.mM = 0 then .raise .invalidParameter
  else .ok { s with modu := { s.modu with mR := BitVec.ofNat 256 (smod s.modu.mX.toInt s.modu.mM.toNat) } }

/-- M_MOD (40_modarith.md R202). -/
def execMMod (s : State) : Host.Outcome State Fault Refusal := complete s (mModEffect s)

/-- M_INV's pseudocode (40_modarith.md R204). -/
def mInvEffect (s : State) : Effect :=
  if s.modu.mM = 0 then .raise .invalidParameter
  else
    match modinv s.modu.mX.toInt s.modu.mM.toNat with
    | none => .raise .invalidParameter
    | some r => .ok { s with modu := { s.modu with mR := BitVec.ofNat 256 r } }

/-- M_INV (40_modarith.md R204). -/
def execMInv (s : State) : Host.Outcome State Fault Refusal := complete s (mInvEffect s)

/-- M_EGCD's pseudocode (40_modarith.md R206). -/
def mEgcdEffect (s : State) : Effect :=
  if s.modu.mX.toInt < 0 ∨ 2 ^ 256 ≤ s.modu.mX.toInt then .raise .invalidParameter
  else
    match egcd s.modu.mX.toInt.toNat s.modu.mM.toNat with
    | (d, x, y) =>
      .ok { s with modu := { s.modu with mR := BitVec.ofNat 256 d, mGX := BitVec.ofInt 512 x, mGY := BitVec.ofInt 512 y } }

/-- M_EGCD (40_modarith.md R206). -/
def execMEgcd (s : State) : Host.Outcome State Fault Refusal := complete s (mEgcdEffect s)

end Sys2Proof.Machine
end

