-- ==== Sys2Proof/Machine/EcPoint.lean ====
section
/-! DEFINITION. The point arithmetic engine U3 (41_ecpoint.md): point addition, scalar multiplication, and the commands
E_PADD and E_PMUL. In `padd` and `pmul`, `none` stands for `raise InvalidParameter`. -/

namespace Sys2Proof.Machine

/-- A point with its affine coordinates reduced modulo p (41_ecpoint.md R231). -/
def Point.reduced : Point → Point
  | .infinity => .infinity
  | .affine x y => .affine (smod x curveP) (smod y curveP)

/-- The chord case of the addition, x1 ≠ x2 (41_ecpoint.md R233). -/
def chord (x1 y1 x2 y2 : Nat) : Option Point :=
  match modinv ((x2 : Int) - x1) curveP with
  | none => none
  | some inv =>
    let l : Int := smod (((y2 : Int) - y1) * inv) curveP
    let x3 : Nat := smod (l ^ 2 - x1 - x2) curveP
    some (.affine x3 (smod (l * ((x1 : Int) - x3) - y1) curveP))

/-- The doubling case of the addition, x1 = x2 (41_ecpoint.md R233). -/
def tangent (x1 y1 : Nat) : Option Point :=
  match modinv (2 * (y1 : Int)) curveP with
  | none => none
  | some inv =>
    let l : Int := smod ((3 * (x1 : Int) ^ 2 + curveA) * inv) curveP
    let x3 : Nat := smod (l ^ 2 - 2 * x1) curveP
    some (.affine x3 (smod (l * ((x1 : Int) - x3) - y1) curveP))

/-- The addition of two affine points with reduced coordinates: the test on y1 + y2 comes before the test on x
(41_ecpoint.md R233). -/
def addReduced (x1 y1 x2 y2 : Nat) : Option Point :=
  if smod ((y1 : Int) + y2) curveP = 0 then some .infinity
  else if x1 ≠ x2 then chord x1 y1 x2 y2
  else tangent x1 y1

/-- `padd(P1, P2)` (41_ecpoint.md R233). -/
def padd : Point → Point → Option Point
  | .infinity, p2 => some p2.reduced
  | .affine x y, .infinity => some (Point.affine x y).reduced
  | .affine x1 y1, .affine x2 y2 =>
    addReduced (smod x1 curveP) (smod y1 curveP) (smod x2 curveP) (smod y2 curveP)

/-- The right-to-left loop of the scalar multiplication (41_ecpoint.md R234). The first argument bounds the number of
rounds: one for each bit of the scalar is enough. -/
def pmulLoop : Nat → Nat → Point → Point → Option Point
  | 0, _, r, _ => some r
  | n + 1, k, r, a =>
    if k = 0 then some r
    else
      match (if k % 2 = 1 then padd r a else some r), padd a a with
      | some r', some a' => pmulLoop n (k / 2) r' a'
      | _, _ => none

/-- `pmul(k, P)` (41_ecpoint.md R234). -/
def pmul (k : Nat) (p : Point) : Option Point := pmulLoop (k.log2 + 1) k .infinity p.reduced

/-- The base point G (41_ecpoint.md R230). -/
def baseG : Point := .affine baseX baseY

/-- E_PADD's pseudocode (41_ecpoint.md R232). -/
def ePaddEffect (s : State) : Effect :=
  match padd s.pointA s.pointB with
  | none => .raise .invalidParameter
  | some r => .ok (s.setPointA r)

/-- E_PADD (41_ecpoint.md R232). -/
def execEPadd (s : State) : Host.Outcome State Fault Refusal := complete s (ePaddEffect s)

/-- E_PMUL's pseudocode (41_ecpoint.md R235). The rule says that pmul never raises, so the first case is for no state
(log entry 11). -/
def ePmulEffect (s : State) : Effect :=
  match pmul s.sign.eK.toNat s.pointA with
  | none => .raise .invalidParameter
  | some r => .ok (s.setPointA r)

/-- E_PMUL (41_ecpoint.md R235). -/
def execEPmul (s : State) : Host.Outcome State Fault Refusal := complete s (ePmulEffect s)

end Sys2Proof.Machine
end

