-- ==== Sys2Proof/Machine/Signer.lean ====
section
/-! DEFINITION. The GOST R 34.10-2012 signer U4 (44_signer.md): E_KEYGEN, E_SIGN and E_VERIFY. -/

namespace Sys2Proof.Machine

/-- A scalar in [1, q) (44_signer.md R341-R343). -/
def scalarInRange (v : U256) : Bool := decide (1 ≤ v.toNat ∧ v.toNat < curveQ)

/-- E_KEYGEN's pseudocode (44_signer.md R341). -/
def eKeygenEffect (s : State) : Effect :=
  if !scalarInRange s.sign.eD then .raise .invalidParameter
  else
    match pmul s.sign.eD.toNat baseG with
    | some (.affine x y) =>
      .ok { s with sign := { s.sign with eQX := BitVec.ofNat 256 x, eQY := BitVec.ofNat 256 y } }
    | _ => .raise .invalidParameter

/-- E_KEYGEN (44_signer.md R341). -/
def execEKeygen (s : State) : Host.Outcome State Fault Refusal := complete s (eKeygenEffect s)

/-- The signature (r, s) for the digest integer h, the private scalar d, the nonce k and the x coordinate of C = k·G
(44_signer.md R342; e, r and s are not forced away from 0, 90_conflicts.md C2). -/
def signature (h d k cx : Nat) : Nat × Nat :=
  let e := smod h curveQ
  let r := smod cx curveQ
  (r, smod ((r : Int) * d + (k : Int) * e) curveQ)

/-- E_SIGN's pseudocode (44_signer.md R342). -/
def eSignEffect (s : State) : Effect :=
  if !scalarInRange s.sign.eK then .raise .invalidParameter
  else
    match pmul s.sign.eK.toNat baseG with
    | some (.affine x _) =>
      match signature s.sign.eH.toNat s.sign.eD.toNat s.sign.eK.toNat x with
      | (r, sg) => .ok { s with sign := { s.sign with eR := BitVec.ofNat 256 r, eS := BitVec.ofNat 256 sg } }
    | _ => .raise .invalidParameter

/-- E_SIGN (44_signer.md R342). -/
def execESign (s : State) : Host.Outcome State Fault Refusal := complete s (eSignEffect s)

/-- The curve equation at (x, y) (44_signer.md R343). -/
def onCurve (x y : Nat) : Bool :=
  decide (smod ((y : Int) ^ 2 - ((x : Int) ^ 3 + curveA * x + curveB)) curveP = 0)

/-- The point C = z1·G + z2·Q of the verification, for v = h⁻¹ mod q (44_signer.md R343); `none` when a point function
raises. -/
def verifyPoint (v r sg qx qy : Nat) : Option Point :=
  match pmul (smod ((sg : Int) * v) curveQ) baseG, pmul (smod (-(r : Int) * v) curveQ) (.affine qx qy) with
  | some p1, some p2 => padd p1 p2
  | _, _ => none

/-- E_VERIFY's pseudocode (44_signer.md R343). h is not reduced before its inverse is taken. -/
def eVerifyEffect (s : State) : Effect :=
  if !(scalarInRange s.sign.eS && scalarInRange s.sign.eR) then .raise .invalidParameter
  else if curveP ≤ s.sign.eQX.toNat ∨ curveP ≤ s.sign.eQY.toNat then .raise .invalidParameter
  else if !onCurve s.sign.eQX.toNat s.sign.eQY.toNat then .raise .invalidParameter
  else
    match modinv s.sign.eH.toNat curveQ with
    | none => .raise .invalidParameter
    | some v =>
      match verifyPoint v s.sign.eR.toNat s.sign.eS.toNat s.sign.eQX.toNat s.sign.eQY.toNat with
      | none => .raise .invalidParameter
      | some .infinity => .raise .verifyFailed
      | some (.affine x _) =>
        if smod x curveQ = s.sign.eR.toNat then .ok { s with ctl := { s.ctl with vok := true } }
        else .raise .verifyFailed

/-- E_VERIFY (44_signer.md R343). -/
def execEVerify (s : State) : Host.Outcome State Fault Refusal := complete s (eVerifyEffect s)

end Sys2Proof.Machine
end

