-- ==== Sys2Proof/Machine/Tdes.lean ====
section
/-! DEFINITION. The Triple-DES CBC frame codec U5 (45_tdes.md): DES, EDE3, CBC, frames, and the commands T_KEYLOAD,
T_FRMENC and T_FRMDEC. -/

namespace Sys2Proof.Machine

/-- A permutation table applied to an m-bit value: bit i of the n-bit result, counted from 1 at its most significant end,
is bit T[i] of `v`, counted likewise (45_tdes.md R370). -/
def permute {m : Nat} (n : Nat) (T : List Nat) (v : BitVec m) : BitVec n :=
  BitVec.ofNat n (T.foldl (fun acc t => 2 * acc + (v.getLsbD (m - t)).toNat) 0)

/-- `rotl28(v, k)` (45_tdes.md R373). -/
def rotl28 (v : BitVec 28) (k : Nat) : BitVec 28 := (v <<< k) ||| (v >>> (28 - k))

/-- The subkeys KS[1], KS[2], ... for the halves C and D and the rotations still to do (45_tdes.md R373). -/
def desSubkeysFrom : List Nat → BitVec 28 → BitVec 28 → List (BitVec 48)
  | [], _, _ => []
  | k :: ks, C, D =>
    permute 48 desPC2 (rotl28 C k ++ rotl28 D k) :: desSubkeysFrom ks (rotl28 C k) (rotl28 D k)

/-- The key schedule KS[1..16] of an 8-byte key (45_tdes.md R373). The parity bits are in no table (R370). -/
def desSubkeys (k : Bytes) : List (BitVec 48) :=
  let cd : BitVec 56 := permute 56 desPC1 (be64 k)
  desSubkeysFrom desShifts (cd.extractLsb' 28 28) (cd.extractLsb' 0 28)

/-- Entry of DES S-box j+1 for a 6-bit input: the row is 2·b1 + b6, the column b2 b3 b4 b5 (45_tdes.md R372). -/
def desSbox (j : Nat) (x : BitVec 6) : BitVec 4 :=
  let row := 2 * (x.getLsbD 5).toNat + (x.getLsbD 0).toNat
  BitVec.ofNat 4 ((desSboxes.getD j []).getD (16 * row + (x.extractLsb' 1 4).toNat) 0)

/-- The round function fD(R, K) (45_tdes.md R374). Group j+1 of x is bits 47-6j:42-6j. -/
def desRound (R : Word) (K : BitVec 48) : Word :=
  let x : BitVec 48 := permute 48 desE R ^^^ K
  let y : Nat := (List.range 8).foldl (fun acc j => 16 * acc + (desSbox j (x.extractLsb' (42 - 6 * j) 6)).toNat) 0
  permute 32 desP (BitVec.ofNat 32 y)

/-- The rounds for a list of subkeys in the order they are used (45_tdes.md R375). -/
def desRounds (ks : List (BitVec 48)) (lr : Word × Word) : Word × Word :=
  ks.foldl (fun p K => (p.2, p.1 ^^^ desRound p.2 K)) lr

/-- DES on an 8-byte block with the subkeys in the order they are used (45_tdes.md R375). -/
def desBlock (ks : List (BitVec 48)) (x : Bytes) : Bytes :=
  let v : DWord := permute 64 desIP (be64 x)
  let lr := desRounds ks (v.extractLsb' 32 32, v.extractLsb' 0 32)
  toBE64 (permute 64 desFP (lr.2 ++ lr.1))

/-- `DES_E(k, x)` (45_tdes.md R375). -/
def desEncrypt (k x : Bytes) : Bytes := desBlock (desSubkeys k) x

/-- `DES_D(k, x)` (45_tdes.md R375). -/
def desDecrypt (k x : Bytes) : Bytes := desBlock (desSubkeys k).reverse x

/-- `EDE3_E(x)` under the keys of a keyset (45_tdes.md R376). -/
def ede3Encrypt (ks : Keyset) (x : Bytes) : Bytes :=
  desEncrypt (dwordBytes ks.tk3) (desDecrypt (dwordBytes ks.tk2) (desEncrypt (dwordBytes ks.tk1) x))

/-- `EDE3_D(y)` under the keys of a keyset (45_tdes.md R376). -/
def ede3Decrypt (ks : Keyset) (y : Bytes) : Bytes :=
  desDecrypt (dwordBytes ks.tk1) (desEncrypt (dwordBytes ks.tk2) (desDecrypt (dwordBytes ks.tk3) y))

/-- The CBC encryption of a list of blocks after the block `prev` (45_tdes.md R377). -/
def cbcEncryptBlocks (ks : Keyset) : Bytes → List Bytes → Bytes
  | _, [] => []
  | prev, b :: bs => ede3Encrypt ks (xorBytes b prev) ++ cbcEncryptBlocks ks (ede3Encrypt ks (xorBytes b prev)) bs

/-- The CBC decryption of a list of blocks after the block `prev` (45_tdes.md R377). -/
def cbcDecryptBlocks (ks : Keyset) : Bytes → List Bytes → Bytes
  | _, [] => []
  | prev, y :: ys => xorBytes (ede3Decrypt ks y) prev ++ cbcDecryptBlocks ks y ys

/-- `CBC_E(iv, B)` with the keyset's IV (45_tdes.md R377). -/
def cbcEncrypt (ks : Keyset) (B : Bytes) : Bytes :=
  cbcEncryptBlocks ks (dwordBytes ks.tiv) (blocks8 (B.length / 8) B)

/-- `CBC_D(iv, Y)` with the keyset's IV (45_tdes.md R377). -/
def cbcDecrypt (ks : Keyset) (Y : Bytes) : Bytes :=
  cbcDecryptBlocks ks (dwordBytes ks.tiv) (blocks8 (Y.length / 8) Y)

/-- The number of padding bytes of a plaintext of n bytes, from 1 to 8 (45_tdes.md R378). -/
def padLength (n : Nat) : Nat := 8 - n % 8

/-- The length of the frame of a plaintext of n bytes (45_tdes.md R378). -/
def frameLength (n : Nat) : Nat := n + 16 - n % 8

/-- `frame(P)` = toLE64(n) ‖ P ‖ pad (45_tdes.md R378). -/
def frame (P : Bytes) : Bytes :=
  leBytes 8 P.length ++ P ++ List.replicate (padLength P.length) (BitVec.ofNat 8 (padLength P.length))

/-- `unframe(B)`: the plaintext, or `none` where a check fails; the checks in their order (45_tdes.md R379). -/
def unframe (B : Bytes) : Option Bytes :=
  if B.length = 0 then none
  else
    let v := (B.getD (B.length - 1) 0).toNat
    if v < 1 ∨ 8 < v then none
    else if B.drop (B.length - v) ≠ List.replicate v (BitVec.ofNat 8 v) then none
    else
      let m := B.length - v
      if m < 8 then none
      else if leNat (slice B 0 8) ≠ m - 8 then none
      else some (slice B 8 m)

/-- T_KEYLOAD's pseudocode (45_tdes.md R382). -/
def tKeyloadEffect (s : State) : Effect :=
  readFixed32 s fun ks =>
    .ok { s with keys := { tk1 := le64 (slice ks 0 8), tk2 := le64 (slice ks 8 16), tk3 := le64 (slice ks 16 24),
                           tiv := le64 (slice ks 24 32) } }

/-- T_KEYLOAD (45_tdes.md R382). -/
def execTKeyload (s : State) : Host.Outcome State Fault Refusal := complete s (tKeyloadEffect s)

/-- T_FRMENC's pseudocode, with the source's self-check (45_tdes.md R383). -/
def tFrmencEffect (s : State) : Effect :=
  if !inRange s.srcOff s.lenBytes then .raise .addressRange
  else if !inRange s.dstOff (frameLength s.lenBytes) then .raise .addressRange
  else
    readInput s s.srcOff s.lenBytes fun P =>
      let Y := cbcEncrypt s.keys (frame P)
      if cbcDecrypt s.keys Y ≠ frame P then .raise .integrityFailure
      else .ok (s.writeOutput Y)

/-- T_FRMENC (45_tdes.md R383). -/
def execTFrmenc (s : State) : Host.Outcome State Fault Refusal := complete s (tFrmencEffect s)

/-- T_FRMDEC's pseudocode (45_tdes.md R384). -/
def tFrmdecEffect (s : State) : Effect :=
  if s.lenBytes % 8 ≠ 0 then .raise .bufferShape
  else if !inRange s.srcOff s.lenBytes then .raise .addressRange
  else
    readInput s s.srcOff s.lenBytes fun Y =>
      match unframe (cbcDecrypt s.keys Y) with
      | none => .raise .integrityFailure
      | some P => if !inRange s.dstOff P.length then .raise .addressRange else .ok (s.writeOutput P)

/-- T_FRMDEC (45_tdes.md R384). -/
def execTFrmdec (s : State) : Host.Outcome State Fault Refusal := complete s (tFrmdecEffect s)

end Sys2Proof.Machine
end

