-- ==== Sys2Proof/Machine/Dispatch.lean ====
section
/-! DEFINITION. The meaning of every command: its completion step (30_encoding.md R146, R147). -/

namespace Sys2Proof.Machine

def exec (i : Instr) (s : State) : Host.Outcome State Fault Refusal :=
  match i with
  | .nop => Sys2Proof.Machine.execNop s
  | .gKeyload => Sys2Proof.Machine.execGKeyload s
  | .gSboxdef => Sys2Proof.Machine.execGSboxdef s
  | .gEcbenc => Sys2Proof.Machine.execGEcbenc s
  | .gEcbdec => Sys2Proof.Machine.execGEcbdec s
  | .gGamma first => Sys2Proof.Machine.execGGamma first s
  | .hInit copy => Sys2Proof.Machine.execHInit copy s
  | .hUpdate => Sys2Proof.Machine.execHUpdate s
  | .hFinal => Sys2Proof.Machine.execHFinal s
  | .hStep => Sys2Proof.Machine.execHStep s
  | .ePadd => Sys2Proof.Machine.execEPadd s
  | .ePmul => Sys2Proof.Machine.execEPmul s
  | .eKeygen => Sys2Proof.Machine.execEKeygen s
  | .eSign => Sys2Proof.Machine.execESign s
  | .eVerify => Sys2Proof.Machine.execEVerify s
  | .mMod => Sys2Proof.Machine.execMMod s
  | .mInv => Sys2Proof.Machine.execMInv s
  | .mEgcd => Sys2Proof.Machine.execMEgcd s
  | .tKeyload => Sys2Proof.Machine.execTKeyload s
  | .tFrmenc => Sys2Proof.Machine.execTFrmenc s
  | .tFrmdec => Sys2Proof.Machine.execTFrmdec s

end Sys2Proof.Machine
end

