-- ==== Sys2Proof/Machine/RegMap.lean ====
section
/-! DEFINITION. The register map (10_state.md R32) and the one operation that reads, and the one that writes, a register
word as the host does, with every access kind: RO, RW, W1C, WO, reserved bits (10_state.md R33-R68). -/

namespace Sys2Proof.Machine

/-- The registers of 10_state.md R32. -/
inductive RegName where
  | id | version | ctrl | status | cmd | src | dst | len | outlen
  | gkey | giv | sbox | hsbox
  | hh | hz | hlen | hctl | hbuf
  | eH | eD | eK | eR | eS | eQX | eQY
  | paX | paY | pbX | pbY | pinf
  | mX | mM | mR | mGX | mGY
  | tk1 | tk2 | tk3 | tiv
  deriving DecidableEq, Repr

/-- One row of the register map: a register, its first offset and its number of words (10_state.md R32). -/
structure RegRow where
  name : RegName
  base : Nat
  words : Nat
  deriving DecidableEq, Repr

/-- The register map (10_state.md R32). -/
def regMap : List RegRow :=
  [⟨.id, 0x000, 1⟩, ⟨.version, 0x004, 1⟩, ⟨.ctrl, 0x008, 1⟩, ⟨.status, 0x00C, 1⟩, ⟨.cmd, 0x010, 1⟩,
   ⟨.src, 0x014, 1⟩, ⟨.dst, 0x018, 1⟩, ⟨.len, 0x01C, 1⟩, ⟨.outlen, 0x020, 1⟩,
   ⟨.gkey, 0x040, 8⟩, ⟨.giv, 0x060, 2⟩, ⟨.sbox, 0x080, 16⟩, ⟨.hsbox, 0x0C0, 16⟩,
   ⟨.hh, 0x100, 8⟩, ⟨.hz, 0x120, 8⟩, ⟨.hlen, 0x140, 2⟩, ⟨.hctl, 0x148, 1⟩, ⟨.hbuf, 0x160, 8⟩,
   ⟨.eH, 0x200, 8⟩, ⟨.eD, 0x220, 8⟩, ⟨.eK, 0x240, 8⟩, ⟨.eR, 0x260, 8⟩, ⟨.eS, 0x280, 8⟩,
   ⟨.eQX, 0x2A0, 8⟩, ⟨.eQY, 0x2C0, 8⟩,
   ⟨.paX, 0x2E0, 8⟩, ⟨.paY, 0x300, 8⟩, ⟨.pbX, 0x320, 8⟩, ⟨.pbY, 0x340, 8⟩, ⟨.pinf, 0x360, 1⟩,
   ⟨.mX, 0x400, 16⟩, ⟨.mM, 0x440, 8⟩, ⟨.mR, 0x460, 8⟩, ⟨.mGX, 0x480, 16⟩, ⟨.mGY, 0x4C0, 16⟩,
   ⟨.tk1, 0x600, 2⟩, ⟨.tk2, 0x608, 2⟩, ⟨.tk3, 0x610, 2⟩, ⟨.tiv, 0x618, 2⟩]

/-- The row an aligned offset lies in; `none` for a reserved offset (10_state.md R32, R67). -/
def regRowAt (off : Nat) : Option RegRow :=
  regMap.find? fun r => decide (r.base ≤ off) && decide (off < r.base + 4 * r.words)

/-- The offset of word `i` of a register (10_state.md R32); `none` past its last word. -/
def regOffset (name : RegName) (i : Nat) : Option Nat :=
  match regMap.find? fun r => decide (r.name = name) with
  | some r => if i < r.words then some (r.base + 4 * i) else none
  | none => none

/-- What the host reads from word `i` of a register (10_state.md R33-R65, R68). -/
def readReg (s : State) : RegName → Nat → Word
  | .id, _ => idValue
  | .version, _ => versionValue
  | .ctrl, _ => ctrlWord s
  | .status, _ => statusWord s
  | .cmd, _ => 0
  | .src, _ => s.io.src
  | .dst, _ => s.io.dst
  | .len, _ => s.io.len
  | .outlen, _ => s.io.outlen
  | .gkey, i => wordOf s.cipher.gkey i
  | .giv, i => wordOf s.cipher.giv i
  | .sbox, i => wordOf s.cipher.sbox i
  | .hsbox, i => wordOf s.hash.hsbox i
  | .hh, i => wordOf s.hash.hh i
  | .hz, i => wordOf s.hash.hz i
  | .hlen, i => wordOf s.hash.bitCount i
  | .hctl, _ => hctlWord s
  | .hbuf, i => wordOf s.hash.hbuf i
  | .eH, i => wordOf s.sign.eH i
  | .eD, i => wordOf s.sign.eD i
  | .eK, i => wordOf s.sign.eK i
  | .eR, i => wordOf s.sign.eR i
  | .eS, i => wordOf s.sign.eS i
  | .eQX, i => wordOf s.sign.eQX i
  | .eQY, i => wordOf s.sign.eQY i
  | .paX, i => wordOf s.point.paX i
  | .paY, i => wordOf s.point.paY i
  | .pbX, i => wordOf s.point.pbX i
  | .pbY, i => wordOf s.point.pbY i
  | .pinf, _ => pinfWord s
  | .mX, i => wordOf s.modu.mX i
  | .mM, i => wordOf s.modu.mM i
  | .mR, i => wordOf s.modu.mR i
  | .mGX, i => wordOf s.modu.mGX i
  | .mGY, i => wordOf s.modu.mGY i
  | .tk1, i => wordOf s.keys.tk1 i
  | .tk2, i => wordOf s.keys.tk2 i
  | .tk3, i => wordOf s.keys.tk3 i
  | .tiv, i => wordOf s.keys.tiv i

/-- A host write to CTRL: SRST = 1 is a soft reset and IE of the same write is ignored; otherwise IE takes bit 0
(10_state.md R35, 70_reset_and_hazards.md R471). -/
def writeCtrl (s : State) (v : Word) : State :=
  if v.getLsbD 1 then s.softReset else { s with ctl := { s.ctl with ie := v.getLsbD 0 } }

/-- A host write to STATUS: a 1 in bit 1 clears DONE, nothing else has an effect (10_state.md R36, R68). -/
def writeStatus (s : State) (v : Word) : State :=
  if v.getLsbD 1 then { s with ctl := { s.ctl with done := false } } else s

/-- A host write to word `i` of a register while BUSY = 0 (10_state.md R33-R68). -/
def writeReg (s : State) (v : Word) : RegName → Nat → State
  | .id, _ => s
  | .version, _ => s
  | .ctrl, _ => writeCtrl s v
  | .status, _ => writeStatus s v
  | .cmd, _ => s.accept v
  | .src, _ => { s with io := { s.io with src := v } }
  | .dst, _ => { s with io := { s.io with dst := v } }
  | .len, _ => { s with io := { s.io with len := v } }
  | .outlen, _ => s
  | .gkey, i => { s with cipher := { s.cipher with gkey := setWord s.cipher.gkey i v } }
  | .giv, i => { s with cipher := { s.cipher with giv := setWord s.cipher.giv i v } }
  | .sbox, i => { s with cipher := { s.cipher with sbox := setWord s.cipher.sbox i v } }
  | .hsbox, i => { s with hash := { s.hash with hsbox := setWord s.hash.hsbox i v } }
  | .hh, i => { s with hash := { s.hash with hh := setWord s.hash.hh i v } }
  | .hz, i => { s with hash := { s.hash with hz := setWord s.hash.hz i v } }
  | .hlen, i => { s with hash := { s.hash with hlen := counterBits (setWord s.hash.bitCount i v) } }
  | .hctl, _ => { s with hash := { s.hash with fin := v.getLsbD 0 } }
  | .hbuf, i => { s with hash := { s.hash with hbuf := setWord s.hash.hbuf i v } }
  | .eH, i => { s with sign := { s.sign with eH := setWord s.sign.eH i v } }
  | .eD, i => { s with sign := { s.sign with eD := setWord s.sign.eD i v } }
  | .eK, i => { s with sign := { s.sign with eK := setWord s.sign.eK i v } }
  | .eR, i => { s with sign := { s.sign with eR := setWord s.sign.eR i v } }
  | .eS, i => { s with sign := { s.sign with eS := setWord s.sign.eS i v } }
  | .eQX, i => { s with sign := { s.sign with eQX := setWord s.sign.eQX i v } }
  | .eQY, i => { s with sign := { s.sign with eQY := setWord s.sign.eQY i v } }
  | .paX, i => { s with point := { s.point with paX := setWord s.point.paX i v } }
  | .paY, i => { s with point := { s.point with paY := setWord s.point.paY i v } }
  | .pbX, i => { s with point := { s.point with pbX := setWord s.point.pbX i v } }
  | .pbY, i => { s with point := { s.point with pbY := setWord s.point.pbY i v } }
  | .pinf, _ => { s with point := { s.point with paInf := v.getLsbD 0, pbInf := v.getLsbD 1 } }
  | .mX, i => { s with modu := { s.modu with mX := setWord s.modu.mX i v } }
  | .mM, i => { s with modu := { s.modu with mM := setWord s.modu.mM i v } }
  | .mR, i => { s with modu := { s.modu with mR := setWord s.modu.mR i v } }
  | .mGX, i => { s with modu := { s.modu with mGX := setWord s.modu.mGX i v } }
  | .mGY, i => { s with modu := { s.modu with mGY := setWord s.modu.mGY i v } }
  | .tk1, i => { s with keys := { s.keys with tk1 := setWord s.keys.tk1 i v } }
  | .tk2, i => { s with keys := { s.keys with tk2 := setWord s.keys.tk2 i v } }
  | .tk3, i => { s with keys := { s.keys with tk3 := setWord s.keys.tk3 i v } }
  | .tiv, i => { s with keys := { s.keys with tiv := setWord s.keys.tiv i v } }

end Sys2Proof.Machine
end

