-- ==== Sys2Proof/Machine/HostBus.lean ====
section
/-! DEFINITION. The host's accesses to the aperture (20_memory.md R100-R103, R110-R113): which offset an address reaches,
what a read returns and what a write does, busy or not, and when the pending command is due
(70_reset_and_hazards.md R480). -/

namespace Sys2Proof.Machine

/-- The aperture offset a host address reaches; `none` outside the aperture (20_memory.md R103). -/
def apertureOffset (addr : Nat) : Option Nat :=
  if Config.gcoreBase ≤ addr ∧ addr < Config.gcoreBase + Config.apertureSize then some (addr - Config.gcoreBase)
  else none

/-- An access the bus contract defines: 32 bits wide and aligned to 4 (20_memory.md R101, R102). -/
def busContract (off width : Nat) : Bool := decide (width = 4) && decide (off % 4 = 0)

/-- The first aperture offset of the DMEM window (20_memory.md R100). -/
def dmemWindow : Nat := 0x1000

/-- An offset below the DMEM window that no row of the register map covers (10_state.md R67). -/
def reservedOffset (off : Nat) : Bool := decide (off < dmemWindow) && (regRowAt off).isNone

/-- The offsets of which a host read is exact while BUSY = 1: ID, VERSION, CTRL and STATUS (20_memory.md R112), and the
reserved offsets, which are no registers and read 0 at all times (10_state.md R67, item U8 of 93_implementation_defined.md). -/
def readableWhileBusy (off : Nat) : Bool :=
  off == 0x000 || off == 0x004 || off == 0x008 || off == 0x00C || reservedOffset off

/-- The only offset a host write reaches while BUSY = 1: CTRL (20_memory.md R112). -/
def writableWhileBusy (off : Nat) : Bool := off == 0x008

/-- A host read of a DMEM word: LE32 of its four bytes, or the fault of a byte that holds no value
(20_memory.md R101, R118). -/
def hostReadDmem (s : State) (off : Nat) : Except Fault Word :=
  match s.dmem.read (off - dmemWindow) 4 with
  | .ok b => .ok (le32 b)
  | .error a => .error (.dmemUnwritten a)

/-- A host read while BUSY = 0, or of an offset that is readable while BUSY: a register word, 0 at a reserved offset
(10_state.md R67), or a DMEM word. -/
def hostReadWord (s : State) (off : Nat) : Except Fault Word :=
  if off < dmemWindow then
    match regRowAt off with
    | some r => .ok (readReg s r.name ((off - r.base) / 4))
    | none => .ok 0
  else hostReadDmem s off

/-- A host write while BUSY = 0, or to CTRL: a register word, nothing at a reserved offset (10_state.md R67), or the four
bytes of a DMEM word (20_memory.md R101). -/
def hostWriteWord (s : State) (off : Nat) (v : Word) : State :=
  if off < dmemWindow then
    match regRowAt off with
    | some r => writeReg s v r.name ((off - r.base) / 4)
    | none => s
  else { s with dmem := s.dmem.write (off - dmemWindow) (toLE32 v) }

/-- The value a host read returned, noted in the model's own record (log entry 1). -/
def State.noteRead (s : State) (addr : Nat) (v : Word) : State :=
  { s with env := { s.env with seen := ⟨addr, v⟩ :: s.env.seen } }

/-- One more free value drawn (log entry 3). -/
def State.draw (s : State) : State := { s with env := { s.env with draws := s.env.draws + 1 } }

/-- A host read of an aperture offset that the bus contract allows. While BUSY = 1 a read of DMEM or of a register
other than ID, VERSION, CTRL and STATUS returns a free value (20_memory.md R112, item U2). -/
def hostReadAccess (s : State) (addr off : Nat) : Host.Outcome State Fault Refusal :=
  if s.busy && !readableWhileBusy off then .next (s.draw.noteRead addr (Config.busyRead s.env.draws))
  else
    match hostReadWord s off with
    | .ok v => .next (s.noteRead addr v)
    | .error f => .fault f

/-- A host write of an aperture offset that the bus contract allows. While BUSY = 1 only a write to CTRL has an effect
(20_memory.md R112). -/
def hostWriteAccess (s : State) (off : Nat) (v : Word) : State :=
  if s.busy && !writableWhileBusy off then s else hostWriteWord s off v

/-- One event from outside. An access outside the aperture is none of GCORE's (item U4); one that breaks the bus contract
is refused (20_memory.md R102). -/
def hostEvent (s : State) : HostEvent → Host.Outcome State Fault Refusal
  | .platformReset => .next s.powerOn
  | .read addr width =>
    match apertureOffset addr with
    | none => .next s
    | some off => if busContract off width then hostReadAccess s addr off else .refused .busContract
  | .write addr width v =>
    match apertureOffset addr with
    | none => .next s
    | some off => if busContract off width then .next (hostWriteAccess s off v) else .refused .busContract

/-- The state with the host's oldest event taken off the queue; `rest` is what remains. A pending command may wait for one
host step less (log entry 2). -/
def State.takeEvent (s : State) (rest : List HostEvent) : State :=
  { s with env := { s.env with todo := rest, delay := s.env.delay - 1 } }

/-- The host's turn: its oldest event, or nothing, and then GCORE is idle and retains its state (20_memory.md R113,
60_exceptions.md R455). -/
def hostTurn (s : State) : Host.Outcome State Fault Refusal :=
  match s.env.todo with
  | [] => .next s
  | ev :: rest => hostEvent (s.takeEvent rest) ev

/-- The command word whose completion step comes next: the pending one, once the host steps drawn at its start have passed
or the host has no step left (70_reset_and_hazards.md R480; log entry 2). -/
def commandDue (s : State) : Option Word :=
  match s.ctl.pending with
  | none => none
  | some w => if s.env.delay = 0 ∨ s.env.todo = [] then some w else none

/-- GCORE as an accepted write of the table word `w` to CMD leaves it, completion next (log entry 7). -/
def startWord (s : State) (nbits w : Nat) : State := s.start (BitVec.ofNat 32 (w % 2 ^ nbits)) 0

end Sys2Proof.Machine
end

