-- ==== Sys2Proof/Machine/Step.lean ====
section
/-! DEFINITION. One step of the machine: the completion of the pending command when it is due, otherwise the host's turn
(10_state.md R30, 30_encoding.md R146, R147, 70_reset_and_hazards.md R480). -/

namespace Sys2Proof.Machine

/-- One step. A due command word is decoded and its command completes; an illegal word completes with IllegalCommand
(30_encoding.md R147). -/
def step (s : State) : Host.Outcome State Fault Refusal :=
  match commandDue s with
  | none => hostTurn s
  | some w =>
    match decode w with
    | .ok i => exec i s
    | .error _ => completeIllegal s

/-- `s` with the table word `w` pending and its completion step next (log entry 7). -/
def State.withFetchWord (s : State) (nbits w : Nat) : State := startWord s nbits w

end Sys2Proof.Machine
end

