-- ==== Sys2Proof/Safety.lean ====
section
/-! DEFINITION. What counts as a consistent state and a safe run, and the terms the statements are written in: when the
machine's next step is a completion or a host access, what a completion leaves, what a region of DMEM holds, and the
point relations of 41_ecpoint.md. None of it is used by the machine. -/

namespace Sys2Proof.Machine

/-- The consistency of STATUS, OUTLEN and DMEM: what every state of a run satisfies. -/
structure State.Consistent (s : State) : Prop where
  /-- DMEM is in canonical form, inside its 4096 bytes (20_memory.md R100). -/
  dmem : s.dmem.wf
  /-- While BUSY = 1, DONE, VOK, ERR and OUTLEN are 0 (30_encoding.md R145, 70_reset_and_hazards.md R482). -/
  busy : s.busy = true → s.ctl.done = false ∧ s.ctl.vok = false ∧ s.ctl.err = 0 ∧ s.io.outlen = 0
  /-- ERR is none of the reserved codes 7..15 (60_exceptions.md R430, item U10 of 93_implementation_defined.md). -/
  err : s.ctl.err.toNat ≤ 6
  /-- VOK = 1 only after a command that did not fail (10_state.md R36). -/
  vok : s.ctl.vok = true → s.ctl.err = 0
  /-- After an error OUTLEN is 0 (60_exceptions.md R432). -/
  failed : s.ctl.err ≠ 0 → s.io.outlen = 0
  /-- OUTLEN counts bytes written to DMEM (10_state.md R41). -/
  outlen : s.io.outlen.toNat ≤ Config.dmemSize

/-- A run of `n` steps from `s` that meets neither a fault nor a refusal. -/
def SafeRun (n : Nat) (s : State) : Prop := ∃ t, Sys2Proof.core.run n s = .next t

/-! ## What the next step is -/

/-- The next step is the completion of the pending word `w` (70_reset_and_hazards.md R480). -/
def CompletionDue (s : State) (w : Word) : Prop := s.ctl.pending = some w ∧ (s.env.delay = 0 ∨ s.env.todo = [])

/-- The next step is the host's event `ev`, after which `rest` remains: no command is pending, or its completion may still
wait (70_reset_and_hazards.md R480). -/
def HostMoves (s : State) (ev : HostEvent) (rest : List HostEvent) : Prop :=
  s.env.todo = ev :: rest ∧ (s.ctl.pending = none ∨ s.env.delay ≠ 0)

/-- The state when the host's event has been taken and nothing else has happened. -/
def afterHost (s : State) (rest : List HostEvent) : State :=
  { s with env := { s.env with todo := rest, delay := s.env.delay - 1 } }

/-- The state when the host has read the value `v` at `addr` and nothing else has happened. -/
def afterRead (s : State) (rest : List HostEvent) (addr : Nat) (v : Word) : State :=
  { s with env := { s.env with todo := rest, delay := s.env.delay - 1, seen := ⟨addr, v⟩ :: s.env.seen } }

/-- The host address of an aperture offset (20_memory.md R103). -/
def addressOf (off : Nat) : Nat := Config.gcoreBase + off

/-- An address inside the aperture: the 8192 bytes from GCORE_BASE (20_memory.md R103). -/
def InAperture (addr : Nat) : Prop := Config.gcoreBase ≤ addr ∧ addr < Config.gcoreBase + 8192

/-- An event that keeps the bus contract (20_memory.md R102) and resets nothing (70_reset_and_hazards.md R470, R471). -/
def KeepsPending : HostEvent → Prop
  | .platformReset => False
  | .read addr width => InAperture addr → width = 4 ∧ (addr - Config.gcoreBase) % 4 = 0
  | .write addr width v =>
    InAperture addr → width = 4 ∧ (addr - Config.gcoreBase) % 4 = 0 ∧ ¬(addr = addressOf 0x008 ∧ v.getLsbD 1 = true)

/-! ## What a completion leaves -/

/-- The state a completion without error leaves, for the state with the command's writes applied: nothing is pending, so
BUSY is 0, and DONE is 1 (30_encoding.md R146). -/
def completed (t : State) : State := { t with ctl := { t.ctl with pending := none, done := true } }

/-- The state a completion with an error leaves: ERR holds the code, nothing is pending, so BUSY is 0, DONE is 1, and
nothing else changes (60_exceptions.md R432). -/
def failed (s : State) (code : BitVec 4) : State :=
  { s with ctl := { s.ctl with err := code, pending := none, done := true } }

/-! ## Regions of DMEM -/

/-- Every byte of the region (off, n) holds a value (20_memory.md R118). -/
def Readable (s : State) (off n : Nat) : Prop := ∀ a, off ≤ a → a < off + n → (s.dmem.byteAt a).isSome = true

/-- The byte string of the region (off, n) (20_memory.md R105). -/
def regionBytes (s : State) (off n : Nat) : Bytes := (List.range n).map fun j => (s.dmem.byteAt (off + j)).getD 0

/-- `t` is `base`, but that DMEM holds `out` from offset `off` on; every other byte is as in `base` (20_memory.md R105). -/
def StoredFrom (base t : State) (off : Nat) (out : Bytes) : Prop :=
  t = { base with dmem := t.dmem } ∧
  ∀ a, t.dmem.byteAt a = if off ≤ a ∧ a < off + out.length then out[a - off]? else base.dmem.byteAt a

/-- Byte `k` of a byte-string register: its bits 8k+7:8k (10_state.md R52). -/
def byteOf {n : Nat} (v : BitVec n) (k : Nat) : Byte := v.extractLsb' (8 * k) 8

/-! ## The extended Euclidean algorithm (40_modarith.md R205) -/

/-- `Euclid r0 r1 s0 s1 t0 t1 d x y`: the loop of R205 with its variables as they are returns (d, x, y). -/
inductive Euclid : Nat → Nat → Int → Int → Int → Int → Nat → Int → Int → Prop
  | done (r0 : Nat) (s0 s1 t0 t1 : Int) : Euclid r0 0 s0 s1 t0 t1 r0 s0 t0
  | round (r0 r1 qq d : Nat) (s0 s1 t0 t1 x y : Int) (more : r1 ≠ 0) (hq : qq = r0 / r1)
      (rest : Euclid r1 (r0 - qq * r1) s1 (s0 - qq * s1) t1 (t0 - qq * t1) d x y) : Euclid r0 r1 s0 s1 t0 t1 d x y

/-! ## Points (41_ecpoint.md) -/

/-- A point operand: ∞ when its tag is 1, otherwise the coordinates (41_ecpoint.md R232). -/
def operandPoint (inf : Bool) (x y : U256) : Point := if inf then .infinity else .affine x.toNat y.toNat

/-- PA holds the point result: ∞ as the tag with coordinates 0 (41_ecpoint.md R232). -/
def withPointA (s : State) : Point → State
  | .infinity => { s with point := { s.point with paX := 0, paY := 0, paInf := true } }
  | .affine x y =>
    { s with point := { s.point with paX := BitVec.ofNat 256 x, paY := BitVec.ofNat 256 y, paInf := false } }

/-- A point with its coordinates reduced modulo p (41_ecpoint.md R231). -/
def fieldPoint : Point → Point
  | .infinity => .infinity
  | .affine x y => .affine (x % curveP) (y % curveP)

/-- `PointSum P1 P2 R`: R is the sum by the cases of 41_ecpoint.md R233, in their order. `l` is the slope λ. -/
inductive PointSum : Point → Point → Point → Prop
  | infinityLeft (P : Point) : PointSum .infinity P (fieldPoint P)
  | infinityRight (x y : Nat) : PointSum (.affine x y) .infinity (fieldPoint (.affine x y))
  | opposite (x1 y1 x2 y2 : Nat) (h : (y1 + y2) % curveP = 0) : PointSum (.affine x1 y1) (.affine x2 y2) .infinity
  | chord (x1 y1 x2 y2 x3 y3 : Nat) (l : Int) (hy : (y1 + y2) % curveP ≠ 0) (hx : x1 % curveP ≠ x2 % curveP)
      (hl : l * ((x2 : Int) - x1) ≡ (y2 : Int) - y1 [ZMOD curveP])
      (h3 : (x3 : Int) ≡ l ^ 2 - x1 - x2 [ZMOD curveP]) (b3 : x3 < curveP)
      (k3 : (y3 : Int) ≡ l * ((x1 : Int) - x3) - y1 [ZMOD curveP]) (c3 : y3 < curveP) :
      PointSum (.affine x1 y1) (.affine x2 y2) (.affine x3 y3)
  | tangent (x1 y1 x2 y2 x3 y3 : Nat) (l : Int) (hy : (y1 + y2) % curveP ≠ 0) (hx : x1 % curveP = x2 % curveP)
      (hl : l * (2 * (y1 : Int)) ≡ 3 * (x1 : Int) ^ 2 + curveA [ZMOD curveP])
      (h3 : (x3 : Int) ≡ l ^ 2 - 2 * x1 [ZMOD curveP]) (b3 : x3 < curveP)
      (k3 : (y3 : Int) ≡ l * ((x1 : Int) - x3) - y1 [ZMOD curveP]) (c3 : y3 < curveP) (hinv : (2 * y1) % curveP ≠ 0) :
      PointSum (.affine x1 y1) (.affine x2 y2) (.affine x3 y3)

/-- The operands for which the sum raises InvalidParameter: the doubling with 2·y1 ≡ 0 (41_ecpoint.md R233). -/
def SumRaises (P1 P2 : Point) : Prop :=
  ∃ x1 y1 x2 y2, P1 = .affine x1 y1 ∧ P2 = .affine x2 y2 ∧ (y1 + y2) % curveP ≠ 0 ∧ x1 % curveP = x2 % curveP ∧
    (2 * y1) % curveP = 0

/-- `DoubleAndAdd k R A S`: the right-to-left loop of 41_ecpoint.md R234 with k, R and A as they are ends with R = S. -/
inductive DoubleAndAdd : Nat → Point → Point → Point → Prop
  | stop (R A : Point) : DoubleAndAdd 0 R A R
  | add (k : Nat) (R A R' A' S : Point) (odd : k % 2 = 1) (hR : PointSum R A R') (hA : PointSum A A A')
      (rest : DoubleAndAdd (k / 2) R' A' S) : DoubleAndAdd k R A S
  | skip (k : Nat) (R A A' S : Point) (pos : 0 < k) (even : k % 2 = 0) (hA : PointSum A A A')
      (rest : DoubleAndAdd (k / 2) R A' S) : DoubleAndAdd k R A S

/-! ## Tables of the spec -/

/-- The reset value of word `i` of a register (10_state.md R33, R34, R44, R45, R72). -/
def resetWord : RegName → Nat → Word
  | .id, _ => 0x47434F52
  | .version, _ => 0x00010007
  | .sbox, i | .hsbox, i =>
    [0xE08D29A4, 0x35F7C1B6, 0xAFD6C4BE, 0x95701832, 0x243AD185, 0xB9067CFE, 0xF9801AD7, 0x352BC64E,
     0x8DF517C6, 0x2B30E9A4, 0xD1270AB4, 0xEFC95863, 0x95F314BD, 0xC2867EA0, 0x4A750DF1, 0xC8B6E329].getD i 0
  | _, _ => 0

/-- The host reads the register value `v` at the `n` words from `base` on: word j is bits 32j+31:32j (10_state.md R51). -/
def HoldsWords {m : Nat} (s : State) (base n : Nat) (v : BitVec m) : Prop :=
  ∀ j < n, hostReadWord s (base + 4 * j) = .ok (v.extractLsb' (32 * j) 32)

/-- The offsets of the register words of which every bit is writable: SRC, DST and LEN; GKEY and GIV; SBOX, HSBOX, HH and
HZ; HBUF; E_H to PB_Y; M_X to M_GY; TK1 to TIV (10_state.md R32). -/
def PlainOffset (off : Nat) : Prop :=
  off % 4 = 0 ∧
    (0x014 ≤ off ∧ off ≤ 0x01C ∨ 0x040 ≤ off ∧ off ≤ 0x064 ∨ 0x080 ≤ off ∧ off ≤ 0x13C ∨ 0x160 ≤ off ∧ off ≤ 0x17C ∨
     0x200 ≤ off ∧ off ≤ 0x35C ∨ 0x400 ≤ off ∧ off ≤ 0x4FC ∨ 0x600 ≤ off ∧ off ≤ 0x61C)

/-- The reserved register offsets (10_state.md R67). -/
def ReservedOffset (off : Nat) : Prop :=
  off % 4 = 0 ∧
    (0x024 ≤ off ∧ off ≤ 0x03C ∨ 0x068 ≤ off ∧ off ≤ 0x07C ∨ 0x14C ≤ off ∧ off ≤ 0x15C ∨ 0x180 ≤ off ∧ off ≤ 0x1FC ∨
     0x364 ≤ off ∧ off ≤ 0x3FC ∨ 0x500 ≤ off ∧ off ≤ 0x5FC ∨ 0x620 ≤ off ∧ off ≤ 0xFFC)

/-- The base point G (41_ecpoint.md R230). -/
def pointG : Point :=
  .affine 2 4018974056539037503335449422937059775635739389905545080690979365213431566280

/-- The rows S1..S8 of the default S-box set (42_gost89.md R262). -/
def defaultRows : List (List (BitVec 4)) :=
  [[0x4, 0xA, 0x9, 0x2, 0xD, 0x8, 0x0, 0xE, 0x6, 0xB, 0x1, 0xC, 0x7, 0xF, 0x5, 0x3],
   [0xE, 0xB, 0x4, 0xC, 0x6, 0xD, 0xF, 0xA, 0x2, 0x3, 0x8, 0x1, 0x0, 0x7, 0x5, 0x9],
   [0x5, 0x8, 0x1, 0xD, 0xA, 0x3, 0x4, 0x2, 0xE, 0xF, 0xC, 0x7, 0x6, 0x0, 0x9, 0xB],
   [0x7, 0xD, 0xA, 0x1, 0x0, 0x8, 0x9, 0xF, 0xE, 0x4, 0x6, 0xC, 0xB, 0x2, 0x5, 0x3],
   [0x6, 0xC, 0x7, 0x1, 0x5, 0xF, 0xD, 0x8, 0x4, 0xA, 0x9, 0xE, 0x0, 0x3, 0xB, 0x2],
   [0x4, 0xB, 0xA, 0x0, 0x7, 0x2, 0x1, 0xD, 0x3, 0x6, 0x8, 0x5, 0x9, 0xC, 0xF, 0xE],
   [0xD, 0xB, 0x4, 0x1, 0x3, 0xF, 0x5, 0x9, 0x0, 0xA, 0xE, 0x7, 0x6, 0x8, 0x2, 0xC],
   [0x1, 0xF, 0xD, 0x0, 0x5, 0x7, 0xA, 0x4, 0x9, 0x2, 0x3, 0xE, 0x6, 0xB, 0x8, 0xC]]

/-- One pre-shifted table of the source: entry x is S_hi[x >> 4] above S_lo[x & 15], at bit `sh` (42_gost89.md R264). -/
def fusedTable (S : SboxSet) (hi lo sh : Nat) (x : Byte) : Word :=
  ((sboxEntry S hi (x.toNat / 16)).setWidth 32 <<< 4 ||| (sboxEntry S lo (x.toNat % 16)).setWidth 32) <<< sh

/-- One round: the half that comes next, and the other one kept (42_gost89.md R265). -/
def feistelRound (S : SboxSet) (K : U256) (p : Word × Word) (j : Nat) : Word × Word :=
  (p.2 ^^^ roundF S (p.1 + wordOf K j), p.1)

/-- The constant C2, by its words (43_gost3411.md R303). -/
def constantC2 : Bytes :=
  [0xFF00FF00, 0xFF00FF00, 0x00FF00FF, 0x00FF00FF, 0x00FFFF00, 0xFF0000FF, 0x000000FF, 0xFF00FFFF].flatMap toLE32

/-! ## DES by its bits (45_tdes.md R370-R375) -/

/-- Bit `t` of an n-bit value, counted from 1 at its most significant end (45_tdes.md R370). -/
def bitFrom1 {n : Nat} (v : BitVec n) (t : Nat) : Bool := v.getLsbD (n - t)

/-- Bit `t` of a DES block or key: bit 7 - ((t - 1) mod 8) of byte (t - 1) div 8 (45_tdes.md R370). -/
def desBitOf (x : Bytes) (t : Nat) : Bool := (x.getD ((t - 1) / 8) 0).getLsbD (7 - (t - 1) % 8)

/-- Where bit `p` of {C, D} stood before both halves were rotated left by `r` in all (45_tdes.md R373). -/
def rotatedFrom (r p : Nat) : Nat := if p ≤ 28 then (p - 1 + r) % 28 + 1 else (p - 29 + r) % 28 + 29

/-- IP (45_tdes.md R371). -/
def tableIP : List Nat :=
  [58, 50, 42, 34, 26, 18, 10,  2,
   60, 52, 44, 36, 28, 20, 12,  4,
   62, 54, 46, 38, 30, 22, 14,  6,
   64, 56, 48, 40, 32, 24, 16,  8,
   57, 49, 41, 33, 25, 17,  9,  1,
   59, 51, 43, 35, 27, 19, 11,  3,
   61, 53, 45, 37, 29, 21, 13,  5,
   63, 55, 47, 39, 31, 23, 15,  7]

/-- FP (45_tdes.md R371). -/
def tableFP : List Nat :=
  [40,  8, 48, 16, 56, 24, 64, 32,
   39,  7, 47, 15, 55, 23, 63, 31,
   38,  6, 46, 14, 54, 22, 62, 30,
   37,  5, 45, 13, 53, 21, 61, 29,
   36,  4, 44, 12, 52, 20, 60, 28,
   35,  3, 43, 11, 51, 19, 59, 27,
   34,  2, 42, 10, 50, 18, 58, 26,
   33,  1, 41,  9, 49, 17, 57, 25]

/-- E (45_tdes.md R371). -/
def tableE : List Nat :=
  [32,  1,  2,  3,  4,  5,
    4,  5,  6,  7,  8,  9,
    8,  9, 10, 11, 12, 13,
   12, 13, 14, 15, 16, 17,
   16, 17, 18, 19, 20, 21,
   20, 21, 22, 23, 24, 25,
   24, 25, 26, 27, 28, 29,
   28, 29, 30, 31, 32,  1]

/-- P (45_tdes.md R371). -/
def tableP : List Nat :=
  [16,  7, 20, 21, 29, 12, 28, 17,
    1, 15, 23, 26,  5, 18, 31, 10,
    2,  8, 24, 14, 32, 27,  3,  9,
   19, 13, 30,  6, 22, 11,  4, 25]

/-- PC1 (45_tdes.md R371). -/
def tablePC1 : List Nat :=
  [57, 49, 41, 33, 25, 17,  9,
    1, 58, 50, 42, 34, 26, 18,
   10,  2, 59, 51, 43, 35, 27,
   19, 11,  3, 60, 52, 44, 36,
   63, 55, 47, 39, 31, 23, 15,
    7, 62, 54, 46, 38, 30, 22,
   14,  6, 61, 53, 45, 37, 29,
   21, 13,  5, 28, 20, 12,  4]

/-- PC2 (45_tdes.md R371). -/
def tablePC2 : List Nat :=
  [14, 17, 11, 24,  1,  5,
    3, 28, 15,  6, 21, 10,
   23, 19, 12,  4, 26,  8,
   16,  7, 27, 20, 13,  2,
   41, 52, 31, 37, 47, 55,
   30, 40, 51, 45, 33, 48,
   44, 49, 39, 56, 34, 53,
   46, 42, 50, 36, 29, 32]

/-- The left rotations of rounds 1..16 (45_tdes.md R371). -/
def tableShifts : List Nat := [1, 1, 2, 2, 2, 2, 2, 2, 1, 2, 2, 2, 2, 2, 2, 1]

/-- The S-boxes S1..S8, row after row (45_tdes.md R372). -/
def tableS : List (List Nat) :=
  [[14,  4, 13,  1,  2, 15, 11,  8,  3, 10,  6, 12,  5,  9,  0,  7,
     0, 15,  7,  4, 14,  2, 13,  1, 10,  6, 12, 11,  9,  5,  3,  8,
     4,  1, 14,  8, 13,  6,  2, 11, 15, 12,  9,  7,  3, 10,  5,  0,
    15, 12,  8,  2,  4,  9,  1,  7,  5, 11,  3, 14, 10,  0,  6, 13],
   [15,  1,  8, 14,  6, 11,  3,  4,  9,  7,  2, 13, 12,  0,  5, 10,
     3, 13,  4,  7, 15,  2,  8, 14, 12,  0,  1, 10,  6,  9, 11,  5,
     0, 14,  7, 11, 10,  4, 13,  1,  5,  8, 12,  6,  9,  3,  2, 15,
    13,  8, 10,  1,  3, 15,  4,  2, 11,  6,  7, 12,  0,  5, 14,  9],
   [10,  0,  9, 14,  6,  3, 15,  5,  1, 13, 12,  7, 11,  4,  2,  8,
    13,  7,  0,  9,  3,  4,  6, 10,  2,  8,  5, 14, 12, 11, 15,  1,
    13,  6,  4,  9,  8, 15,  3,  0, 11,  1,  2, 12,  5, 10, 14,  7,
     1, 10, 13,  0,  6,  9,  8,  7,  4, 15, 14,  3, 11,  5,  2, 12],
   [ 7, 13, 14,  3,  0,  6,  9, 10,  1,  2,  8,  5, 11, 12,  4, 15,
    13,  8, 11,  5,  6, 15,  0,  3,  4,  7,  2, 12,  1, 10, 14,  9,
    10,  6,  9,  0, 12, 11,  7, 13, 15,  1,  3, 14,  5,  2,  8,  4,
     3, 15,  0,  6, 10,  1, 13,  8,  9,  4,  5, 11, 12,  7,  2, 14],
   [ 2, 12,  4,  1,  7, 10, 11,  6,  8,  5,  3, 15, 13,  0, 14,  9,
    14, 11,  2, 12,  4,  7, 13,  1,  5,  0, 15, 10,  3,  9,  8,  6,
     4,  2,  1, 11, 10, 13,  7,  8, 15,  9, 12,  5,  6,  3,  0, 14,
    11,  8, 12,  7,  1, 14,  2, 13,  6, 15,  0,  9, 10,  4,  5,  3],
   [12,  1, 10, 15,  9,  2,  6,  8,  0, 13,  3,  4, 14,  7,  5, 11,
    10, 15,  4,  2,  7, 12,  9,  5,  6,  1, 13, 14,  0, 11,  3,  8,
     9, 14, 15,  5,  2,  8, 12,  3,  7,  0,  4, 10,  1, 13, 11,  6,
     4,  3,  2, 12,  9,  5, 15, 10, 11, 14,  1,  7,  6,  0,  8, 13],
   [ 4, 11,  2, 14, 15,  0,  8, 13,  3, 12,  9,  7,  5, 10,  6,  1,
    13,  0, 11,  7,  4,  9,  1, 10, 14,  3,  5, 12,  2, 15,  8,  6,
     1,  4, 11, 13, 12,  3,  7, 14, 10, 15,  6,  8,  0,  5,  9,  2,
     6, 11, 13,  8,  1,  4, 10,  7,  9,  5,  0, 15, 14,  2,  3, 12],
   [13,  2,  8,  4,  6, 15, 11,  1, 10,  9,  3, 14,  5,  0, 12,  7,
     1, 15, 13,  8, 10,  3,  7,  4, 12,  5,  6, 11,  0, 14,  9,  2,
     7, 11,  4,  1,  9, 12, 14,  2,  0,  6, 10, 13, 15,  3,  5,  8,
     2,  1, 14,  7,  4, 10,  8, 13, 15, 12,  9,  0,  3,  5,  6, 11]]

end Sys2Proof.Machine
end

