-- ==== Sys2Proof/Certificates/Slice0/Obligations.lean ====
section
/-! DEFINITION. The statements for the provers. Each docstring names the rules it comes from. `completed`, `failed`,
`Readable`, `regionBytes`, `StoredFrom`, `HostMoves` and `CompletionDue` are those of Sys2Proof/Safety.lean. A command's
statement that ends in an equation with `completed`, or in `StoredFrom`, is its completion statement and its frame at once:
every register, tag and byte the equation does not name is as before. How the host's accesses queue and when a completion
comes due are the model's own (log entries 1, 2, 14); the statements say what happens when they do. -/

open Sys2Proof Sys2Proof.Machine

/-! ## Encoding -/

/-- Words of R142, one or more of every unit, decode to their commands (30_encoding.md R142). -/
def Obligations.KnownWordsDecode : Prop :=
  decode 0x00000000 = .ok .nop ∧ decode 0x00000010 = .ok .gKeyload ∧ decode 0x00000014 = .ok (.gGamma false) ∧
  decode 0x00000114 = .ok (.gGamma true) ∧ decode 0x00000120 = .ok (.hInit true) ∧ decode 0x00000023 = .ok .hStep ∧
  decode 0x00000031 = .ok .ePmul ∧ decode 0x00000034 = .ok .eVerify ∧ decode 0x00000042 = .ok .mEgcd ∧
  decode 0x00000052 = .ok .tFrmdec

/-- Decoder and encoder agree: a word decodes to a command exactly when it is that command's word, so every well-formed
command comes back from its word and no word has two meanings (30_encoding.md R142, R143). -/
def Obligations.DecodeInvertsEncode : Prop :=
  (∀ i : Instr, i.wf = true → decode (encode i) = .ok i) ∧ ∀ (w : Word) (i : Instr), decode w = .ok i → w = encode i

/-- A word R142 does not list: an OP value not in the table, RES ≠ 0, or F = 1 where the operation defines no F. Its
completion raises IllegalCommand (code 5) and changes nothing else; every other word decodes (30_encoding.md R143). -/
def Obligations.IllegalWordsRaise : Prop :=
  (∀ w : Word, (∃ i, decode w = .ok i) ↔
    ¬((0x01 ≤ w.toNat % 256 ∧ w.toNat % 256 ≤ 0x0F) ∨ (0x15 ≤ w.toNat % 256 ∧ w.toNat % 256 ≤ 0x1F) ∨
      (0x24 ≤ w.toNat % 256 ∧ w.toNat % 256 ≤ 0x2F) ∨ (0x35 ≤ w.toNat % 256 ∧ w.toNat % 256 ≤ 0x3F) ∨
      (0x43 ≤ w.toNat % 256 ∧ w.toNat % 256 ≤ 0x4F) ∨ 0x53 ≤ w.toNat % 256 ∨ w.toNat / 512 ≠ 0 ∨
      (w.toNat / 256 % 2 = 1 ∧ w.toNat % 256 ≠ 0x14 ∧ w.toNat % 256 ≠ 0x20))) ∧
  ∀ (s : State) (w : Word), CompletionDue s w → (¬∃ i, decode w = .ok i) → step s = .next (failed s 5)

/-! ## Command life cycle -/

/-- A step runs the decoded command: when the pending word is due and decodes to `i`, the step is `exec i`
(30_encoding.md R146, R147). -/
def Obligations.StepRunsTheDecodedCommand : Prop :=
  ∀ (s : State) (w : Word) (i : Instr), CompletionDue s w → decode w = .ok i → step s = exec i s

/-- A write of any word w to CMD while BUSY = 0 starts a command: DONE, ERR, VOK and OUTLEN become 0 and w is pending, so
BUSY is 1; a write to CMD while BUSY = 1 is ignored. Only the model's own record changes besides (30_encoding.md R145). -/
def Obligations.CmdWriteStarts : Prop :=
  ∀ (s : State) (w : Word) (rest : List HostEvent), HostMoves s (.write (addressOf 0x010) 4 w) rest →
    (s.ctl.pending = none →
      ∃ t, step s = .next t ∧ t.busy = true ∧ t.env.todo = rest ∧
        t = { s with ctl := { ie := s.ctl.ie, done := false, vok := false, err := 0, pending := some w }
                     io := { s.io with outlen := 0 }, env := t.env }) ∧
    (s.ctl.pending ≠ none → step s = .next (afterHost s rest))

/-- An error is precise: a completion from a state the start left (ERR, VOK and OUTLEN 0) that ends with an error code
changes nothing but ERR, BUSY and DONE; the code is one of 1..6 and VOK and OUTLEN stay 0 (60_exceptions.md R432). -/
def Obligations.ErrorsArePrecise : Prop :=
  ∀ (s t : State) (w : Word), CompletionDue s w → s.ctl.err = 0 → s.ctl.vok = false → s.io.outlen = 0 →
    step s = .next t → t.ctl.err ≠ 0 →
      t = failed s t.ctl.err ∧ t.busy = false ∧ t.ctl.done = true ∧ t.ctl.vok = false ∧ t.io.outlen = 0 ∧
      1 ≤ t.ctl.err.toNat ∧ t.ctl.err.toNat ≤ 6

/-- No command writes anything outside its row of the operand table (the writes column of 30_encoding.md R144), STATUS
apart, so SRC, DST and LEN are never written (10_state.md R38-R40); DMEM changes only inside the output region, whose
length OUTLEN gives; every completion leaves nothing pending and DONE = 1 and keeps IE (30_encoding.md R146). -/
def Obligations.CommandsWriteOnlyTheirTargets : Prop :=
  ∀ s t : State,
    (exec .nop s = .next t → t = { s with ctl := t.ctl }) ∧
    (exec .gKeyload s = .next t → t = { s with ctl := t.ctl, cipher := { s.cipher with gkey := t.cipher.gkey } }) ∧
    (exec .gSboxdef s = .next t → t = { s with ctl := t.ctl, cipher := { s.cipher with sbox := t.cipher.sbox } }) ∧
    (∀ i ∈ [Instr.gEcbenc, .gEcbdec, .tFrmenc, .tFrmdec], exec i s = .next t →
      t = { s with ctl := t.ctl, io := { s.io with outlen := t.io.outlen }, dmem := t.dmem }) ∧
    (∀ first, exec (.gGamma first) s = .next t →
      t = { s with ctl := t.ctl, io := { s.io with outlen := t.io.outlen }, dmem := t.dmem
                   cipher := { s.cipher with giv := t.cipher.giv } }) ∧
    (∀ copy, exec (.hInit copy) s = .next t → t = { s with ctl := t.ctl, hash := t.hash }) ∧
    (exec .hUpdate s = .next t →
      t = { s with ctl := t.ctl, hash := { t.hash with hsbox := s.hash.hsbox, fin := s.hash.fin } }) ∧
    (exec .hFinal s = .next t →
      t = { s with ctl := t.ctl, io := { s.io with outlen := t.io.outlen }, dmem := t.dmem
                   hash := { t.hash with hsbox := s.hash.hsbox, hlen := s.hash.hlen }
                   sign := { s.sign with eH := t.sign.eH } }) ∧
    (exec .hStep s = .next t → t = { s with ctl := t.ctl, hash := { s.hash with hh := t.hash.hh } }) ∧
    (∀ i ∈ [Instr.ePadd, .ePmul], exec i s = .next t →
      t = { s with ctl := t.ctl
                   point := { s.point with paX := t.point.paX, paY := t.point.paY, paInf := t.point.paInf } }) ∧
    (exec .eKeygen s = .next t →
      t = { s with ctl := t.ctl, sign := { s.sign with eQX := t.sign.eQX, eQY := t.sign.eQY } }) ∧
    (exec .eSign s = .next t → t = { s with ctl := t.ctl, sign := { s.sign with eR := t.sign.eR, eS := t.sign.eS } }) ∧
    (exec .eVerify s = .next t → t = { s with ctl := t.ctl }) ∧
    (∀ i ∈ [Instr.mMod, .mInv], exec i s = .next t →
      t = { s with ctl := t.ctl, modu := { s.modu with mR := t.modu.mR } }) ∧
    (exec .mEgcd s = .next t →
      t = { s with ctl := t.ctl, modu := { s.modu with mR := t.modu.mR, mGX := t.modu.mGX, mGY := t.modu.mGY } }) ∧
    (exec .tKeyload s = .next t → t = { s with ctl := t.ctl, keys := t.keys }) ∧
    (∀ i, exec i s = .next t →
      t.ctl = { s.ctl with vok := t.ctl.vok, err := t.ctl.err, pending := none, done := true } ∧
      (i ≠ .eVerify → t.ctl.vok = s.ctl.vok)) ∧
    (∀ i, exec i s = .next t → ∀ a, ¬(s.dstOff ≤ a ∧ a < s.dstOff + t.io.outlen.toNat) →
      t.dmem.byteAt a = s.dmem.byteAt a)

/-- A command never refuses, and it faults only on a byte of its input region that holds no value: of the LEN bytes at SRC
for G_ECBENC, G_ECBDEC, G_GAMMA, H_UPDATE, T_FRMENC and T_FRMDEC, of the 32 bytes at SRC for G_KEYLOAD, H_STEP and
T_KEYLOAD; no other command faults (20_memory.md R107, R118; 30_encoding.md R144). That the fault names the first such
byte of the region is the model's (log entry 4). -/
def Obligations.CommandsFaultOnlyOnUnwrittenInput : Prop :=
  ∀ (i : Instr) (s : State),
    (∀ r, exec i s ≠ .refused r) ∧
    ∀ f, exec i s = .fault f →
      ∃ a n, f = .dmemUnwritten a ∧ s.srcOff ≤ a ∧ a < s.srcOff + n ∧ a < 4096 ∧
        (n = s.lenBytes ∧ i ∈ [Instr.gEcbenc, .gEcbdec, .gGamma false, .gGamma true, .hUpdate, .tFrmenc, .tFrmdec] ∨
          n = 32 ∧ i ∈ [Instr.gKeyload, .hStep, .tKeyload]) ∧
        s.dmem.byteAt a = none ∧ Readable s s.srcOff (a - s.srcOff)

/-- After power-on no DMEM byte holds a value; a host read of a word, or the input region of a command whose checks pass,
faults when a byte of it holds none; a soft reset keeps DMEM (20_memory.md R118). That the fault names the first such byte,
and that it comes after the command's earlier checks, is the model's (log entry 4). -/
def Obligations.UnwrittenDmemFaults : Prop :=
  (∀ a, State.reset.dmem.byteAt a = none) ∧
  (∀ (s : State) (rest : List HostEvent), HostMoves s .platformReset rest →
    ∃ t, step s = .next t ∧ ∀ a, t.dmem.byteAt a = none) ∧
  (∀ (s : State) (v : Word) (rest : List HostEvent), HostMoves s (.write (addressOf 0x008) 4 v) rest →
    v.getLsbD 1 = true → ∃ t, step s = .next t ∧ t.dmem = s.dmem) ∧
  (∀ (s : State) (rest : List HostEvent) (k j : Nat), s.ctl.pending = none → k < 1024 → j < 4 →
    HostMoves s (.read (addressOf (0x1000 + 4 * k)) 4) rest → Readable s (4 * k) j → s.dmem.byteAt (4 * k + j) = none →
    step s = .fault (.dmemUnwritten (4 * k + j))) ∧
  (∀ (s : State) (j : Nat), Readable s s.srcOff j → s.dmem.byteAt (s.srcOff + j) = none →
    (j < 32 → s.srcOff + 32 ≤ 4096 →
      ∀ i ∈ [Instr.gKeyload, .hStep, .tKeyload], exec i s = .fault (.dmemUnwritten (s.srcOff + j))) ∧
    (j < s.lenBytes → s.srcOff + s.lenBytes ≤ 4096 →
      (s.lenBytes % 8 = 0 → s.dstOff + s.lenBytes ≤ 4096 →
        ∀ i ∈ [Instr.gEcbenc, .gEcbdec], exec i s = .fault (.dmemUnwritten (s.srcOff + j))) ∧
      (s.dstOff + s.lenBytes ≤ 4096 → ∀ first, exec (.gGamma first) s = .fault (.dmemUnwritten (s.srcOff + j))) ∧
      (s.hash.fin = false → exec .hUpdate s = .fault (.dmemUnwritten (s.srcOff + j))) ∧
      (s.dstOff + (s.lenBytes + 16 - s.lenBytes % 8) ≤ 4096 →
        exec .tFrmenc s = .fault (.dmemUnwritten (s.srcOff + j))) ∧
      (s.lenBytes % 8 = 0 → exec .tFrmdec s = .fault (.dmemUnwritten (s.srcOff + j)))))

/-- A pending command comes due after finitely many host events, at most as many as were drawn at its start, whatever
they are short of a reset or a breach of the bus contract; until then only IE and the model's own record can change
(70_reset_and_hazards.md R480; the bound is log entry 2's). -/
def Obligations.PendingCommandComesDue : Prop :=
  ∀ (s : State) (w : Word), s.ctl.pending = some w → (∀ ev ∈ s.env.todo, KeepsPending ev) →
    ∃ n ≤ s.env.delay, ∃ u : State, Sys2Proof.core.run n s = .next u ∧ CompletionDue u w ∧
      u = { s with ctl := { s.ctl with ie := u.ctl.ie }, env := u.env }

/-- Every step keeps STATUS, OUTLEN and DMEM consistent, from every consistent state (20_memory.md R100; 30_encoding.md
R145, R146; 60_exceptions.md R430, R432). -/
def Obligations.StepKeepsConsistent : Prop :=
  ∀ s t : State, s.Consistent → step s = .next t → t.Consistent

/-- The state after reset is consistent (70_reset_and_hazards.md R470). -/
def Obligations.ResetIsConsistent : Prop := State.reset.Consistent

/-! ## Reset -/

/-- Power-on reset: every register word holds its reset value, nothing is pending, IRQ is 0 and no DMEM byte holds a value,
in the initial state and after the platform's reset (70_reset_and_hazards.md R470). The model's own record is kept
(log entry 14). -/
def Obligations.PowerOnReset : Prop :=
  (∀ r ∈ regMap, ∀ i < r.words, readReg State.reset r.name i = resetWord r.name i) ∧ State.reset.ctl.pending = none ∧
  State.reset.irq = false ∧ (∀ a, State.reset.dmem.byteAt a = none) ∧
  ∀ (s : State) (rest : List HostEvent), HostMoves s .platformReset rest →
    ∃ t, step s = .next t ∧ t = { State.reset with env := (afterHost s rest).env }

/-- Soft reset: a write to CTRL with SRST = 1, busy or not, gives every register its reset value whatever bit 0 says,
abandons the pending command and keeps every DMEM byte (70_reset_and_hazards.md R471). That the model's own record goes on
with the host's next access is the model's choice (log entry 14). -/
def Obligations.SoftReset : Prop :=
  ∀ (s : State) (v : Word) (rest : List HostEvent), HostMoves s (.write (addressOf 0x008) 4 v) rest →
    v.getLsbD 1 = true →
    ∃ t, step s = .next t ∧ (∀ r ∈ regMap, ∀ i < r.words, readReg t r.name i = resetWord r.name i) ∧
      t.ctl.pending = none ∧ t.irq = false ∧ t.dmem = s.dmem ∧
      t = { State.reset with dmem := s.dmem, env := (afterHost s rest).env }

/-! ## Host accesses -/

/-- While BUSY = 1 a write to any offset other than CTRL has no effect, and one to CTRL with SRST = 0 sets IE alone (R471 is
SoftReset's); a read of ID, VERSION, CTRL or STATUS returns its current value; a read of a reserved offset returns 0 (R67);
any other read returns a value this statement does not fix and changes nothing but the model's own record
(20_memory.md R112; 10_state.md R35, R67; 70_reset_and_hazards.md R482). That such a read of a DMEM byte without a value is
no fault (R112 over R118), and that R112's open values do not reach the reserved offsets, is the model's (log entry 3). -/
def Obligations.BusyAccesses : Prop :=
  ∀ (s : State) (rest : List HostEvent) (off : Nat) (v : Word), s.busy = true → off < 8192 → off % 4 = 0 →
    (HostMoves s (.write (addressOf off) 4 v) rest →
      (off ≠ 0x008 → step s = .next (afterHost s rest)) ∧
      (off = 0x008 → v.getLsbD 1 = false →
        step s = .next { afterHost s rest with ctl := { s.ctl with ie := v.getLsbD 0 } })) ∧
    (HostMoves s (.read (addressOf off) 4) rest →
      (off = 0x000 → step s = .next (afterRead s rest (addressOf off) 0x47434F52)) ∧
      (off = 0x004 → step s = .next (afterRead s rest (addressOf off) 0x00010007)) ∧
      (off = 0x008 → step s = .next (afterRead s rest (addressOf off) (ctrlWord s))) ∧
      (off = 0x00C → step s = .next (afterRead s rest (addressOf off) (statusWord s))) ∧
      (ReservedOffset off → step s = .next (afterRead s rest (addressOf off) 0)) ∧
      (off ≠ 0x000 → off ≠ 0x004 → off ≠ 0x008 → off ≠ 0x00C →
        ∃ (x : Word) (t : State), step s = .next t ∧ t = { s with env := t.env } ∧ t.env.todo = rest ∧
          t.env.seen = ⟨addressOf off, x⟩ :: s.env.seen))

/-- An aligned 32-bit access is one step: a write has the effect `hostWriteAccess` gives it, a read while BUSY = 0 returns
the word `hostReadWord` gives, or faults where that does. Reads change nothing; a write to CMD starts a command, SRST = 1
resets and a 1 written to DONE clears it; every write but one to CMD has, done twice, the effect of one (20_memory.md R101,
R111). How accesses queue and where a read's value is noted is the model's own (log entry 1). -/
def Obligations.SideEffectsOfAccesses : Prop :=
  (∀ (s : State) (rest : List HostEvent) (off : Nat) (v : Word), off < 8192 → off % 4 = 0 →
    (HostMoves s (.write (addressOf off) 4 v) rest → step s = .next (hostWriteAccess (afterHost s rest) off v)) ∧
    (HostMoves s (.read (addressOf off) 4) rest → s.busy = false →
      (∀ x, hostReadWord s off = .ok x → step s = .next (afterRead s rest (addressOf off) x)) ∧
      ∀ f, hostReadWord s off = .error f → step s = .fault f)) ∧
  (∀ (s t : State) (rest : List HostEvent) (addr width : Nat), HostMoves s (.read addr width) rest → step s = .next t →
    t = { s with env := t.env } ∧ t.env.todo = rest) ∧
  (∀ (s : State) (v : Word), s.busy = false →
    (hostWriteAccess s 0x010 v).ctl.pending = some v ∧
    (v.getLsbD 1 = true →
      hostWriteAccess s 0x008 v = { State.reset with dmem := s.dmem, env := s.env } ∧
      hostWriteAccess s 0x00C v = { s with ctl := { s.ctl with done := false } }) ∧
    ∀ off, off ≠ 0x010 → off % 4 = 0 → off < 8192 → s.dmem.wf →
      hostWriteAccess (hostWriteAccess s off v) off v = hostWriteAccess s off v)

/-- The register map at its offsets: each register reads at the words R32 gives it, word j of a multi-word register being its
bits 32j+31:32j; STATUS reads BUSY, DONE, VOK and ERR at the bits R36 gives them, and CTRL, HCTL and PINF their fields at
theirs. The string a register holds is its bytes, byte k being bits 8k+7:8k, and the conversions go both ways. A host write to
a word of a register that is writable in every bit reads back, and changes no other word of the aperture, no byte of DMEM and
nothing of the model's own record (00_scope.md R10; 10_state.md R32, R35, R36, R49, R51, R52, R59). -/
def Obligations.RegisterWordsReadBack : Prop :=
  (∀ s : State,
    (hostReadWord s 0x000 = .ok 0x47434F52 ∧ hostReadWord s 0x004 = .ok 0x00010007 ∧
     hostReadWord s 0x008 = .ok (ctrlWord s) ∧ hostReadWord s 0x00C = .ok (statusWord s) ∧
     hostReadWord s 0x010 = .ok 0 ∧ hostReadWord s 0x014 = .ok s.io.src ∧ hostReadWord s 0x018 = .ok s.io.dst ∧
     hostReadWord s 0x01C = .ok s.io.len ∧ hostReadWord s 0x020 = .ok s.io.outlen ∧
     hostReadWord s 0x148 = .ok (hctlWord s) ∧ hostReadWord s 0x360 = .ok (pinfWord s)) ∧
    (HoldsWords s 0x040 8 s.cipher.gkey ∧ HoldsWords s 0x100 8 s.hash.hh ∧ HoldsWords s 0x120 8 s.hash.hz ∧
     HoldsWords s 0x160 8 s.hash.hbuf ∧ HoldsWords s 0x200 8 s.sign.eH ∧ HoldsWords s 0x220 8 s.sign.eD ∧
     HoldsWords s 0x240 8 s.sign.eK ∧ HoldsWords s 0x260 8 s.sign.eR ∧ HoldsWords s 0x280 8 s.sign.eS ∧
     HoldsWords s 0x2A0 8 s.sign.eQX ∧ HoldsWords s 0x2C0 8 s.sign.eQY ∧ HoldsWords s 0x2E0 8 s.point.paX ∧
     HoldsWords s 0x300 8 s.point.paY ∧ HoldsWords s 0x320 8 s.point.pbX ∧ HoldsWords s 0x340 8 s.point.pbY ∧
     HoldsWords s 0x440 8 s.modu.mM ∧ HoldsWords s 0x460 8 s.modu.mR ∧
     HoldsWords s 0x060 2 s.cipher.giv ∧ HoldsWords s 0x140 2 s.hash.bitCount ∧ HoldsWords s 0x600 2 s.keys.tk1 ∧
     HoldsWords s 0x608 2 s.keys.tk2 ∧ HoldsWords s 0x610 2 s.keys.tk3 ∧ HoldsWords s 0x618 2 s.keys.tiv ∧
     HoldsWords s 0x080 16 s.cipher.sbox ∧ HoldsWords s 0x0C0 16 s.hash.hsbox ∧ HoldsWords s 0x400 16 s.modu.mX ∧
     HoldsWords s 0x480 16 s.modu.mGX ∧ HoldsWords s 0x4C0 16 s.modu.mGY)) ∧
  (∀ s : State,
    ((statusWord s).getLsbD 0 = s.busy ∧ (s.busy = true ↔ s.ctl.pending ≠ none) ∧
     (statusWord s).getLsbD 1 = s.ctl.done ∧ (statusWord s).getLsbD 2 = s.ctl.vok ∧
     (statusWord s).extractLsb' 3 5 = 0 ∧ (statusWord s).extractLsb' 8 4 = s.ctl.err ∧
     (statusWord s).extractLsb' 12 20 = 0) ∧
    ((ctrlWord s).getLsbD 0 = s.ctl.ie ∧ (ctrlWord s).extractLsb' 1 31 = 0) ∧
    ((hctlWord s).getLsbD 0 = s.hash.fin ∧ (hctlWord s).extractLsb' 1 31 = 0) ∧
    ((pinfWord s).getLsbD 0 = s.point.paInf ∧ (pinfWord s).getLsbD 1 = s.point.pbInf ∧
     (pinfWord s).extractLsb' 2 30 = 0)) ∧
  (∀ (w : Word) (d : DWord) (v : U256) (n : Nat),
    toLE32 w = (List.range 4).map (byteOf w) ∧ toLE64 d = (List.range 8).map (byteOf d) ∧
    toLE256 v = (List.range 32).map (byteOf v) ∧ le32 (toLE32 w) = w ∧ le64 (toLE64 d) = d ∧ le256 (toLE256 v) = v ∧
    leNat (toLE256 v) = v.toNat ∧ leBytes 8 n = toLE64 (BitVec.ofNat 64 n) ∧
    leBytes 32 n = toLE256 (BitVec.ofNat 256 n)) ∧
  ∀ (s : State) (v : Word) (off : Nat), s.busy = false → PlainOffset off →
    hostReadWord (hostWriteAccess s off v) off = .ok v ∧
    (∀ off', off' % 4 = 0 → off' ≠ off → hostReadWord (hostWriteAccess s off v) off' = hostReadWord s off') ∧
    (hostWriteAccess s off v).dmem = s.dmem ∧ (hostWriteAccess s off v).env = s.env

/-- The registers with reserved or read-only bits store only their fields: IE of CTRL, bits 31:3 of HLEN_LO, all of
HLEN_HI, FIN, PA_INF and PB_INF; STATUS lets go of DONE alone. Everything else of the state is kept. CTRL takes the write
busy or not (10_state.md R35, R36, R48, R49, R59; 70_reset_and_hazards.md R482). -/
def Obligations.FieldWrites : Prop :=
  (∀ (s : State) (v : Word), v.getLsbD 1 = false →
    hostWriteAccess s 0x008 v = { s with ctl := { s.ctl with ie := v.getLsbD 0 } } ∧
    hostReadWord (hostWriteAccess s 0x008 v) 0x008 = .ok (v &&& 1)) ∧
  ∀ (s : State) (v : Word), s.busy = false →
    (v.getLsbD 1 = false → hostWriteAccess s 0x00C v = s) ∧
    (hostWriteAccess s 0x140 v = { s with hash := { s.hash with hlen := (hostWriteAccess s 0x140 v).hash.hlen } } ∧
      hostReadWord (hostWriteAccess s 0x140 v) 0x140 = .ok (v &&& 0xFFFFFFF8) ∧
      hostReadWord (hostWriteAccess s 0x140 v) 0x144 = hostReadWord s 0x144) ∧
    (hostWriteAccess s 0x144 v = { s with hash := { s.hash with hlen := (hostWriteAccess s 0x144 v).hash.hlen } } ∧
      hostReadWord (hostWriteAccess s 0x144 v) 0x144 = .ok v ∧
      hostReadWord (hostWriteAccess s 0x144 v) 0x140 = hostReadWord s 0x140) ∧
    (hostWriteAccess s 0x148 v = { s with hash := { s.hash with fin := v.getLsbD 0 } } ∧
      hostReadWord (hostWriteAccess s 0x148 v) 0x148 = .ok (v &&& 1)) ∧
    (hostWriteAccess s 0x360 v = { s with point := { s.point with paInf := v.getLsbD 0, pbInf := v.getLsbD 1 } } ∧
      hostReadWord (hostWriteAccess s 0x360 v) 0x360 = .ok (v &&& 3))

/-- A reserved register offset reads 0 and ignores writes, busy or not; the reserved bits of CTRL, STATUS, HCTL and PINF
read 0 and ignore writes, and a write to ID, VERSION or OUTLEN, to the read-only fields of STATUS or to HLEN_LO bits 2:0 has
no effect; ID, VERSION and CMD read their constants (10_state.md R33, R34, R67, R68). That a reserved offset reads 0 while
BUSY = 1 too, R112's open values not reaching it, is the model's (log entry 3). -/
def Obligations.ReservedAndReadOnly : Prop :=
  (∀ (s : State) (v : Word) (off : Nat), ReservedOffset off →
    hostReadWord s off = .ok 0 ∧ (∀ addr, hostReadAccess s addr off = .next (s.noteRead addr 0)) ∧
    hostWriteAccess s off v = s) ∧
  ∀ (s : State) (v : Word), s.busy = false →
    (hostWriteAccess s 0x000 v = s ∧ hostWriteAccess s 0x004 v = s ∧ hostWriteAccess s 0x020 v = s) ∧
    (hostReadWord s 0x000 = .ok 0x47434F52 ∧ hostReadWord s 0x004 = .ok 0x00010007 ∧ hostReadWord s 0x010 = .ok 0) ∧
    (ctrlWord s &&& ~~~0x1 = 0 ∧ statusWord s &&& ~~~0xF07 = 0 ∧ hctlWord s &&& ~~~0x1 = 0 ∧
      pinfWord s &&& ~~~0x3 = 0) ∧
    (hostWriteAccess s 0x008 v = hostWriteAccess s 0x008 (v &&& 0x3) ∧
      hostWriteAccess s 0x00C v = hostWriteAccess s 0x00C (v &&& 0x2) ∧
      hostWriteAccess s 0x148 v = hostWriteAccess s 0x148 (v &&& 0x1) ∧
      hostWriteAccess s 0x360 v = hostWriteAccess s 0x360 (v &&& 0x3) ∧
      hostWriteAccess s 0x140 v = hostWriteAccess s 0x140 (v &&& 0xFFFFFFF8))

/-- A host write at DMEM offset 4k stores the word's bytes, least significant first, and no other byte changes; a host read
there returns the LE32 of the four bytes (20_memory.md R101). -/
def Obligations.DmemWordsAreLittleEndian : Prop :=
  ∀ (s : State) (k : Nat) (v : Word), s.busy = false → k < 1024 →
    (hostWriteAccess s (0x1000 + 4 * k) v = { s with dmem := (hostWriteAccess s (0x1000 + 4 * k) v).dmem } ∧
      ∀ a, (hostWriteAccess s (0x1000 + 4 * k) v).dmem.byteAt a =
        if 4 * k ≤ a ∧ a < 4 * k + 4 then some (byteOf v (a - 4 * k)) else s.dmem.byteAt a) ∧
    ∀ b0 b1 b2 b3 : Byte, s.dmem.byteAt (4 * k) = some b0 → s.dmem.byteAt (4 * k + 1) = some b1 →
      s.dmem.byteAt (4 * k + 2) = some b2 → s.dmem.byteAt (4 * k + 3) = some b3 →
      hostReadWord s (0x1000 + 4 * k) = .ok (b3 ++ b2 ++ b1 ++ b0)

/-- A host access inside the aperture of another width than 32 bits, or at an offset that is not a multiple of 4, is
refused (20_memory.md R102, R103). That an access outside the aperture, of whatever width, takes its turn, notes no value and
changes nothing of GCORE's is the model's (log entries 5, 6). -/
def Obligations.AccessesOutsideTheContract : Prop :=
  ∀ (s : State) (rest : List HostEvent) (addr width : Nat) (v : Word),
    HostMoves s (.read addr width) rest ∨ HostMoves s (.write addr width v) rest →
    (InAperture addr → width ≠ 4 ∨ (addr - Config.gcoreBase) % 4 ≠ 0 → step s = .refused .busContract) ∧
    (¬InAperture addr → step s = .next (afterHost s rest))

/-- ERR keeps its value in every step that is no completion, but for an accepted CMD write and a reset; clearing DONE by
W1C keeps it (60_exceptions.md R433). -/
def Obligations.ErrIsSticky : Prop :=
  (∀ (s t : State), step s = .next t → (¬∃ w, CompletionDue s w) → t.ctl.err ≠ s.ctl.err →
    ∃ ev rest, HostMoves s ev rest ∧
      (ev = .platformReset ∨ (∃ v, ev = .write (addressOf 0x008) 4 v ∧ v.getLsbD 1 = true) ∨
       ∃ v, ev = .write (addressOf 0x010) 4 v ∧ s.ctl.pending = none)) ∧
  ∀ (s : State) (v : Word) (rest : List HostEvent), s.ctl.pending = none →
    HostMoves s (.write (addressOf 0x00C) 4 v) rest → v.getLsbD 1 = true →
    step s = .next { afterHost s rest with ctl := { s.ctl with done := false } }

/-- IRQ = DONE and IE. A completion leaves IRQ = IE; IE set while DONE = 1 raises it; the W1C of DONE, an accepted CMD write,
IE cleared and a reset each leave it 0; and nothing else raises or lowers it (60_exceptions.md R440). That IRQ drives the one
input GCORE_IRQ_LINE names, and no other, is the model's form of that parameter (log entry 5). -/
def Obligations.InterruptRule : Prop :=
  (∀ s : State, s.irq = (s.ctl.done && s.ctl.ie)) ∧
  (∀ s : State, s.irqInput Config.irqLine = s.irq ∧ ∀ line, line ≠ Config.irqLine → s.irqInput line = false) ∧
  (∀ (s : State) (rest : List HostEvent) (v : Word),
    (HostMoves s (.write (addressOf 0x008) 4 v) rest →
      ∃ t, step s = .next t ∧ t.irq = (v.getLsbD 0 && !v.getLsbD 1 && s.ctl.done)) ∧
    (HostMoves s (.write (addressOf 0x00C) 4 v) rest → s.ctl.pending = none → v.getLsbD 1 = true →
      ∃ t, step s = .next t ∧ t.irq = false) ∧
    (HostMoves s (.write (addressOf 0x010) 4 v) rest → s.ctl.pending = none → ∃ t, step s = .next t ∧ t.irq = false) ∧
    (HostMoves s .platformReset rest → ∃ t, step s = .next t ∧ t.irq = false)) ∧
  ∀ s t : State, step s = .next t →
    ((∃ w, CompletionDue s w) → t.ctl.done = true ∧ t.irq = s.ctl.ie) ∧
    (s.irq = false → t.irq = true →
      (∃ w, CompletionDue s w) ∨
      ∃ v rest, HostMoves s (.write (addressOf 0x008) 4 v) rest ∧ v.getLsbD 0 = true ∧ v.getLsbD 1 = false ∧
        s.ctl.done = true) ∧
    (s.irq = true → t.irq = false →
      ∃ ev rest, HostMoves s ev rest ∧
        (ev = .platformReset ∨
         (∃ v, ev = .write (addressOf 0x008) 4 v ∧ (v.getLsbD 1 = true ∨ v.getLsbD 0 = false)) ∨
         (∃ v, ev = .write (addressOf 0x00C) 4 v ∧ v.getLsbD 1 = true) ∨
         ∃ v, ev = .write (addressOf 0x010) 4 v ∧ s.ctl.pending = none))

/-! ## Control -/

/-- NOP changes nothing but STATUS: from an idle state, the CMD write and the completion leave DONE = 1 and ERR, VOK and
OUTLEN 0 (49_control.md R420). That the completion is the very next step, because the host has no access left, is the model's
choice (log entry 2). -/
def Obligations.NopChangesOnlyStatus : Prop :=
  (∀ s : State, exec .nop s = .next (completed s)) ∧
  ∀ s : State, s.ctl.pending = none → s.env.todo = [.write (addressOf 0x010) 4 0] →
    ∃ t, Sys2Proof.core.run 2 s = .next t ∧
      t = { s with ctl := { ie := s.ctl.ie, done := true, vok := false, err := 0, pending := none }
                   io := { s.io with outlen := 0 }, env := t.env }

/-! ## Modular unit -/

/-- M_MOD writes the one r with 0 ≤ r < m and m dividing x - r, for x of either sign; m = 0 raises InvalidParameter
(40_modarith.md R201, R202). -/
def Obligations.ModReduces : Prop :=
  ∀ s : State,
    (s.modu.mM = 0 → exec .mMod s = .next (failed s 1)) ∧
    (s.modu.mM ≠ 0 → ∀ r : Nat, r < s.modu.mM.toNat → (s.modu.mM.toNat : Int) ∣ s.modu.mX.toInt - r →
      exec .mMod s = .next (completed { s with modu := { s.modu with mR := BitVec.ofNat 256 r } })) ∧
    (s.modu.mM ≠ 0 → ∃ r : Nat, r < s.modu.mM.toNat ∧ (s.modu.mM.toNat : Int) ∣ s.modu.mX.toInt - r)

/-- M_INV writes the one r with 0 ≤ r < n and a·r ≡ 1 (mod n) when gcd(|a|, n) = 1, and there is one; n = 0 and
gcd(|a|, n) ≠ 1 raise InvalidParameter (40_modarith.md R203, R204). -/
def Obligations.InvInverts : Prop :=
  ∀ s : State,
    (s.modu.mM = 0 ∨ Nat.gcd s.modu.mX.toInt.natAbs s.modu.mM.toNat ≠ 1 → exec .mInv s = .next (failed s 1)) ∧
    (s.modu.mM ≠ 0 → Nat.gcd s.modu.mX.toInt.natAbs s.modu.mM.toNat = 1 →
      (∃ r : Nat, r < s.modu.mM.toNat ∧ (s.modu.mM.toNat : Int) ∣ s.modu.mX.toInt * r - 1) ∧
      ∀ r : Nat, r < s.modu.mM.toNat → (s.modu.mM.toNat : Int) ∣ s.modu.mX.toInt * r - 1 →
        exec .mInv s = .next (completed { s with modu := { s.modu with mR := BitVec.ofNat 256 r } }))

/-- M_EGCD writes d = gcd(a, b) and the coefficients x, y that the loop of R205 computes: a·x + b·y = d, |x| ≤ max(1, b) and
|y| ≤ max(1, a), with (1, 0) for b = 0, (0, 1) for a = 0 < b and (0, 1) for a = b > 0; an a that is negative or does not fit
256 bits raises InvalidParameter (40_modarith.md R205, R206). -/
def Obligations.EgcdGivesBezout : Prop :=
  ∀ s : State,
    (s.modu.mX.toInt < 0 ∨ 2 ^ 256 ≤ s.modu.mX.toInt → exec .mEgcd s = .next (failed s 1)) ∧
    (0 ≤ s.modu.mX.toInt → s.modu.mX.toInt < 2 ^ 256 →
      ∀ a b : Nat, a = s.modu.mX.toInt.toNat → b = s.modu.mM.toNat →
      ∃ gx gy : S512, Euclid a b 1 0 0 1 (Nat.gcd a b) gx.toInt gy.toInt ∧
        a * gx.toInt + b * gy.toInt = Nat.gcd a b ∧
        |gx.toInt| ≤ max 1 (b : Int) ∧ |gy.toInt| ≤ max 1 (a : Int) ∧
        (b = 0 → gx.toInt = 1 ∧ gy.toInt = 0) ∧
        (a = 0 ∧ b ≠ 0 ∨ a = b ∧ a ≠ 0 → gx.toInt = 0 ∧ gy.toInt = 1) ∧
        exec .mEgcd s = .next (completed
          { s with modu := { s.modu with mR := BitVec.ofNat 256 (Nat.gcd a b), mGX := gx, mGY := gy } }))

/-! ## Point engine -/

/-- The point addition is the sum of R233, in that rule's order of cases, and raises exactly in its doubling with
2·y1 ≡ 0; the coordinates it gives are below p (41_ecpoint.md R231, R233). -/
def Obligations.PointAddition : Prop :=
  ∀ P Q : Point,
    (∀ R, padd P Q = some R ↔ PointSum P Q R) ∧ (padd P Q = none ↔ SumRaises P Q) ∧
    ∀ x y, PointSum P Q (.affine x y) → x < curveP ∧ y < curveP

/-- E_PADD writes PA + PB to PA: ∞ as the tag with zero coordinates; InvalidParameter exactly where the sum raises
(41_ecpoint.md R232). -/
def Obligations.PaddAddsPoints : Prop :=
  ∀ s : State,
    (∀ R, PointSum (operandPoint s.point.paInf s.point.paX s.point.paY)
        (operandPoint s.point.pbInf s.point.pbX s.point.pbY) R →
      exec .ePadd s = .next (completed (withPointA s R))) ∧
    (SumRaises (operandPoint s.point.paInf s.point.paX s.point.paY)
        (operandPoint s.point.pbInf s.point.pbX s.point.pbY) →
      exec .ePadd s = .next (failed s 1))

/-- The scalar multiplication is the right-to-left double-and-add of R234 and never raises; a scalar 0 and the point ∞
give ∞, 1·P is P reduced, q·G = ∞ and (q - 1)·G = -G (41_ecpoint.md R234). -/
def Obligations.ScalarMultiplication : Prop :=
  (∀ (k : Nat) (P : Point), ∃ R, pmul k P = some R ∧ DoubleAndAdd k .infinity (fieldPoint P) R) ∧
  (∀ P, pmul 0 P = some .infinity) ∧ (∀ k, pmul k .infinity = some .infinity) ∧
  (∀ P, pmul 1 P = some (fieldPoint P)) ∧ pmul curveQ (.affine baseX baseY) = some .infinity ∧
  pmul (curveQ - 1) (.affine baseX baseY) = some (.affine baseX (curveP - baseY))

/-- E_PMUL writes k·PA to PA for every k and every PA, ∞ as the tag with zero coordinates, and never fails; E_K and PB are
kept (41_ecpoint.md R235). -/
def Obligations.PmulMultipliesPoint : Prop :=
  ∀ s : State, ∃ R,
    pmul s.sign.eK.toNat (operandPoint s.point.paInf s.point.paX s.point.paY) = some R ∧
    exec .ePmul s = .next (completed (withPointA s R))

/-! ## Signer -/

/-- E_KEYGEN writes Q = d·G to E_QX and E_QY; d outside [1, q), and Q = ∞, raise InvalidParameter (44_signer.md R341). -/
def Obligations.KeygenMultipliesBase : Prop :=
  ∀ s : State,
    (s.sign.eD.toNat < 1 ∨ curveQ ≤ s.sign.eD.toNat → exec .eKeygen s = .next (failed s 1)) ∧
    (1 ≤ s.sign.eD.toNat → s.sign.eD.toNat < curveQ →
      (∀ x y, pmul s.sign.eD.toNat pointG = some (.affine x y) →
        exec .eKeygen s = .next (completed
          { s with sign := { s.sign with eQX := BitVec.ofNat 256 x, eQY := BitVec.ofNat 256 y } })) ∧
      ∃ Q, pmul s.sign.eD.toNat pointG = some Q ∧ (Q = .infinity → exec .eKeygen s = .next (failed s 1)))

/-- E_SIGN writes r = C.x mod q and s = (r·d + k·(h mod q)) mod q for C = k·G, with no value forced away from 0; k outside
[1, q), and C = ∞, raise InvalidParameter (44_signer.md R342). -/
def Obligations.SignComputesSignature : Prop :=
  ∀ s : State,
    (s.sign.eK.toNat < 1 ∨ curveQ ≤ s.sign.eK.toNat → exec .eSign s = .next (failed s 1)) ∧
    (1 ≤ s.sign.eK.toNat → s.sign.eK.toNat < curveQ →
      (∀ x y, pmul s.sign.eK.toNat pointG = some (.affine x y) →
        exec .eSign s = .next (completed
          { s with sign := { s.sign with
              eR := BitVec.ofNat 256 (x % curveQ)
              eS := BitVec.ofNat 256
                ((x % curveQ * s.sign.eD.toNat + s.sign.eK.toNat * (s.sign.eH.toNat % curveQ)) % curveQ) } })) ∧
      ∃ C, pmul s.sign.eK.toNat pointG = some C ∧ (C = .infinity → exec .eSign s = .next (failed s 1)))

/-- E_VERIFY: a failed check of R343 raises InvalidParameter. Past the checks there are v with h·v ≡ 1 (mod q), z1 = s·v mod
q and z2 = -r·v mod q for which C = z1·G + z2·Q is defined, and for any such values the next state has VOK = 1 when C is
finite with C.x mod q = r, and VerifyFailed otherwise. Nothing but STATUS changes (44_signer.md R343). -/
def Obligations.VerifyChecksSignature : Prop :=
  ∀ (s : State) (h r sg qx qy : Nat), h = s.sign.eH.toNat → r = s.sign.eR.toNat → sg = s.sign.eS.toNat →
    qx = s.sign.eQX.toNat → qy = s.sign.eQY.toNat →
    (sg < 1 ∨ curveQ ≤ sg ∨ r < 1 ∨ curveQ ≤ r → exec .eVerify s = .next (failed s 1)) ∧
    (curveP ≤ qx ∨ curveP ≤ qy → exec .eVerify s = .next (failed s 1)) ∧
    (¬((qy : Int) ^ 2 ≡ (qx : Int) ^ 3 + 7 * qx + curveB [ZMOD curveP]) → exec .eVerify s = .next (failed s 1)) ∧
    (Nat.gcd h curveQ ≠ 1 → exec .eVerify s = .next (failed s 1)) ∧
    (1 ≤ sg → sg < curveQ → 1 ≤ r → r < curveQ → qx < curveP → qy < curveP →
      (qy : Int) ^ 2 ≡ (qx : Int) ^ 3 + 7 * qx + curveB [ZMOD curveP] → Nat.gcd h curveQ = 1 →
      (∃ (v z1 z2 : Nat) (C1 C2 C : Point), (h : Int) * v ≡ 1 [ZMOD curveQ] ∧
        z1 < curveQ ∧ (z1 : Int) ≡ sg * v [ZMOD curveQ] ∧ z2 < curveQ ∧ (z2 : Int) ≡ -r * v [ZMOD curveQ] ∧
        pmul z1 pointG = some C1 ∧ pmul z2 (.affine qx qy) = some C2 ∧ padd C1 C2 = some C) ∧
      ∀ (v z1 z2 : Nat) (C1 C2 C : Point), (h : Int) * v ≡ 1 [ZMOD curveQ] →
        z1 < curveQ → (z1 : Int) ≡ sg * v [ZMOD curveQ] → z2 < curveQ → (z2 : Int) ≡ -r * v [ZMOD curveQ] →
        pmul z1 pointG = some C1 → pmul z2 (.affine qx qy) = some C2 → padd C1 C2 = some C →
        (C = .infinity → exec .eVerify s = .next (failed s 4)) ∧
        (∀ x y, C = .affine x y → x % curveQ ≠ r → exec .eVerify s = .next (failed s 4)) ∧
        ∀ x y, C = .affine x y → x % curveQ = r →
          exec .eVerify s = .next (completed { s with ctl := { s.ctl with vok := true } }))

/-- The private scalar E_D reaches no command but E_KEYGEN and E_SIGN: every other command gives the same outcome whatever
E_D holds, E_D itself apart, which no command writes (10_state.md R54; 30_encoding.md R144). -/
def Obligations.PrivateScalarIsolated : Prop :=
  (∀ (i : Instr) (s : State) (d : U256), i ≠ .eKeygen → i ≠ .eSign →
    exec i { s with sign := { s.sign with eD := d } } =
      match exec i s with
      | .next t => .next { t with sign := { t.sign with eD := d } }
      | .fault f => .fault f
      | .refused r => .refused r) ∧
  ∀ (i : Instr) (s t : State), exec i s = .next t → t.sign.eD = s.sign.eD

/-! ## Cipher -/

/-- G_KEYLOAD: word i of GKEY becomes LE32 of bytes 4i..4i+3 of the key string at SRC; AddressRange when the 32 bytes leave
DMEM (42_gost89.md R263, R271). -/
def Obligations.KeyloadLoadsWords : Prop :=
  ∀ s : State,
    (4096 < s.srcOff + 32 → exec .gKeyload s = .next (failed s 6)) ∧
    (s.srcOff + 32 ≤ 4096 → Readable s s.srcOff 32 →
      ∃ K : U256, exec .gKeyload s = .next (completed { s with cipher := { s.cipher with gkey := K } }) ∧
        ∀ i < 8, ∀ b0 b1 b2 b3 : Byte, s.dmem.byteAt (s.srcOff + 4 * i) = some b0 →
          s.dmem.byteAt (s.srcOff + 4 * i + 1) = some b1 → s.dmem.byteAt (s.srcOff + 4 * i + 2) = some b2 →
          s.dmem.byteAt (s.srcOff + 4 * i + 3) = some b3 → wordOf K i = b3 ++ b2 ++ b1 ++ b0)

/-- G_SBOXDEF loads the default S-box set into SBOX, entry i of S_j in bits 4i+3:4i of its two words, and changes HSBOX
not (42_gost89.md R262, R272; 10_state.md R44). -/
def Obligations.SboxdefLoadsDefault : Prop :=
  ∀ s : State, ∃ S : SboxSet,
    exec .gSboxdef s = .next (completed { s with cipher := { s.cipher with sbox := S } }) ∧
    ∀ j < 8, ∀ i < 16, S.extractLsb' (64 * j + 4 * i) 4 = (defaultRows.getD j []).getD i 0

/-- The round function sends nibble j of x through S-box j+1 and rotates left by 11, which is the source's form with the
four fused tables (42_gost89.md R264). -/
def Obligations.RoundFunctionForms : Prop :=
  ∀ (S : SboxSet) (x : Word),
    (∀ j < 8, ((roundF S x).rotateRight 11).extractLsb' (4 * j) 4 = sboxEntry S j (x.extractLsb' (4 * j) 4).toNat) ∧
    roundF S x =
      (fusedTable S 7 6 24 (x.extractLsb' 24 8) ||| fusedTable S 5 4 16 (x.extractLsb' 16 8) |||
       fusedTable S 3 2 8 (x.extractLsb' 8 8) ||| fusedTable S 1 0 0 (x.extractLsb' 0 8)).rotateLeft 11

/-- The block functions are 32 rounds with the keys K[0..7] three times and then K[7..0] for encryption, K[0..7] once and
then K[7..0] three times for decryption, from n1 ‖ n2 to n2 ‖ n1 (42_gost89.md R265, R266). -/
def Obligations.GostBlockKeyOrder : Prop :=
  ∀ (S : SboxSet) (K : U256) (n1 n2 : Word),
    (∃ p, ([0, 1, 2, 3, 4, 5, 6, 7, 0, 1, 2, 3, 4, 5, 6, 7, 0, 1, 2, 3, 4, 5, 6, 7, 7, 6, 5, 4, 3, 2, 1, 0].foldl
        (feistelRound S K) (n1, n2)) = p ∧
      gostEncrypt S K (toLE32 n1 ++ toLE32 n2) = toLE32 p.2 ++ toLE32 p.1) ∧
    ∃ p, ([0, 1, 2, 3, 4, 5, 6, 7, 7, 6, 5, 4, 3, 2, 1, 0, 7, 6, 5, 4, 3, 2, 1, 0, 7, 6, 5, 4, 3, 2, 1, 0].foldl
        (feistelRound S K) (n1, n2)) = p ∧
      gostDecrypt S K (toLE32 n1 ++ toLE32 n2) = toLE32 p.2 ++ toLE32 p.1

/-- The ECB commands: BufferShape when LEN is not a multiple of 8, then AddressRange; otherwise block c of the input, taken
before anything is written, gives block c of DMEM[DST..DST+LEN), and OUTLEN = LEN (42_gost89.md R273, R274). -/
def Obligations.EcbCommands : Prop :=
  ∀ (s : State) (i : Instr) (f : SboxSet → U256 → Bytes → Bytes),
    (i = .gEcbenc ∧ f = gostEncrypt ∨ i = .gEcbdec ∧ f = gostDecrypt) →
    (s.lenBytes % 8 ≠ 0 → exec i s = .next (failed s 2)) ∧
    (s.lenBytes % 8 = 0 → 4096 < s.srcOff + s.lenBytes ∨ 4096 < s.dstOff + s.lenBytes →
      exec i s = .next (failed s 6)) ∧
    (s.lenBytes % 8 = 0 → s.srcOff + s.lenBytes ≤ 4096 → s.dstOff + s.lenBytes ≤ 4096 →
      Readable s s.srcOff s.lenBytes →
      ∃ t, exec i s = .next t ∧
        StoredFrom (completed { s with io := { s.io with outlen := s.io.len } }) t s.dstOff
          ((List.range (s.lenBytes / 8)).flatMap fun c =>
            f s.cipher.sbox s.cipher.gkey (regionBytes s (s.srcOff + 8 * c) 8)))

/-- Block decryption undoes encryption and encryption undoes decryption, for every S-box set, key and block; so what
G_ECBENC stored, G_ECBDEC with the same GKEY and SBOX turns back into the input (42_gost89.md R267, R274). -/
def Obligations.EcbRoundTrip : Prop :=
  (∀ (S : SboxSet) (K : U256) (b : Bytes), b.length = 8 →
    gostDecrypt S K (gostEncrypt S K b) = b ∧ gostEncrypt S K (gostDecrypt S K b) = b) ∧
  ∀ (s t : State) (back : Word), exec .gEcbenc s = .next t → s.lenBytes % 8 = 0 → s.srcOff + s.lenBytes ≤ 4096 →
    s.dstOff + s.lenBytes ≤ 4096 → back.toNat + s.lenBytes ≤ 4096 →
    ∃ u, exec .gEcbdec { t with io := { t.io with src := s.io.dst, dst := back } } = .next u ∧
      ∀ j < s.lenBytes, u.dmem.byteAt (back.toNat + j) = s.dmem.byteAt (s.srcOff + j)

/-- The advance of a gamma block: the low half plus GC1 modulo 2^32, the high half plus GC2 with the carry out added back
at bit 0 (42_gost89.md R268). -/
def Obligations.GammaAdvances : Prop :=
  ∀ (lo hi : Word), ∃ hi' : Word,
    gammaAdvance (toLE32 lo ++ toLE32 hi) = toLE32 (lo + 0x01010101) ++ toLE32 hi' ∧
    hi'.toNat = (if hi.toNat + 0x01010104 < 2 ^ 32 then hi.toNat + 0x01010104 else hi.toNat + 0x01010104 - 2 ^ 32 + 1)

/-- G_GAMMA: byte i of the output is byte i of the input XOR byte i mod 8 of the encryption of the (i/8 + 1)-th advance of
the start block, which is GIV, encrypted first when FIRST = 1; GIV ends as the last advance, OUTLEN = LEN. AddressRange is
the only error (42_gost89.md R269, R275). -/
def Obligations.GammaCommand : Prop :=
  ∀ (s : State) (first : Bool),
    (4096 < s.srcOff + s.lenBytes ∨ 4096 < s.dstOff + s.lenBytes → exec (.gGamma first) s = .next (failed s 6)) ∧
    (s.srcOff + s.lenBytes ≤ 4096 → s.dstOff + s.lenBytes ≤ 4096 → Readable s s.srcOff s.lenBytes →
      ∃ (g : Nat → Bytes) (t : State), g = (fun c => Nat.iterate gammaAdvance c
          (if first then gostEncrypt s.cipher.sbox s.cipher.gkey (toLE64 s.cipher.giv) else toLE64 s.cipher.giv)) ∧
        exec (.gGamma first) s = .next t ∧
        StoredFrom (completed { s with io := { s.io with outlen := s.io.len }
                                       cipher := { s.cipher with giv := le64 (g ((s.lenBytes + 7) / 8)) } })
          t s.dstOff
          ((List.range s.lenBytes).map fun i =>
            (regionBytes s s.srcOff s.lenBytes).getD i 0 ^^^
              (gostEncrypt s.cipher.sbox s.cipher.gkey (g (i / 8 + 1))).getD (i % 8) 0))

/-- The gamma transform is its own inverse, and a message split after a multiple of 8 bytes continues from the block the
first call leaves (42_gost89.md R269, R270). -/
def Obligations.GammaTransformLaws : Prop :=
  ∀ (S : SboxSet) (K : U256) (g d1 d2 : Bytes) (first : Bool),
    (gammaTransform S K g (gammaTransform S K g d1 first).1 first).1 = d1 ∧
    (d1.length % 8 = 0 →
      gammaTransform S K g (d1 ++ d2) first =
        ((gammaTransform S K g d1 first).1 ++ (gammaTransform S K (gammaTransform S K g d1 first).2 d2 false).1,
         (gammaTransform S K (gammaTransform S K g d1 first).2 d2 false).2))

/-! ## Hash -/

/-- H_INIT zeroes HH, HZ, HLEN, HBUF and FIN and loads HSBOX: the default set for COPY = 0, SBOX for COPY = 1
(43_gost3411.md R307). -/
def Obligations.HInitStartsContext : Prop :=
  ∀ (s : State) (copy : Bool), ∃ S : SboxSet,
    exec (.hInit copy) s =
      .next (completed { s with hash := { hsbox := S, hh := 0, hz := 0, hlen := 0, fin := false, hbuf := 0 } }) ∧
    (copy = true → S = s.cipher.sbox) ∧
    (copy = false → ∀ j < 8, ∀ i < 16, S.extractLsb' (64 * j + 4 * i) 4 = (defaultRows.getD j []).getD i 0)

/-- The byte functions of the hash: A moves bytes 8..31 down and puts X1 ⊕ X2 on top, P is the transpose, ψ shifts the
16-bit words down and puts the feedback word on top (43_gost3411.md R301, R302, R304). -/
def Obligations.HashByteFunctions : Prop :=
  ∀ X : Bytes, X.length = 32 →
    ((hashA X).length = 32 ∧ (∀ i < 24, (hashA X).getD i 0 = X.getD (i + 8) 0) ∧
      ∀ i < 8, (hashA X).getD (24 + i) 0 = X.getD i 0 ^^^ X.getD (8 + i) 0) ∧
    ((hashP X).length = 32 ∧ ∀ i < 8, ∀ k < 4, (hashP X).getD (4 * i + k) 0 = X.getD (8 * k + i) 0) ∧
    ((psi X).length = 32 ∧ (∀ i < 30, (psi X).getD i 0 = X.getD (i + 2) 0) ∧
      ∀ e < 2, (psi X).getD (30 + e) 0 =
        X.getD e 0 ^^^ X.getD (2 + e) 0 ^^^ X.getD (4 + e) 0 ^^^ X.getD (6 + e) 0 ^^^ X.getD (24 + e) 0 ^^^
          X.getD (30 + e) 0)

/-- The step transformation: keys K1..K4 from U and V, with C2 in the third key and zero constants else; the j-th slice of
H encrypted under K_j; and the mixing ψ^61(ψ(M ⊕ ψ^12(Sx)) ⊕ H) (43_gost3411.md R303, R305). -/
def Obligations.StepTransformation : Prop :=
  ∀ (S : SboxSet) (H M U2 U3 U4 V2 V3 V4 Sx : Bytes), H.length = 32 → M.length = 32 →
    U2 = hashA H → V2 = hashA (hashA M) → U3 = xorBytes (hashA U2) constantC2 → V3 = hashA (hashA V2) →
    U4 = hashA U3 → V4 = hashA (hashA V3) →
    Sx = gostEncrypt S (keySchedule (hashP (xorBytes H M))) (slice H 0 8) ++
         gostEncrypt S (keySchedule (hashP (xorBytes U2 V2))) (slice H 8 16) ++
         gostEncrypt S (keySchedule (hashP (xorBytes U3 V3))) (slice H 16 24) ++
         gostEncrypt S (keySchedule (hashP (xorBytes U4 V4))) (slice H 24 32) →
    hashStep S H M = Nat.iterate psi 61 (xorBytes (psi (xorBytes M (Nat.iterate psi 12 Sx))) H)

/-- H_STEP replaces HH by the step transformation of HH and the 32 bytes at SRC, and touches nothing else; AddressRange
when they leave DMEM (43_gost3411.md R311). -/
def Obligations.HStepTransformsChain : Prop :=
  ∀ s : State,
    (4096 < s.srcOff + 32 → exec .hStep s = .next (failed s 6)) ∧
    (s.srcOff + 32 ≤ 4096 → Readable s s.srcOff 32 →
      exec .hStep s = .next (completed { s with hash := { s.hash with
        hh := le256 (hashStep s.hash.hsbox (toLE256 s.hash.hh) (regionBytes s s.srcOff 32)) } }))

/-- The absorption of a byte x: with c = L[7:3], byte c of the buffer becomes x and no other, L grows by 8 modulo 2^64, and
when c = 31 the block is added to Z modulo 2^256 and steps H (43_gost3411.md R306, R308). -/
def Obligations.AbsorbsOneByte : Prop :=
  ∀ (c : HashContext) (x : Byte) (n : Nat), n = c.bitCount.toNat / 8 % 32 →
    (c.absorb x).bitCount = c.bitCount + 8 ∧ (c.absorb x).hsbox = c.hsbox ∧ (c.absorb x).fin = c.fin ∧
    (∀ j < 32, byteOf (c.absorb x).hbuf j = if j = n then x else byteOf c.hbuf j) ∧
    (n ≠ 31 → (c.absorb x).hh = c.hh ∧ (c.absorb x).hz = c.hz) ∧
    (n = 31 →
      (c.absorb x).hz.toNat = (c.hz.toNat + leNat (toLE256 (c.absorb x).hbuf)) % 2 ^ 256 ∧
      toLE256 (c.absorb x).hh = hashStep c.hsbox (toLE256 c.hh) (toLE256 (c.absorb x).hbuf))

/-- H_UPDATE: BufferShape when FIN = 1, then AddressRange; otherwise the LEN bytes at SRC are absorbed in order
(43_gost3411.md R309). -/
def Obligations.HUpdateAbsorbs : Prop :=
  ∀ s : State,
    (s.hash.fin = true → exec .hUpdate s = .next (failed s 2)) ∧
    (s.hash.fin = false → 4096 < s.srcOff + s.lenBytes → exec .hUpdate s = .next (failed s 6)) ∧
    (s.hash.fin = false → s.srcOff + s.lenBytes ≤ 4096 → Readable s s.srcOff s.lenBytes →
      exec .hUpdate s = .next (completed
        { s with hash := (regionBytes s s.srcOff s.lenBytes).foldl HashContext.absorb s.hash }))

/-- Any split of a message over two H_UPDATE calls leaves the hash context one call leaves (43_gost3411.md R309, R312). -/
def Obligations.HUpdateSplits : Prop :=
  ∀ (s t : State) (n1 n2 : Word), s.hash.fin = false → s.io.len.toNat = n1.toNat + n2.toNat →
    exec .hUpdate s = .next t → s.srcOff + s.lenBytes ≤ 4096 →
    ∃ u v, exec .hUpdate { s with io := { s.io with len := n1 } } = .next u ∧
      exec .hUpdate { u with io := { u.io with src := s.io.src + n1, len := n2 } } = .next v ∧ v.hash = t.hash

/-- H_FINAL: BufferShape when FIN = 1, then AddressRange; otherwise the partial block, if c = L[7:3] > 0, is zero-padded
and transformed, then the length block and Z step H; the digest goes to DMEM[DST..DST+32), HH and, big-endian, E_H: byte k
of HH is byte k of the digest and byte k of E_H is byte 31 - k of it; byte k of HBUF and HZ is that of the block and of Z; FIN
is 1 and OUTLEN 32 (43_gost3411.md R306, R310; 10_state.md R52, R53; 20_memory.md R109). -/
def Obligations.HFinalEmitsDigest : Prop :=
  ∀ s : State,
    (s.hash.fin = true → exec .hFinal s = .next (failed s 2)) ∧
    (s.hash.fin = false → 4096 < s.dstOff + 32 → exec .hFinal s = .next (failed s 6)) ∧
    (s.hash.fin = false → s.dstOff + 32 ≤ 4096 →
      ∀ (c : Nat) (B H1 Z1 digest : Bytes), c = s.hash.bitCount.toNat / 8 % 32 →
        B = (if c = 0 then toLE256 s.hash.hbuf else (toLE256 s.hash.hbuf).take c ++ zeros (32 - c)) →
        H1 = (if c = 0 then toLE256 s.hash.hh else hashStep s.hash.hsbox (toLE256 s.hash.hh) B) →
        Z1 = (if c = 0 then toLE256 s.hash.hz else leBytes 32 (s.hash.hz.toNat + leNat B)) →
        digest = hashStep s.hash.hsbox (hashStep s.hash.hsbox H1 (toLE64 s.hash.bitCount ++ zeros 24)) Z1 →
        ∃ t, exec .hFinal s = .next t ∧
          StoredFrom (completed { s with
            io := { s.io with outlen := 32 }
            hash := { s.hash with hh := le256 digest, hz := le256 Z1, hbuf := le256 B, fin := true }
            sign := { s.sign with eH := be256 digest } }) t s.dstOff digest ∧
          ∀ k < 32, byteOf t.sign.eH k = digest.getD (31 - k) 0 ∧ byteOf t.hash.hh k = digest.getD k 0 ∧
            byteOf t.hash.hbuf k = B.getD k 0 ∧ byteOf t.hash.hz k = Z1.getD k 0)

/-! ## Triple-DES -/

/-- T_KEYLOAD: byte k of TK1, TK2, TK3 and TIV is byte k, 8 + k, 16 + k and 24 + k of the keyset at SRC; AddressRange when
the 32 bytes leave DMEM (45_tdes.md R382). -/
def Obligations.TKeyloadLoadsKeyset : Prop :=
  ∀ s : State,
    (4096 < s.srcOff + 32 → exec .tKeyload s = .next (failed s 6)) ∧
    (s.srcOff + 32 ≤ 4096 → Readable s s.srcOff 32 →
      ∃ ks : Keyset, exec .tKeyload s = .next (completed { s with keys := ks }) ∧
        ∀ k < 8, s.dmem.byteAt (s.srcOff + k) = some (byteOf ks.tk1 k) ∧
          s.dmem.byteAt (s.srcOff + 8 + k) = some (byteOf ks.tk2 k) ∧
          s.dmem.byteAt (s.srcOff + 16 + k) = some (byteOf ks.tk3 k) ∧
          s.dmem.byteAt (s.srcOff + 24 + k) = some (byteOf ks.tiv k))

/-- DES by its bits, counted as R370 counts them: bit j of subkey i is the key bit the tables and the rotations of the rounds
up to i name; the round function expands, adds the subkey, substitutes each six-bit group and permutes; a block is permuted,
goes through the rounds in the order of the subkeys, KS[1..16] to encrypt and KS[16..1] to decrypt, and is permuted with its
halves swapped. With it the known answer of R381 (45_tdes.md R370-R375, R381, which the spec marks as general knowledge, log
entry 16). -/
def Obligations.DesByItsBits : Prop :=
  (∀ k : Bytes, k.length = 8 → (desSubkeys k).length = 16 ∧
    ∀ i < 16, ∀ j < 48, bitFrom1 ((desSubkeys k).getD i 0) (j + 1) =
      desBitOf k (tablePC1.getD (rotatedFrom (tableShifts.take (i + 1)).sum (tablePC2.getD j 0) - 1) 0)) ∧
  (∀ (R : Word) (K : BitVec 48), ∃ (x : BitVec 48) (y : Word),
    (∀ j < 48, bitFrom1 x (j + 1) = (bitFrom1 R (tableE.getD j 0) ^^ bitFrom1 K (j + 1))) ∧
    (∀ g < 8, ∀ b : Nat → Nat, b = (fun m => (bitFrom1 x (6 * g + m)).toNat) →
      (y.extractLsb' (28 - 4 * g) 4).toNat =
        (tableS.getD g []).getD (16 * (2 * b 1 + b 6) + (8 * b 2 + 4 * b 3 + 2 * b 4 + b 5)) 0) ∧
    ∀ j < 32, bitFrom1 (desRound R K) (j + 1) = bitFrom1 y (tableP.getD j 0)) ∧
  (∀ (k x out : Bytes) (order : List (BitVec 48)), x.length = 8 →
    (out = desEncrypt k x ∧ order = desSubkeys k ∨ out = desDecrypt k x ∧ order = (desSubkeys k).reverse) →
    ∃ L R L' R' : Word,
      (∀ j < 32, bitFrom1 L (j + 1) = desBitOf x (tableIP.getD j 0) ∧
        bitFrom1 R (j + 1) = desBitOf x (tableIP.getD (32 + j) 0)) ∧
      order.foldl (fun p K => (p.2, p.1 ^^^ desRound p.2 K)) (L, R) = (L', R') ∧ out.length = 8 ∧
      ∀ j < 64, desBitOf out (j + 1) = bitFrom1 (R' ++ L') (tableFP.getD j 0)) ∧
  desEncrypt [0x01, 0x23, 0x45, 0x67, 0x89, 0xAB, 0xCD, 0xEF] [0x4E, 0x6F, 0x77, 0x20, 0x69, 0x73, 0x20, 0x74] =
    [0x3F, 0xA4, 0x0E, 0x8A, 0x98, 0x4D, 0x48, 0x15]

/-- DES decryption undoes encryption for every key and block, and so does EDE3 with its keys k1, k2, k3 in that order
(45_tdes.md R375, R376). -/
def Obligations.DesRoundTrip : Prop :=
  (∀ k x : Bytes, x.length = 8 → desDecrypt k (desEncrypt k x) = x ∧ desEncrypt k (desDecrypt k x) = x) ∧
  ∀ (ks : Keyset) (x : Bytes),
    ede3Encrypt ks x = desEncrypt (toLE64 ks.tk3) (desDecrypt (toLE64 ks.tk2) (desEncrypt (toLE64 ks.tk1) x)) ∧
    ede3Decrypt ks x = desDecrypt (toLE64 ks.tk1) (desEncrypt (toLE64 ks.tk2) (desDecrypt (toLE64 ks.tk3) x)) ∧
    (x.length = 8 → ede3Decrypt ks (ede3Encrypt ks x) = x)

/-- CBC: block c of the ciphertext is EDE3_E of block c XOR the previous ciphertext block, the IV before the first;
decryption is EDE3_D of block c XOR the previous ciphertext block; and it gives the string back (45_tdes.md R377). -/
def Obligations.CbcChains : Prop :=
  ∀ (ks : Keyset) (B : Bytes), B.length % 8 = 0 →
    (cbcEncrypt ks B).length = B.length ∧ (cbcDecrypt ks B).length = B.length ∧
    cbcDecrypt ks (cbcEncrypt ks B) = B ∧
    ∀ c < B.length / 8,
      slice (cbcEncrypt ks B) (8 * c) (8 * c + 8) =
        ede3Encrypt ks (xorBytes (slice B (8 * c) (8 * c + 8))
          (if c = 0 then toLE64 ks.tiv else slice (cbcEncrypt ks B) (8 * c - 8) (8 * c))) ∧
      slice (cbcDecrypt ks B) (8 * c) (8 * c + 8) =
        xorBytes (ede3Decrypt ks (slice B (8 * c) (8 * c + 8)))
          (if c = 0 then toLE64 ks.tiv else slice B (8 * c - 8) (8 * c))

/-- The frame of P is its length as eight little-endian bytes, P, and v bytes of value v, up to a multiple of 8; the parse
accepts exactly the strings length ‖ P ‖ v bytes of value v with 1 ≤ v ≤ 8, and gives P (45_tdes.md R378, R379). -/
def Obligations.FramesParse : Prop :=
  (∀ P : Bytes,
    frame P = leBytes 8 P.length ++ P ++ List.replicate (8 - P.length % 8) (BitVec.ofNat 8 (8 - P.length % 8)) ∧
    (frame P).length = P.length + 16 - P.length % 8 ∧ (frame P).length % 8 = 0) ∧
  ∀ B P : Bytes, B.length < 2 ^ 64 →
    (unframe B = some P ↔
      ∃ v, 1 ≤ v ∧ v ≤ 8 ∧ B = leBytes 8 P.length ++ P ++ List.replicate v (BitVec.ofNat 8 v))

/-- T_FRMENC: AddressRange for the input, then for the N bytes of output; otherwise the encrypted frame goes to
DMEM[DST..DST+N) and OUTLEN = N: the self-check never fails (45_tdes.md R383). -/
def Obligations.FrmencEncryptsFrame : Prop :=
  ∀ (s : State) (N : Nat), N = s.lenBytes + 16 - s.lenBytes % 8 →
    (4096 < s.srcOff + s.lenBytes ∨ 4096 < s.dstOff + N → exec .tFrmenc s = .next (failed s 6)) ∧
    (s.srcOff + s.lenBytes ≤ 4096 → s.dstOff + N ≤ 4096 → Readable s s.srcOff s.lenBytes →
      ∃ t, exec .tFrmenc s = .next t ∧
        StoredFrom (completed { s with io := { s.io with outlen := BitVec.ofNat 32 N } }) t s.dstOff
          (cbcEncrypt s.keys (frame (regionBytes s s.srcOff s.lenBytes))))

/-- T_FRMDEC: BufferShape when LEN is not a multiple of 8, then AddressRange for the input, then IntegrityFailure when the
parse fails, then AddressRange for the output; otherwise the plaintext goes to DMEM[DST..DST+n) and OUTLEN = n
(45_tdes.md R384). -/
def Obligations.FrmdecDecryptsFrame : Prop :=
  ∀ s : State,
    (s.lenBytes % 8 ≠ 0 → exec .tFrmdec s = .next (failed s 2)) ∧
    (s.lenBytes % 8 = 0 → 4096 < s.srcOff + s.lenBytes → exec .tFrmdec s = .next (failed s 6)) ∧
    (s.lenBytes % 8 = 0 → s.srcOff + s.lenBytes ≤ 4096 → Readable s s.srcOff s.lenBytes →
      (unframe (cbcDecrypt s.keys (regionBytes s s.srcOff s.lenBytes)) = none → exec .tFrmdec s = .next (failed s 3)) ∧
      ∀ P, unframe (cbcDecrypt s.keys (regionBytes s s.srcOff s.lenBytes)) = some P →
        (4096 < s.dstOff + P.length → exec .tFrmdec s = .next (failed s 6)) ∧
        (s.dstOff + P.length ≤ 4096 →
          ∃ t, exec .tFrmdec s = .next t ∧
            StoredFrom (completed { s with io := { s.io with outlen := BitVec.ofNat 32 P.length } }) t s.dstOff P))

/-- The frame round trip: what T_FRMENC stored, T_FRMDEC under the same keyset turns back into the plaintext
(45_tdes.md R380). -/
def Obligations.FrameCommandsRoundTrip : Prop :=
  ∀ (s t : State) (back : Word), exec .tFrmenc s = .next t → s.srcOff + s.lenBytes ≤ 4096 →
    s.dstOff + (s.lenBytes + 16 - s.lenBytes % 8) ≤ 4096 → back.toNat + s.lenBytes ≤ 4096 →
    ∃ u, exec .tFrmdec { t with io := { t.io with src := s.io.dst, dst := back, len := t.io.outlen } } = .next u ∧
      u.io.outlen = s.io.len ∧ ∀ j < s.lenBytes, u.dmem.byteAt (back.toNat + j) = s.dmem.byteAt (s.srcOff + j)
end

