-- ==== Sys2Proof/Laws/Arith.lean ====
section
/-! SUPPORT. What the functions of the modular unit compute, said once (40_modarith.md R201, R203, R205). -/

namespace Sys2Proof.Machine

/-- The residue lies in [0, m) and is congruent to x (40_modarith.md R201). -/
theorem smod_spec (x : Int) {m : Nat} (h : 0 < m) : smod x m < m ∧ x ≡ smod x m [ZMOD m] := by
  have h1 := Int.emod_nonneg x (show (m : Int) ≠ 0 by omega)
  have h2 := Int.emod_lt_of_pos x (show (0 : Int) < m by omega)
  unfold smod
  refine ⟨by omega, ?_⟩
  rw [Int.toNat_of_nonneg h1]
  exact (Int.mod_modEq _ _).symm

/-- The residue is the only such number (40_modarith.md R201). -/
theorem smod_unique {x : Int} {m r : Nat} (h : r < m) (hd : x ≡ r [ZMOD m]) : smod x m = r := by
  unfold smod
  rw [hd, Int.emod_eq_of_lt (by omega) (by omega)]
  simp

theorem smod_congr {x y : Int} {m : Nat} (h : x ≡ y [ZMOD m]) : smod x m = smod y m := by unfold smod; rw [h]

/-- On a natural number the residue is the remainder. -/
theorem smod_natCast (x m : Nat) : smod x m = x % m := by unfold smod; norm_cast

/-- What the loop of the extended Euclidean algorithm keeps, and what it ends with (40_modarith.md R205). -/
theorem egcdLoop_spec (a b : Int) (k r0 r1 : Nat) (s0 s1 t0 t1 : Int) (h0 : a * s0 + b * t0 = r0)
    (h1 : a * s1 + b * t1 = r1) (hk : r1 ≤ k) :
    ∃ d x y, egcdLoop k r0 r1 s0 s1 t0 t1 = (d, x, y) ∧ d = Nat.gcd r0 r1 ∧ a * x + b * y = d := by
  induction k generalizing r0 r1 s0 s1 t0 t1 with
  | zero =>
    obtain rfl : r1 = 0 := by omega
    exact ⟨_, _, _, rfl, by simp, h0⟩
  | succ k ih =>
    rw [egcdLoop]
    split
    · next h => subst h; exact ⟨_, _, _, rfl, by simp, h0⟩
    · next h =>
      have e : r0 - r0 / r1 * r1 = r0 % r1 := by rw [Nat.mul_comm]; exact Nat.mod_eq_sub_mul_div.symm
      have hlt := Nat.mod_lt r0 (Nat.pos_of_ne_zero h)
      have hq : ((r0 % r1 : Nat) : Int) = r0 - r1 * ((r0 / r1 : Nat) : Int) := by
        have := Nat.div_add_mod r0 r1
        omega
      obtain ⟨d, x, y, h2, h3, h4⟩ := ih r1 (r0 - r0 / r1 * r1) s1 (s0 - (r0 / r1 : Nat) * s1) t1
        (t0 - (r0 / r1 : Nat) * t1) h1 (by rw [e, hq, ← h0, ← h1]; ring) (by rw [e]; omega)
      refine ⟨d, x, y, h2, ?_, h4⟩
      rw [h3, e, Nat.gcd_comm r1, ← Nat.gcd_rec, Nat.gcd_comm]

/-- `egcd(a, b)` gives the gcd and coefficients of it (40_modarith.md R205). -/
theorem egcd_spec (a b : Nat) : ∃ d x y, egcd a b = (d, x, y) ∧ d = Nat.gcd a b ∧ (a : Int) * x + b * y = d :=
  egcdLoop_spec a b b a b 1 0 0 1 (by ring) (by ring) (le_refl _)

/-- The loop of the model is the loop of the rule (40_modarith.md R205). -/
theorem egcdLoop_euclid (k r0 r1 : Nat) (s0 s1 t0 t1 : Int) (hk : r1 ≤ k) :
    ∃ d x y, egcdLoop k r0 r1 s0 s1 t0 t1 = (d, x, y) ∧ Euclid r0 r1 s0 s1 t0 t1 d x y := by
  induction k generalizing r0 r1 s0 s1 t0 t1 with
  | zero =>
    obtain rfl : r1 = 0 := by omega
    exact ⟨_, _, _, rfl, .done _ _ _ _ _⟩
  | succ k ih =>
    rw [egcdLoop]
    split
    · next h => subst h; exact ⟨_, _, _, rfl, .done _ _ _ _ _⟩
    · next h =>
      have hlt : r0 - r0 / r1 * r1 < r1 := by
        rw [Nat.mul_comm, ← Nat.mod_eq_sub_mul_div]; exact Nat.mod_lt r0 (Nat.pos_of_ne_zero h)
      obtain ⟨d, x, y, h2, h3⟩ := ih r1 (r0 - r0 / r1 * r1) s1 (s0 - (r0 / r1 : Nat) * s1) t1
        (t0 - (r0 / r1 : Nat) * t1) (by omega)
      exact ⟨d, x, y, h2, .round _ _ _ _ _ _ _ _ _ _ h rfl h3⟩

/-- How large the coefficients of the extended Euclidean algorithm grow (40_modarith.md R205). -/
theorem egcdLoop_bound (a b : Nat) (k r0 r1 : Nat) (s0 s1 t0 t1 : Int)
    (B1 : |s0| ≤ max 1 (b : Int)) (B2 : |s1| ≤ max 1 (b : Int)) (C1 : |t0| ≤ max 1 (a : Int))
    (C2 : |t1| ≤ max 1 (a : Int))
   (e : |s1| * r0 + |s0| * r1 = b) (f : |t1| * r0 + |t0| * r1 = a) (sg : s0 * s1 ≤ 0) (tg : t0 * t1 ≤ 0) :
   ∃ d x y, egcdLoop k r0 r1 s0 s1 t0 t1 = (d, x, y) ∧ |x| ≤ max 1 (b:Int) ∧ |y| ≤ max 1 (a:Int) := by
  induction k generalizing r0 r1 s0 s1 t0 t1 with
  | zero => exact ⟨_, _, _, rfl, B1, C1⟩
  | succ k ih =>
    rw [egcdLoop]
    split
    · exact ⟨_, _, _, rfl, B1, C1⟩
    · next h =>
      have hr : ((r0 - r0 / r1 * r1 : Nat) : Int) = r0 - (r0 / r1 : Nat) * r1 := by
        rw [Nat.cast_sub (Nat.div_mul_le_self _ _)]; push_cast; ring
      have key : ∀ u0 u1 q : Int, 0 ≤ q → u0 * u1 ≤ 0 →
          |u0 - q * u1| = |u0| + q * |u1| ∧ u1 * (u0 - q * u1) ≤ 0 := by
        intro u0 u1 q hq hu
        constructor
        · rcases le_total 0 u0 with h0 | h0 <;> rcases le_total 0 u1 with h1 | h1
          · have : u0 = 0 ∨ u1 = 0 := by
              have := mul_nonneg h0 h1; have : u0 * u1 = 0 := by omega
              exact mul_eq_zero.1 this
            rcases this with rfl | rfl
            · simp [abs_mul, abs_of_nonneg hq]
            · simp
          · rw [abs_of_nonneg h0, abs_of_nonpos h1, abs_of_nonneg (by nlinarith)]; ring
          · rw [abs_of_nonpos h0, abs_of_nonneg h1, abs_of_nonpos (by nlinarith)]; ring
          · have : u0 = 0 ∨ u1 = 0 := by
              have := mul_nonneg_of_nonpos_of_nonpos h0 h1; have : u0 * u1 = 0 := by omega
              exact mul_eq_zero.1 this
            rcases this with rfl | rfl
            · simp [abs_mul, abs_of_nonneg hq]
            · simp
        · nlinarith [mul_nonneg hq (mul_self_nonneg u1)]
      obtain ⟨a1, a2⟩ := key s0 s1 (r0 / r1 : Nat) (by positivity) sg
      obtain ⟨b1, b2⟩ := key t0 t1 (r0 / r1 : Nat) (by positivity) tg
      have h1 : (1 : Int) ≤ r1 := by omega
      have e' : |s0 - ((r0 / r1 : Nat) : Int) * s1| * r1 + |s1| * ((r0 - r0 / r1 * r1 : Nat) : Int) = b := by
        rw [a1, hr, ← e]; ring
      have f' : |t0 - ((r0 / r1 : Nat) : Int) * t1| * r1 + |t1| * ((r0 - r0 / r1 * r1 : Nat) : Int) = a := by
        rw [b1, hr, ← f]; ring
      have n1 : 0 ≤ |s1| * ((r0 - r0 / r1 * r1 : Nat) : Int) := by positivity
      have n2 : 0 ≤ |t1| * ((r0 - r0 / r1 * r1 : Nat) : Int) := by positivity
      refine ih _ _ _ _ _ _ B2 ?_ C2 ?_ e' f' a2 b2
      · refine le_trans ?_ (le_max_right _ _); nlinarith [abs_nonneg (s0 - ((r0 / r1 : Nat) : Int) * s1)]
      · refine le_trans ?_ (le_max_right _ _); nlinarith [abs_nonneg (t0 - ((r0 / r1 : Nat) : Int) * t1)]

/-- There is no inverse when gcd(|a|, n) ≠ 1 (40_modarith.md R203). -/
theorem modinv_none {a : Int} {n : Nat} (h : Nat.gcd a.natAbs n ≠ 1) : modinv a n = none := by rw [modinv, if_neg h]

/-- When gcd(|a|, n) = 1 the inverse is in [0, n) and inverts a (40_modarith.md R203). -/
theorem modinv_some {a : Int} {n : Nat} (hn : 0 < n) (h : Nat.gcd a.natAbs n = 1) :
    ∃ r, modinv a n = some r ∧ r < n ∧ a * r ≡ 1 [ZMOD n] := by
  rw [modinv, if_pos h]
  obtain ⟨d, x, y, h1, h2, h3⟩ := egcd_spec (smod a n) n
  obtain ⟨h4, h5⟩ := smod_spec a hn
  obtain ⟨h6, h7⟩ := smod_spec x hn
  rw [h1]
  refine ⟨_, rfl, h6, ?_⟩
  have hd : d = 1 := by
    have hdvd : ((Nat.gcd (smod a n) n : Nat) : Int) ∣ a := by
      have e := dvd_trans (Int.natCast_dvd_natCast.2 (Nat.gcd_dvd_right (smod a n) n)) h5.symm.dvd
      simpa using dvd_add e (Int.natCast_dvd_natCast.2 (Nat.gcd_dvd_left (smod a n) n))
    have hg := Nat.dvd_gcd (Int.natCast_dvd.1 hdvd) (Nat.gcd_dvd_right (smod a n) n)
    rw [h] at hg
    rw [h2]; exact Nat.eq_one_of_dvd_one hg
  rw [hd] at h3
  have e1 : a * (smod x n : Int) ≡ smod a n * x [ZMOD n] := h5.mul h7.symm
  have e2 : (smod a n : Int) * x ≡ 1 [ZMOD n] := by
    rw [Int.modEq_iff_dvd]
    exact ⟨y, by push_cast at h3; linear_combination -h3⟩
  exact e1.trans e2

/-- The reduction of a point takes both coordinates modulo p (41_ecpoint.md R231). -/
theorem reduced_affine (x y : Nat) : (Point.affine x y).reduced = .affine (x % curveP) (y % curveP) := by
  simp [Point.reduced, smod_natCast]

end Sys2Proof.Machine
end

