-- ==== Sys2Proof/Laws/Bits.lean ====
section
/-! SUPPORT. The laws of register fields: what a field write changes, bit by bit, and the word views of registers. -/

namespace Sys2Proof.Machine

/-- Every bit of a register after a field is written. -/
theorem getLsbD_setField {n k : Nat} (v : BitVec n) (lo : Nat) (x : BitVec k) (i : Nat) :
    (setField v lo x).getLsbD i =
      (decide (i < n) && if lo ≤ i ∧ i < lo + k then x.getLsbD (i - lo) else v.getLsbD i) := by
  simp only [setField, BitVec.getLsbD_or, BitVec.getLsbD_and, BitVec.getLsbD_not, BitVec.getLsbD_shiftLeft,
    BitVec.getLsbD_setWidth, BitVec.getLsbD_allOnes]
  by_cases hn : i < n
  · by_cases hlo : lo ≤ i
    · by_cases hk : i < lo + k
      · simp [hn, hlo, hk, show i - lo < n by omega, show i - lo < k by omega, show ¬ i < lo by omega]
      · have hx : x.getLsbD (i - lo) = false := BitVec.getLsbD_of_ge _ _ (by omega)
        simp [hn, hk, hx, show ¬ (i - lo < k) by omega]
    · simp [hn, hlo, show i < lo by omega]
  · simp [hn]

/-- Every bit of a word of a register (10_state.md R51). -/
theorem getLsbD_wordOf {n : Nat} (v : BitVec n) (j i : Nat) :
    (wordOf v j).getLsbD i = (decide (i < 32) && v.getLsbD (32 * j + i)) := by
  simp [wordOf, BitVec.getLsbD_extractLsb']

/-- A word of a register reads back what was written to it (10_state.md R51). -/
theorem wordOf_setWord_self {n : Nat} (v : BitVec n) {j : Nat} (w : Word) (h : 32 * j + 32 ≤ n) :
    wordOf (setWord v j w) j = w := by
  apply BitVec.eq_of_getLsbD_eq
  intro i hi
  rw [getLsbD_wordOf, setWord, getLsbD_setField]
  simp [hi, show 32 * j + i < n by omega]

/-- Writing a word leaves every other word of the register (10_state.md R51). -/
theorem wordOf_setWord_of_ne {n : Nat} (v : BitVec n) {j k : Nat} (w : Word) (h : k ≠ j) :
    wordOf (setWord v j w) k = wordOf v k := by
  apply BitVec.eq_of_getLsbD_eq
  intro i hi
  rw [getLsbD_wordOf, getLsbD_wordOf, setWord, getLsbD_setField]
  by_cases hn : 32 * k + i < n
  · rw [if_neg (by omega)]; simp [hi, hn]
  · simp [BitVec.getLsbD_of_ge v (32 * k + i) (by omega), hn]

/-- Two registers with equal words are equal. -/
theorem eq_of_wordOf_eq {n : Nat} {v w : BitVec n} (m : Nat) (hn : n = 32 * m) (h : ∀ j < m, wordOf v j = wordOf w j) :
    v = w := by
  apply BitVec.eq_of_getLsbD_eq
  intro i hi
  have hb := congrArg (fun x : Word => x.getLsbD (i % 32)) (h (i / 32) (by omega))
  simp only [getLsbD_wordOf] at hb
  have h32 : i % 32 < 32 := Nat.mod_lt _ (by norm_num)
  rw [show 32 * (i / 32) + i % 32 = i by omega] at hb
  simpa [h32] using hb

/-- The words of a register packed from words. -/
theorem wordOf_packWords {n : Nat} (ws : List Word) {j : Nat} (hj : j < ws.length) (hn : 32 * j + 32 ≤ n) :
    wordOf (packWords ws : BitVec n) j = ws[j] := by
  have key : ∀ (ws : List Word) (j : Nat) (hj : j < ws.length),
      (ws.foldr (fun w acc => w.toNat + 2 ^ 32 * acc) 0) >>> (32 * j) % 2 ^ 32 = (ws[j]).toNat := by
    intro ws
    induction ws with
    | nil => intro j hj; simp at hj
    | cons w ws ih =>
      intro j hj
      have hw := w.isLt
      cases j with
      | zero => simp only [List.foldr_cons, List.getElem_cons_zero, Nat.mul_zero, Nat.shiftRight_zero]; omega
      | succ j =>
        simp only [List.foldr_cons, List.getElem_cons_succ]
        rw [← ih j (by simpa using hj), show 32 * (j + 1) = 32 + 32 * j by ring, Nat.shiftRight_add,
          Nat.shiftRight_eq_div_pow _ 32]
        congr 2
        omega
  apply BitVec.eq_of_toNat_eq
  rw [wordOf, BitVec.extractLsb'_toNat, packWords, BitVec.toNat_ofNat, ← key ws j hj,
    Nat.shiftRight_eq_div_pow, Nat.shiftRight_eq_div_pow]
  obtain ⟨d, rfl⟩ : ∃ d, n = 32 * j + (32 + d) := ⟨n - 32 * j - 32, by omega⟩
  rw [pow_add, Nat.mod_mul_right_div_self, pow_add, Nat.mod_mul_right_mod]

end Sys2Proof.Machine
end

