-- ==== Sys2Proof/Laws/Bytes.lean ====
section
/-! SUPPORT. The laws of byte strings: lengths, and the integer conversions as inverses of each other. -/

namespace Sys2Proof.Machine

@[simp] theorem length_leBytes (k v : Nat) : (leBytes k v).length = k := by
  induction k generalizing v with
  | zero => rfl
  | succ k ih => simp [leBytes, ih]

@[simp] theorem length_beBytes (k v : Nat) : (beBytes k v).length = k := by simp [beBytes]
@[simp] theorem length_toLE32 (w : Word) : (toLE32 w).length = 4 := length_leBytes _ _
@[simp] theorem length_toLE64 (w : DWord) : (toLE64 w).length = 8 := length_leBytes _ _
@[simp] theorem length_toLE256 (w : U256) : (toLE256 w).length = 32 := length_leBytes _ _
@[simp] theorem length_toBE64 (w : DWord) : (toBE64 w).length = 8 := length_beBytes _ _
@[simp] theorem length_zeros (n : Nat) : (zeros n).length = n := by simp [zeros]
@[simp] theorem length_xorBytes (b c : Bytes) : (xorBytes b c).length = min b.length c.length := by simp [xorBytes]
@[simp] theorem length_slice (b : Bytes) (i j : Nat) : (slice b i j).length = min (j - i) (b.length - i) := by
  simp [slice]

theorem leNat_lt (b : Bytes) : leNat b < 256 ^ b.length := by
  induction b with
  | nil => simp [leNat]
  | cons x b ih =>
    have := x.isLt
    simp only [leNat, List.length_cons, pow_succ]
    omega

/-- Reading back the k bytes written for a value gives the value modulo 256^k. -/
theorem leNat_leBytes (k v : Nat) : leNat (leBytes k v) = v % 256 ^ k := by
  induction k generalizing v with
  | zero => simp [leBytes, leNat, Nat.mod_one]
  | succ k ih =>
    rw [leBytes, leNat, ih, BitVec.toNat_ofNat, show (256 : Nat) ^ (k + 1) = 256 * 256 ^ k from pow_succ' 256 k,
      Nat.mod_mul]

/-- Writing the bytes of the value read from a string gives the string. -/
theorem leBytes_leNat (b : Bytes) : leBytes b.length (leNat b) = b := by
  induction b with
  | nil => rfl
  | cons x b ih =>
    have hx := x.isLt
    simp only [List.length_cons, leBytes, leNat]
    rw [show (x.toNat + 256 * leNat b) / 256 = leNat b by omega, ih]
    congr 1
    apply BitVec.eq_of_toNat_eq
    rw [BitVec.toNat_ofNat]
    omega

theorem leBytes_mod (k v : Nat) : leBytes k (v % 256 ^ k) = leBytes k v := by
  have := leBytes_leNat (leBytes k v)
  rwa [length_leBytes, leNat_leBytes] at this

@[simp] theorem le32_toLE32 (w : Word) : le32 (toLE32 w) = w := by
  apply BitVec.eq_of_toNat_eq
  have := w.isLt
  simp only [le32, toLE32, leNat_leBytes, BitVec.toNat_ofNat]
  omega

@[simp] theorem le64_toLE64 (w : DWord) : le64 (toLE64 w) = w := by
  apply BitVec.eq_of_toNat_eq
  have := w.isLt
  simp only [le64, toLE64, leNat_leBytes, BitVec.toNat_ofNat]
  omega

@[simp] theorem le256_toLE256 (w : U256) : le256 (toLE256 w) = w := by
  apply BitVec.eq_of_toNat_eq
  have := w.isLt
  simp only [le256, toLE256, leNat_leBytes, BitVec.toNat_ofNat]
  rw [show (256 : Nat) ^ 32 = 2 ^ 256 by norm_num, Nat.mod_mod, Nat.mod_eq_of_lt this]

theorem toLE32_le32 {b : Bytes} (h : b.length = 4) : toLE32 (le32 b) = b := by
  have h1 := leNat_lt b
  rw [h] at h1
  simp only [toLE32, le32, BitVec.toNat_ofNat]
  rw [Nat.mod_eq_of_lt (by omega), ← h, leBytes_leNat]

theorem toLE64_le64 {b : Bytes} (h : b.length = 8) : toLE64 (le64 b) = b := by
  have h1 := leNat_lt b
  rw [h] at h1
  simp only [toLE64, le64, BitVec.toNat_ofNat]
  rw [Nat.mod_eq_of_lt (by omega), ← h, leBytes_leNat]

theorem toLE256_le256 {b : Bytes} (h : b.length = 32) : toLE256 (le256 b) = b := by
  have h1 := leNat_lt b
  rw [h, show (256 : Nat) ^ 32 = 2 ^ 256 by norm_num] at h1
  simp only [toLE256, le256, BitVec.toNat_ofNat]
  rw [Nat.mod_eq_of_lt h1, ← h, leBytes_leNat]

@[simp] theorem be64_toBE64 (w : DWord) : be64 (toBE64 w) = w := by
  apply BitVec.eq_of_toNat_eq
  have := w.isLt
  simp only [be64, toBE64, beNat, beBytes, List.reverse_reverse, leNat_leBytes, BitVec.toNat_ofNat]
  omega

theorem toBE64_be64 {b : Bytes} (h : b.length = 8) : toBE64 (be64 b) = b := by
  have h1 := leNat_lt b.reverse
  rw [List.length_reverse, h] at h1
  simp only [toBE64, be64, beBytes, beNat, BitVec.toNat_ofNat]
  rw [Nat.mod_eq_of_lt (by omega), show (8 : Nat) = b.reverse.length by simp [h], leBytes_leNat, List.reverse_reverse]

/-- The bytes of a number, byte k being bits 8k+7:8k of a register that holds it (00_scope.md R10, 10_state.md R52). -/
theorem leBytes_eq_map (k : Nat) {n : Nat} (v : BitVec n) :
    leBytes k v.toNat = (List.range k).map fun i => v.extractLsb' (8 * i) 8 := by
  have key : ∀ k x, leBytes k x = (List.range k).map fun i => BitVec.ofNat 8 (x >>> (8 * i)) := by
    intro k
    induction k with
    | zero => intro x; rfl
    | succ k ih =>
      intro x
      rw [leBytes, ih, List.range_succ_eq_map, List.map_cons, List.map_map]
      congr 1
      apply List.map_congr_left
      intro i _
      simp only [Function.comp, Nat.succ_eq_add_one, show 8 * (i + 1) = 8 + 8 * i by ring, Nat.shiftRight_add,
        Nat.shiftRight_eq_div_pow _ 8, show (2 : Nat) ^ 8 = 256 from rfl]
  rw [key]
  rfl

/-- Byte k of the register that holds a string is byte k of the string (10_state.md R52). -/
theorem byte_le256 {b : Bytes} (h : b.length = 32) {k : Nat} (hk : k < 32) :
    (le256 b).extractLsb' (8 * k) 8 = b.getD k 0 := by
  conv_rhs => rw [← toLE256_le256 h, toLE256, leBytes_eq_map]
  simp [List.getD_eq_getElem?_getD, hk]

/-- Byte k of the integer a string is the big-endian form of is byte 31 - k of the string (00_scope.md R10). -/
theorem byte_be256 {b : Bytes} (h : b.length = 32) {k : Nat} (hk : k < 32) :
    (be256 b).extractLsb' (8 * k) 8 = b.getD (31 - k) 0 := by
  rw [show be256 b = le256 b.reverse from rfl, byte_le256 (by simpa using h) hk]
  simp only [List.getD_eq_getElem?_getD]
  rw [List.getElem?_reverse (by omega), h]

/-- XOR with the same string twice gives the string back (00_scope.md R9). -/
theorem xorBytes_xorBytes_right {b c : Bytes} (h : b.length ≤ c.length) : xorBytes (xorBytes b c) c = b := by
  induction b generalizing c with
  | nil => simp [xorBytes]
  | cons x b ih =>
    cases c with
    | nil => simp at h
    | cons y c =>
      simp only [List.length_cons, Nat.add_le_add_iff_right] at h
      have := ih h
      simp only [xorBytes, List.zipWith_cons_cons] at this ⊢
      rw [this, BitVec.xor_assoc, BitVec.xor_self, BitVec.xor_zero]

@[simp] theorem length_blocks8 (k : Nat) (b : Bytes) : (blocks8 k b).length = k := by
  induction k generalizing b with
  | zero => rfl
  | succ k ih => simp [blocks8, ih]

/-- The blocks of a string that is long enough have eight bytes each. -/
theorem length_of_mem_blocks8 {k : Nat} {b x : Bytes} (h : 8 * k ≤ b.length) (hx : x ∈ blocks8 k b) : x.length = 8 := by
  induction k generalizing b with
  | zero => simp [blocks8] at hx
  | succ k ih =>
    rcases List.mem_cons.1 hx with rfl | hx
    · simp; omega
    · exact ih (by simp; omega) hx

/-- The blocks of a string, concatenated, are its first 8k bytes. -/
theorem flatten_blocks8 (k : Nat) (b : Bytes) : (blocks8 k b).flatten = b.take (8 * k) := by
  induction k generalizing b with
  | zero => simp [blocks8]
  | succ k ih =>
    rw [blocks8, List.flatten_cons, ih, show 8 * (k + 1) = 8 + 8 * k by ring, List.take_add]

/-- The blocks of a concatenation of blocks of eight bytes are those blocks. -/
theorem blocks8_flatten {bs : List Bytes} (h : ∀ x ∈ bs, x.length = 8) : blocks8 bs.length bs.flatten = bs := by
  induction bs with
  | nil => rfl
  | cons b bs ih =>
    have hb := h b (by simp)
    rw [List.length_cons, blocks8, List.flatten_cons, ← hb, List.take_left, List.drop_left,
      ih fun x hx => h x (by simp [hx])]

/-- Eight bytes a block, the concatenation has 8 times as many bytes as there are blocks. -/
theorem length_flatMap_of_eight {bs : List Bytes} {f : Bytes → Bytes} (h : ∀ x, (f x).length = 8) :
    (bs.flatMap f).length = 8 * bs.length := by
  induction bs with
  | nil => rfl
  | cons b bs ih => rw [List.flatMap_cons, List.length_append, ih, h, List.length_cons]; ring

end Sys2Proof.Machine
end

