-- ==== Sys2Proof/Laws/Des.lean ====
section
/-! SUPPORT. The functions of DES bit by bit, said once (45_tdes.md R370, R373, R375). -/

namespace Sys2Proof.Machine

theorem testBit_two_mul_add (x : Nat) (b : Bool) (i : Nat) :
    (2 * x + b.toNat).testBit i = if i = 0 then b else x.testBit (i - 1) := by
  cases i with
  | zero => cases b <;> simp [Nat.testBit_zero]
  | succ i =>
    rw [Nat.testBit_succ, if_neg (by omega)]
    congr 1
    cases b <;> simp; omega

/-- The bits of a number built from its most significant bit on. -/
theorem testBit_foldl (b : Nat → Bool) (T : List Nat) :
    ∀ i < T.length, (T.foldl (fun acc t => 2 * acc + (b t).toNat) 0).testBit i = b (T.getD (T.length - 1 - i) 0) := by
  induction T using List.reverseRecOn with
  | nil => intro i hi; simp at hi
  | append_singleton T t ih =>
    intro i hi
    rw [List.foldl_append, List.foldl_cons, List.foldl_nil, testBit_two_mul_add]
    simp only [List.length_append, List.length_cons, List.length_nil] at hi ⊢
    by_cases h : i = 0
    · subst h; simp
    · rw [if_neg h, ih (i - 1) (by omega)]
      congr 1
      rw [List.getD_append _ _ _ _ (by omega)]
      congr 1; omega

/-- Bit j of a permuted value is the bit the table names (45_tdes.md R370). -/
theorem permute_bit {m n : Nat} (T : List Nat) (v : BitVec m) (hT : T.length = n) {j : Nat} (hj : j < n) :
    bitFrom1 (permute n T v) (j + 1) = bitFrom1 v (T.getD j 0) := by
  unfold bitFrom1 permute
  rw [BitVec.getLsbD_ofNat, decide_eq_true (by omega), Bool.true_and,
    testBit_foldl (fun t => v.getLsbD (m - t)) T _ (by omega)]
  congr 3; omega

/-- The bits of a block as R370 numbers them. -/
theorem be64_bit (x : Bytes) (hx : x.length = 8) {t : Nat} (h1 : 1 ≤ t) (h2 : t ≤ 64) :
    bitFrom1 (be64 x) t = desBitOf x t := by
  match x, hx with
  | [a,b,c,d,e,f,g,h], _ =>
  have : be64 [a,b,c,d,e,f,g,h] = a ++ b ++ c ++ d ++ e ++ f ++ g ++ h := by
    apply BitVec.eq_of_toNat_eq
    have := a.isLt; have := b.isLt; have := c.isLt; have := d.isLt
    have := e.isLt; have := f.isLt; have := g.isLt; have := h.isLt
    simp only [be64, beNat, List.reverse_cons, List.reverse_nil, List.nil_append, List.cons_append, leNat,
      BitVec.toNat_append, BitVec.toNat_ofNat]
    iterate 7 rw [← Nat.shiftLeft_add_eq_or_of_lt (by omega)]
    simp only [Nat.shiftLeft_eq]
    omega
  rw [this]
  unfold bitFrom1 desBitOf
  simp only [BitVec.getLsbD_append]
  interval_cases t <;> simp

/-- The bits of the string of a value (45_tdes.md R375). -/
theorem toBE64_bits (v : DWord) :
    (toBE64 v).length = 8 ∧ ∀ j < 64, desBitOf (toBE64 v) (j + 1) = bitFrom1 v (j + 1) :=
  ⟨length_toBE64 v, fun j hj => by rw [← be64_bit _ (length_toBE64 v) (by omega) (by omega), be64_toBE64]⟩

/-- The bits of a rotated half (45_tdes.md R373). -/
theorem rotl28_bit (v : BitVec 28) {s : Nat} (hs : s < 28) {t : Nat} (h1 : 1 ≤ t) (h2 : t ≤ 28) :
    bitFrom1 (rotl28 v s) t = bitFrom1 v ((t - 1 + s) % 28 + 1) := by
  unfold bitFrom1 rotl28
  rw [BitVec.getLsbD_or, BitVec.getLsbD_shiftLeft, BitVec.getLsbD_ushiftRight]
  by_cases h : t - 1 + s < 28
  · rw [Nat.mod_eq_of_lt h]
    have a1 : ¬ 28 - t < s := by omega
    have a2 : 28 ≤ 28 - s + (28 - t) := by omega
    rw [BitVec.getLsbD_of_ge v _ a2]
    simp [a1, show 28 - t < 28 by omega, show 28 - t - s = 28 - (t - 1 + s + 1) by omega]
  · have e : (t - 1 + s) % 28 = t - 1 + s - 28 := by omega
    rw [e]
    have a1 : 28 - t < s := by omega
    simp [a1, show 28 - s + (28 - t) = 28 - (t - 1 + s - 28 + 1) by omega]

/-- The bits of {C, D} (45_tdes.md R373). -/
theorem append_bit (C D : BitVec 28) {p : Nat} (h1 : 1 ≤ p) (h2 : p ≤ 56) :
    bitFrom1 (C ++ D) p = if p ≤ 28 then bitFrom1 C p else bitFrom1 D (p - 28) := by
  unfold bitFrom1
  rw [BitVec.getLsbD_append]
  by_cases h : p ≤ 28
  · simp [h, show ¬ 56 - p < 28 by omega, show 56 - p - 28 = 28 - p by omega]
  · simp [h, show 56 - p < 28 by omega, show 28 - (p - 28) = 56 - p by omega]

end Sys2Proof.Machine
end

