-- ==== Sys2Proof/Laws/Memory.lean ====
section
/-! SUPPORT. The laws of DMEM: reading after writing, and the canonical form that every operation keeps. -/

namespace Sys2Proof.Machine

theorem byteAt_setByteAt (m : Memory) (a k : Nat) (b : Byte) :
    (m.setByteAt a b).byteAt k = if k = a then some b else m.byteAt k := by
  induction m with
  | nil => by_cases h : a = k <;> simp [Memory.setByteAt, Memory.byteAt, h, Ne.symm]
  | cons c m ih =>
    simp only [Memory.setByteAt]
    split
    · by_cases h : a = k <;> simp [Memory.byteAt, h, eq_comm (a := k)]
    · split
      · next h2 => by_cases h : a = k <;> simp [Memory.byteAt, h, ← h2, eq_comm (a := k)]
      · next h1 h2 =>
        simp only [Memory.byteAt, ih]
        by_cases h : c.1 = k
        · subst h; simp [Ne.symm h2]
        · simp [h]

/-- What a write leaves at each address (20_memory.md R105). -/
theorem byteAt_write (m : Memory) (off : Nat) (bs : Bytes) (k : Nat) :
    (m.write off bs).byteAt k = if off ≤ k ∧ k < off + bs.length then bs[k - off]? else m.byteAt k := by
  induction bs generalizing m off with
  | nil =>
    have : ¬(off ≤ k ∧ k < off + ([] : Bytes).length) := by simp
    rw [if_neg this]; rfl
  | cons b bs ih =>
    rw [Memory.write, ih, byteAt_setByteAt]
    by_cases h : k = off
    · subst h; simp
    · by_cases h1 : off ≤ k ∧ k < off + (b :: bs).length
      · have h2 : off + 1 ≤ k ∧ k < off + 1 + bs.length := by simp at h1; omega
        rw [if_pos h2, if_pos h1, show k - off = (k - (off + 1)) + 1 by omega]; simp
      · have h2 : ¬(off + 1 ≤ k ∧ k < off + 1 + bs.length) := by simp at h1; omega
        rw [if_neg h2, if_neg h1, if_neg h]

theorem mem_setByteAt {m : Memory} {a : Nat} {b : Byte} {c : Host.Cell} (h : c ∈ m.setByteAt a b) :
    c = (a, b) ∨ c ∈ m := by
  induction m with
  | nil => simpa [Memory.setByteAt] using h
  | cons d m ih =>
    simp only [Memory.setByteAt] at h
    split at h
    · simpa using h
    · split at h
      · simp only [List.mem_cons] at h ⊢; tauto
      · simp only [List.mem_cons] at h ⊢
        rcases h with h | h
        · exact .inr (.inl h)
        · rcases ih h with h | h <;> simp [h]

/-- Writing a byte of DMEM keeps the canonical form. -/
theorem setByteAt_wf {m : Memory} {a : Nat} (b : Byte) (h : m.wf) (ha : a < Config.dmemSize) :
    (m.setByteAt a b).wf := by
  refine ⟨?_, fun c hc => ?_⟩
  · have hp := h.1
    clear h
    induction m with
    | nil => simp [Memory.setByteAt]
    | cons d m ih =>
      rw [List.pairwise_cons] at hp
      simp only [Memory.setByteAt]
      split
      · next h1 =>
        refine List.pairwise_cons.2 ⟨fun c hc => ?_, List.pairwise_cons.2 hp⟩
        rcases List.mem_cons.1 hc with rfl | hc
        · exact h1
        · exact lt_trans h1 (hp.1 c hc)
      · split
        · next h2 => exact List.pairwise_cons.2 ⟨fun c hc => h2 ▸ hp.1 c hc, hp.2⟩
        · next h1 h2 =>
          refine List.pairwise_cons.2 ⟨fun c hc => ?_, ih hp.2⟩
          rcases mem_setByteAt hc with rfl | hc
          · simp only; omega
          · exact hp.1 c hc
  · rcases mem_setByteAt hc with rfl | hc
    · exact ha
    · exact h.2 c hc

/-- Writing a region that lies inside DMEM keeps the canonical form. -/
theorem write_wf {m : Memory} {off : Nat} {bs : Bytes} (h : m.wf) (hr : off + bs.length ≤ Config.dmemSize) :
    (m.write off bs).wf := by
  induction bs generalizing m off with
  | nil => exact h
  | cons b bs ih =>
    simp only [List.length_cons] at hr
    exact ih (setByteAt_wf b h (by omega)) (by omega)

/-- Everything a read that succeeds says: the bytes of the region, in order. -/
theorem read_ok_iff (m : Memory) (off n : Nat) (bs : Bytes) :
    m.read off n = .ok bs ↔ bs.length = n ∧ ∀ j < n, m.byteAt (off + j) = bs[j]? := by
  induction n generalizing off bs with
  | zero =>
    simp only [Memory.read, Except.ok.injEq, not_lt_zero, false_implies, implies_true, and_true, List.length_eq_zero_iff]
    exact eq_comm
  | succ n ih =>
    simp only [Memory.read]
    cases hb : m.byteAt off with
    | none =>
      constructor
      · intro h; cases h
      · rintro ⟨hl, h⟩
        have h0 := h 0 (Nat.succ_pos n)
        rw [Nat.add_zero, hb, eq_comm, List.getElem?_eq_none_iff] at h0
        omega
    | some b =>
      simp only
      cases hr : m.read (off + 1) n with
      | error a =>
        constructor
        · intro h; cases h
        · rintro ⟨hl, h⟩
          obtain ⟨c, cs, rfl⟩ : ∃ c cs, bs = c :: cs := by
            cases bs with
            | nil => simp at hl
            | cons c cs => exact ⟨c, cs, rfl⟩
          have : m.read (off + 1) n = .ok cs := (ih (off + 1) cs).2 ⟨by simpa using hl, fun j hj => by
            have := h (j + 1) (by omega)
            rw [List.getElem?_cons_succ] at this
            rw [← this]; congr 1; omega⟩
          rw [hr] at this; cases this
      | ok cs =>
        have hcs := (ih (off + 1) cs).1 hr
        simp only [Except.ok.injEq]
        constructor
        · rintro rfl
          refine ⟨by simp [hcs.1], fun j hj => ?_⟩
          cases j with
          | zero => simpa using hb
          | succ j =>
            rw [List.getElem?_cons_succ, ← hcs.2 j (by omega)]; congr 1; omega
        · rintro ⟨hl, h⟩
          cases bs with
          | nil => simp at hl
          | cons c ds =>
            have h0 := h 0 (Nat.succ_pos n)
            simp only [Nat.add_zero, hb, List.getElem?_cons_zero, Option.some.injEq] at h0
            have : m.read (off + 1) n = .ok ds := (ih (off + 1) ds).2 ⟨by simpa using hl, fun j hj => by
              have := h (j + 1) (by omega)
              rw [List.getElem?_cons_succ] at this
              rw [← this]; congr 1; omega⟩
            rw [hr] at this
            cases this
            rw [h0]

/-- A read that succeeds gives as many bytes as it was asked for. -/
theorem read_length {m : Memory} {off n : Nat} {bs : Bytes} (h : m.read off n = .ok bs) : bs.length = n :=
  ((read_ok_iff m off n bs).1 h).1

/-- Everything a read that fails says: the address it names holds no value and lies in the region, and every earlier byte
of the region holds one (20_memory.md R118). -/
theorem read_error {m : Memory} {off n a : Nat} (h : m.read off n = .error a) :
    off ≤ a ∧ a < off + n ∧ m.byteAt a = none ∧ ∀ k, off ≤ k → k < a → m.byteAt k ≠ none := by
  induction n generalizing off with
  | zero => cases h
  | succ n ih =>
    simp only [Memory.read] at h
    cases hb : m.byteAt off with
    | none => rw [hb] at h; cases h; exact ⟨le_refl _, by omega, hb, fun k h1 h2 => by omega⟩
    | some b =>
      rw [hb] at h
      simp only at h
      cases hr : m.read (off + 1) n with
      | ok bs => rw [hr] at h; cases h
      | error c =>
        rw [hr] at h; cases h
        obtain ⟨h1, h2, h3, h4⟩ := ih hr
        refine ⟨by omega, by omega, h3, fun k hk1 hk2 => ?_⟩
        by_cases hk : k = off
        · subst hk; simp [hb]
        · exact h4 k (by omega) hk2

/-- A region whose bytes all hold a value can be read. -/
theorem read_of_readable {m : Memory} {off n : Nat} (h : ∀ a, off ≤ a → a < off + n → m.byteAt a ≠ none) :
    m.read off n = .ok ((List.range n).map fun j => (m.byteAt (off + j)).getD 0) := by
  refine (read_ok_iff _ _ _ _).2 ⟨by simp, fun j hj => ?_⟩
  obtain ⟨b, hb⟩ := Option.ne_none_iff_exists'.1 (h (off + j) (by omega) (by omega))
  simp [hj, hb]

/-- A region that holds a byte without a value cannot be read. -/
theorem read_of_unreadable {m : Memory} {off n k : Nat} (h1 : off ≤ k) (h2 : k < off + n) (hk : m.byteAt k = none) :
    ∃ a, m.read off n = .error a := by
  cases hr : m.read off n with
  | error a => exact ⟨a, rfl⟩
  | ok bs =>
    obtain ⟨hl, h⟩ := (read_ok_iff _ _ _ _).1 hr
    have := h (k - off) (by omega)
    rw [show off + (k - off) = k by omega, hk, eq_comm, List.getElem?_eq_none_iff] at this
    omega

theorem byteAt_eq_some {m : Memory} (h : m.Pairwise fun c d => c.1 < d.1) (a : Nat) (b : Byte) :
    m.byteAt a = some b ↔ (a, b) ∈ m := by
  induction m with
  | nil => simp [Memory.byteAt]
  | cons c m ih =>
    rw [List.pairwise_cons] at h
    simp only [Memory.byteAt, List.mem_cons]
    by_cases hc : c.1 = a
    · rw [if_pos hc]
      constructor
      · intro hb; cases hb; left; subst hc; rfl
      · rintro (hb | hb)
        · rw [← hb]
        · have := h.1 _ hb; simp only at this; omega
    · rw [if_neg hc, ih h.2]
      constructor
      · exact .inr
      · rintro (hb | hb)
        · exact absurd (by rw [← hb]) hc
        · exact hb

/-- Equal memories are equal data: two memories in canonical form that hold the same bytes are the same list. -/
theorem eq_of_byteAt_eq {m n : Memory} (hm : m.wf) (hn : n.wf) (h : ∀ a, m.byteAt a = n.byteAt a) : m = n := by
  refine List.Perm.eq_of_pairwise (le := fun c d : Host.Cell => c.1 < d.1)
    (fun c d _ _ h1 h2 => absurd h1 (not_lt_of_gt h2)) hm.1 hn.1 ?_
  refine (List.perm_ext_iff_of_nodup ?_ ?_).2 fun c => ?_
  · exact hm.1.imp fun hcd heq => by subst heq; exact lt_irrefl _ hcd
  · exact hn.1.imp fun hcd heq => by subst heq; exact lt_irrefl _ hcd
  · rw [← byteAt_eq_some hm.1 c.1 c.2, ← byteAt_eq_some hn.1 c.1 c.2, h]

end Sys2Proof.Machine
end

