-- ==== Sys2Proof/Laws/State.lean ====
section
/-! SUPPORT. One lemma per field per update of State, each true by rfl. -/

namespace Sys2Proof.Machine

section

/-! `State.start` -/

variable (s : State) (w : Word) (d : Nat)

@[simp] theorem start_ctl : (s.start w d).ctl = { s.ctl with done := false, err := 0, vok := false, pending := some w } := rfl
@[simp] theorem start_io : (s.start w d).io = { s.io with outlen := 0 } := rfl
@[simp] theorem start_cipher : (s.start w d).cipher = s.cipher := rfl
@[simp] theorem start_hash : (s.start w d).hash = s.hash := rfl
@[simp] theorem start_sign : (s.start w d).sign = s.sign := rfl
@[simp] theorem start_point : (s.start w d).point = s.point := rfl
@[simp] theorem start_modu : (s.start w d).modu = s.modu := rfl
@[simp] theorem start_keys : (s.start w d).keys = s.keys := rfl
@[simp] theorem start_dmem : (s.start w d).dmem = s.dmem := rfl
@[simp] theorem start_env : (s.start w d).env = { s.env with delay := d } := rfl

end

section

/-! `State.accept` -/

variable (s : State) (w : Word)

@[simp] theorem accept_ctl : (s.accept w).ctl = { s.ctl with done := false, err := 0, vok := false, pending := some w } := rfl
@[simp] theorem accept_io : (s.accept w).io = { s.io with outlen := 0 } := rfl
@[simp] theorem accept_cipher : (s.accept w).cipher = s.cipher := rfl
@[simp] theorem accept_hash : (s.accept w).hash = s.hash := rfl
@[simp] theorem accept_sign : (s.accept w).sign = s.sign := rfl
@[simp] theorem accept_point : (s.accept w).point = s.point := rfl
@[simp] theorem accept_modu : (s.accept w).modu = s.modu := rfl
@[simp] theorem accept_keys : (s.accept w).keys = s.keys := rfl
@[simp] theorem accept_dmem : (s.accept w).dmem = s.dmem := rfl
@[simp] theorem accept_env : (s.accept w).env = 
    { s.env with delay := Config.completionDelay s.env.draws, draws := s.env.draws + 1 } := rfl

end

section

/-! `State.finishOk` -/

variable (s : State)

@[simp] theorem finishOk_ctl : (s.finishOk).ctl = { s.ctl with pending := none, done := true } := rfl
@[simp] theorem finishOk_io : (s.finishOk).io = s.io := rfl
@[simp] theorem finishOk_cipher : (s.finishOk).cipher = s.cipher := rfl
@[simp] theorem finishOk_hash : (s.finishOk).hash = s.hash := rfl
@[simp] theorem finishOk_sign : (s.finishOk).sign = s.sign := rfl
@[simp] theorem finishOk_point : (s.finishOk).point = s.point := rfl
@[simp] theorem finishOk_modu : (s.finishOk).modu = s.modu := rfl
@[simp] theorem finishOk_keys : (s.finishOk).keys = s.keys := rfl
@[simp] theorem finishOk_dmem : (s.finishOk).dmem = s.dmem := rfl
@[simp] theorem finishOk_env : (s.finishOk).env = s.env := rfl

end

section

/-! `State.raiseError` -/

variable (s : State) (e : ErrCode)

@[simp] theorem raiseError_ctl : (s.raiseError e).ctl = { s.ctl with err := e.code, pending := none, done := true } := rfl
@[simp] theorem raiseError_io : (s.raiseError e).io = s.io := rfl
@[simp] theorem raiseError_cipher : (s.raiseError e).cipher = s.cipher := rfl
@[simp] theorem raiseError_hash : (s.raiseError e).hash = s.hash := rfl
@[simp] theorem raiseError_sign : (s.raiseError e).sign = s.sign := rfl
@[simp] theorem raiseError_point : (s.raiseError e).point = s.point := rfl
@[simp] theorem raiseError_modu : (s.raiseError e).modu = s.modu := rfl
@[simp] theorem raiseError_keys : (s.raiseError e).keys = s.keys := rfl
@[simp] theorem raiseError_dmem : (s.raiseError e).dmem = s.dmem := rfl
@[simp] theorem raiseError_env : (s.raiseError e).env = s.env := rfl

end

section

/-! `State.writeOutput` -/

variable (s : State) (out : Bytes)

@[simp] theorem writeOutput_ctl : (s.writeOutput out).ctl = s.ctl := rfl
@[simp] theorem writeOutput_io : (s.writeOutput out).io = { s.io with outlen := BitVec.ofNat 32 out.length } := rfl
@[simp] theorem writeOutput_cipher : (s.writeOutput out).cipher = s.cipher := rfl
@[simp] theorem writeOutput_hash : (s.writeOutput out).hash = s.hash := rfl
@[simp] theorem writeOutput_sign : (s.writeOutput out).sign = s.sign := rfl
@[simp] theorem writeOutput_point : (s.writeOutput out).point = s.point := rfl
@[simp] theorem writeOutput_modu : (s.writeOutput out).modu = s.modu := rfl
@[simp] theorem writeOutput_keys : (s.writeOutput out).keys = s.keys := rfl
@[simp] theorem writeOutput_dmem : (s.writeOutput out).dmem = s.dmem.write s.io.dst.toNat out := rfl
@[simp] theorem writeOutput_env : (s.writeOutput out).env = s.env := rfl

end

section

/-! `State.softReset` -/

variable (s : State)

@[simp] theorem softReset_ctl : (s.softReset).ctl = State.reset.ctl := rfl
@[simp] theorem softReset_io : (s.softReset).io = State.reset.io := rfl
@[simp] theorem softReset_cipher : (s.softReset).cipher = State.reset.cipher := rfl
@[simp] theorem softReset_hash : (s.softReset).hash = State.reset.hash := rfl
@[simp] theorem softReset_sign : (s.softReset).sign = State.reset.sign := rfl
@[simp] theorem softReset_point : (s.softReset).point = State.reset.point := rfl
@[simp] theorem softReset_modu : (s.softReset).modu = State.reset.modu := rfl
@[simp] theorem softReset_keys : (s.softReset).keys = State.reset.keys := rfl
@[simp] theorem softReset_dmem : (s.softReset).dmem = s.dmem := rfl
@[simp] theorem softReset_env : (s.softReset).env = s.env := rfl

end

section

/-! `State.powerOn` -/

variable (s : State)

@[simp] theorem powerOn_ctl : (s.powerOn).ctl = State.reset.ctl := rfl
@[simp] theorem powerOn_io : (s.powerOn).io = State.reset.io := rfl
@[simp] theorem powerOn_cipher : (s.powerOn).cipher = State.reset.cipher := rfl
@[simp] theorem powerOn_hash : (s.powerOn).hash = State.reset.hash := rfl
@[simp] theorem powerOn_sign : (s.powerOn).sign = State.reset.sign := rfl
@[simp] theorem powerOn_point : (s.powerOn).point = State.reset.point := rfl
@[simp] theorem powerOn_modu : (s.powerOn).modu = State.reset.modu := rfl
@[simp] theorem powerOn_keys : (s.powerOn).keys = State.reset.keys := rfl
@[simp] theorem powerOn_dmem : (s.powerOn).dmem = State.reset.dmem := rfl
@[simp] theorem powerOn_env : (s.powerOn).env = s.env := rfl

end

section

/-! `State.noteRead` -/

variable (s : State) (addr : Nat) (v : Word)

@[simp] theorem noteRead_ctl : (s.noteRead addr v).ctl = s.ctl := rfl
@[simp] theorem noteRead_io : (s.noteRead addr v).io = s.io := rfl
@[simp] theorem noteRead_cipher : (s.noteRead addr v).cipher = s.cipher := rfl
@[simp] theorem noteRead_hash : (s.noteRead addr v).hash = s.hash := rfl
@[simp] theorem noteRead_sign : (s.noteRead addr v).sign = s.sign := rfl
@[simp] theorem noteRead_point : (s.noteRead addr v).point = s.point := rfl
@[simp] theorem noteRead_modu : (s.noteRead addr v).modu = s.modu := rfl
@[simp] theorem noteRead_keys : (s.noteRead addr v).keys = s.keys := rfl
@[simp] theorem noteRead_dmem : (s.noteRead addr v).dmem = s.dmem := rfl
@[simp] theorem noteRead_env : (s.noteRead addr v).env = { s.env with seen := ⟨addr, v⟩ :: s.env.seen } := rfl

end

section

/-! `State.draw` -/

variable (s : State)

@[simp] theorem draw_ctl : (s.draw).ctl = s.ctl := rfl
@[simp] theorem draw_io : (s.draw).io = s.io := rfl
@[simp] theorem draw_cipher : (s.draw).cipher = s.cipher := rfl
@[simp] theorem draw_hash : (s.draw).hash = s.hash := rfl
@[simp] theorem draw_sign : (s.draw).sign = s.sign := rfl
@[simp] theorem draw_point : (s.draw).point = s.point := rfl
@[simp] theorem draw_modu : (s.draw).modu = s.modu := rfl
@[simp] theorem draw_keys : (s.draw).keys = s.keys := rfl
@[simp] theorem draw_dmem : (s.draw).dmem = s.dmem := rfl
@[simp] theorem draw_env : (s.draw).env = { s.env with draws := s.env.draws + 1 } := rfl

end

section

/-! `State.takeEvent` -/

variable (s : State) (rest : List HostEvent)

@[simp] theorem takeEvent_ctl : (s.takeEvent rest).ctl = s.ctl := rfl
@[simp] theorem takeEvent_io : (s.takeEvent rest).io = s.io := rfl
@[simp] theorem takeEvent_cipher : (s.takeEvent rest).cipher = s.cipher := rfl
@[simp] theorem takeEvent_hash : (s.takeEvent rest).hash = s.hash := rfl
@[simp] theorem takeEvent_sign : (s.takeEvent rest).sign = s.sign := rfl
@[simp] theorem takeEvent_point : (s.takeEvent rest).point = s.point := rfl
@[simp] theorem takeEvent_modu : (s.takeEvent rest).modu = s.modu := rfl
@[simp] theorem takeEvent_keys : (s.takeEvent rest).keys = s.keys := rfl
@[simp] theorem takeEvent_dmem : (s.takeEvent rest).dmem = s.dmem := rfl
@[simp] theorem takeEvent_env : (s.takeEvent rest).env = { s.env with todo := rest, delay := s.env.delay - 1 } := rfl

end

/-! `State.setPointA` changes the point registers only. -/

section

variable (s : State) (p : Point)

@[simp] theorem setPointA_ctl : (s.setPointA p).ctl = s.ctl := by cases p <;> rfl
@[simp] theorem setPointA_io : (s.setPointA p).io = s.io := by cases p <;> rfl
@[simp] theorem setPointA_cipher : (s.setPointA p).cipher = s.cipher := by cases p <;> rfl
@[simp] theorem setPointA_hash : (s.setPointA p).hash = s.hash := by cases p <;> rfl
@[simp] theorem setPointA_sign : (s.setPointA p).sign = s.sign := by cases p <;> rfl
@[simp] theorem setPointA_modu : (s.setPointA p).modu = s.modu := by cases p <;> rfl
@[simp] theorem setPointA_keys : (s.setPointA p).keys = s.keys := by cases p <;> rfl
@[simp] theorem setPointA_dmem : (s.setPointA p).dmem = s.dmem := by cases p <;> rfl
@[simp] theorem setPointA_env : (s.setPointA p).env = s.env := by cases p <;> rfl

end

@[simp] theorem setPointA_infinity_point (s : State) :
    (s.setPointA .infinity).point = { s.point with paX := 0, paY := 0, paInf := true } := rfl

@[simp] theorem setPointA_affine_point (s : State) (x y : Nat) :
    (s.setPointA (.affine x y)).point =
      { s.point with paX := BitVec.ofNat 256 x, paY := BitVec.ofNat 256 y, paInf := false } := rfl

/-! BUSY after each update. -/

@[simp] theorem start_busy (s : State) (w : Word) (d : Nat) : (s.start w d).busy = true := rfl
@[simp] theorem accept_busy (s : State) (w : Word) : (s.accept w).busy = true := rfl
@[simp] theorem finishOk_busy (s : State) : s.finishOk.busy = false := rfl
@[simp] theorem raiseError_busy (s : State) (e : ErrCode) : (s.raiseError e).busy = false := rfl
@[simp] theorem softReset_busy (s : State) : s.softReset.busy = false := rfl
@[simp] theorem powerOn_busy (s : State) : s.powerOn.busy = false := rfl
@[simp] theorem noteRead_busy (s : State) (a : Nat) (v : Word) : (s.noteRead a v).busy = s.busy := rfl
@[simp] theorem draw_busy (s : State) : s.draw.busy = s.busy := rfl
@[simp] theorem takeEvent_busy (s : State) (r : List HostEvent) : (s.takeEvent r).busy = s.busy := rfl

end Sys2Proof.Machine
end

