-- ==== Sys2Proof/Laws/Ops.lean ====
section
/-! SUPPORT. What each shared operation can do, said once: completion, region checks, DMEM input and output, and one step
of the machine. -/

namespace Sys2Proof.Machine

/-- Everything a completion step that answers a next state can be (30_encoding.md R146, 60_exceptions.md R432). -/
theorem complete_next {s t : State} {e : Effect} (h : complete s e = .next t) :
    (∃ u, e = .ok u ∧ t = u.finishOk) ∨ ∃ c, e = .raise c ∧ t = s.raiseError c := by
  cases e with
  | ok u => cases h; exact .inl ⟨u, rfl, rfl⟩
  | raise c => cases h; exact .inr ⟨c, rfl, rfl⟩
  | fault f => cases h

theorem complete_fault {s : State} {e : Effect} {f : Fault} (h : complete s e = .fault f) : e = .fault f := by
  cases e with
  | ok u => cases h
  | raise c => cases h
  | fault g => cases h; rfl

theorem complete_ne_refused (s : State) (e : Effect) (r : Refusal) : complete s e ≠ .refused r := by
  cases e <;> simp [complete]

@[simp] theorem inRange_iff (base n : Nat) : inRange base n = true ↔ base + n ≤ Config.dmemSize := by
  simp [inRange]

@[simp] theorem inRange_eq_false_iff (base n : Nat) : inRange base n = false ↔ Config.dmemSize < base + n := by
  simp [inRange]

/-- Everything `readInput` can be: its continuation on the bytes of the region, or the fault of the first byte that holds
no value (20_memory.md R105, R118). -/
theorem readInput_cases (s : State) (off n : Nat) (k : Bytes → Effect) :
    (∃ b, s.dmem.read off n = .ok b ∧ b.length = n ∧ readInput s off n k = k b) ∨
    (∃ a, s.dmem.read off n = .error a ∧ off ≤ a ∧ a < off + n ∧ s.dmem.byteAt a = none ∧
      readInput s off n k = .fault (.dmemUnwritten a)) := by
  cases h : s.dmem.read off n with
  | ok b => exact .inl ⟨b, rfl, read_length h, by simp [readInput, h]⟩
  | error a =>
    obtain ⟨h1, h2, h3, -⟩ := read_error h
    exact .inr ⟨a, rfl, h1, h2, h3, by simp [readInput, h]⟩

/-- `readInput` on a region whose bytes all hold a value. -/
theorem readInput_of_read {s : State} {off n : Nat} {b : Bytes} (h : s.dmem.read off n = .ok b) (k : Bytes → Effect) :
    readInput s off n k = k b := by simp [readInput, h]

/-- Everything `readFixed32` can be (20_memory.md R104, R106). -/
theorem readFixed32_cases (s : State) (k : Bytes → Effect) :
    (Config.dmemSize < s.srcOff + 32 ∧ readFixed32 s k = .raise .addressRange) ∨
    (s.srcOff + 32 ≤ Config.dmemSize ∧ readFixed32 s k = readInput s s.srcOff 32 k) := by
  by_cases h : s.srcOff + 32 ≤ Config.dmemSize
  · right; refine ⟨h, ?_⟩; rw [readFixed32, if_pos ((inRange_iff _ _).2 h)]
  · left; refine ⟨by omega, ?_⟩; rw [readFixed32, if_neg (by rw [inRange_iff]; exact h)]

/-- What an output leaves in DMEM at each address (20_memory.md R105). -/
theorem byteAt_writeOutput (s : State) (out : Bytes) (a : Nat) :
    (s.writeOutput out).dmem.byteAt a =
      if s.dstOff ≤ a ∧ a < s.dstOff + out.length then out[a - s.dstOff]? else s.dmem.byteAt a :=
  byteAt_write _ _ _ _

/-- An output that lies inside DMEM keeps the canonical form. -/
theorem writeOutput_wf {s : State} {out : Bytes} (h : s.dmem.wf) (hr : s.dstOff + out.length ≤ Config.dmemSize) :
    (s.writeOutput out).dmem.wf := write_wf h hr

/-- The code of an error is one of 1..6 (60_exceptions.md R430). -/
theorem code_range (e : ErrCode) : 1 ≤ e.code.toNat ∧ e.code.toNat ≤ 6 := by cases e <;> decide

/-- Different errors have different codes (60_exceptions.md R430). -/
theorem code_injective {e f : ErrCode} (h : e.code = f.code) : e = f := by cases e <;> cases f <;> first | rfl | (revert h; decide)

/-- Everything `commandDue` can be (70_reset_and_hazards.md R480). -/
theorem commandDue_some {s : State} {w : Word} (h : commandDue s = some w) :
    s.ctl.pending = some w ∧ (s.env.delay = 0 ∨ s.env.todo = []) := by
  unfold commandDue at h
  split at h
  · cases h
  · next w' hw =>
    split at h
    · next hd => cases h; exact ⟨hw, hd⟩
    · cases h

theorem commandDue_of {s : State} {w : Word} (h : s.ctl.pending = some w) (hd : s.env.delay = 0 ∨ s.env.todo = []) :
    commandDue s = some w := by simp [commandDue, h, hd]

theorem commandDue_none {s : State} (h : commandDue s = none) :
    s.ctl.pending = none ∨ (0 < s.env.delay ∧ s.env.todo ≠ []) := by
  unfold commandDue at h
  split at h
  · next hp => exact .inl hp
  · split at h
    · cases h
    · next hd => rw [not_or] at hd; exact .inr ⟨Nat.pos_of_ne_zero hd.1, hd.2⟩

/-- Everything one step can be: a due command, a due illegal word, or the host's turn. -/
theorem step_cases (s : State) :
    (∃ w i, commandDue s = some w ∧ decode w = .ok i ∧ step s = exec i s) ∨
    (∃ w e, commandDue s = some w ∧ decode w = .error e ∧ step s = completeIllegal s) ∨
    (commandDue s = none ∧ step s = hostTurn s) := by
  unfold step
  cases hd : commandDue s with
  | none => exact .inr (.inr ⟨rfl, rfl⟩)
  | some w =>
    cases hw : decode w with
    | ok i => exact .inl ⟨w, i, rfl, hw, by simp [hw]⟩
    | error e => exact .inr (.inl ⟨w, e, rfl, hw, by simp [hw]⟩)

theorem apertureOffset_some {addr off : Nat} (h : apertureOffset addr = some off) :
    addr = Config.gcoreBase + off ∧ off < Config.apertureSize := by
  unfold apertureOffset at h
  split at h
  · cases h; omega
  · cases h

theorem apertureOffset_base {off : Nat} (h : off < Config.apertureSize) :
    apertureOffset (Config.gcoreBase + off) = some off := by
  unfold apertureOffset
  rw [if_pos ⟨by omega, by omega⟩]; congr 1; omega

@[simp] theorem busContract_iff (off width : Nat) : busContract off width = true ↔ width = 4 ∧ off % 4 = 0 := by
  simp [busContract]

/-- Everything a host event that answers a next state can be. -/
theorem hostEvent_next {s t : State} {ev : HostEvent} (h : hostEvent s ev = .next t) :
    (ev = .platformReset ∧ t = s.powerOn) ∨
    (∃ addr width, ev = .read addr width ∧ apertureOffset addr = none ∧ t = s) ∨
    (∃ addr width v, ev = .write addr width v ∧ apertureOffset addr = none ∧ t = s) ∨
    (∃ off, ev = .read (Config.gcoreBase + off) 4 ∧ off < Config.apertureSize ∧ off % 4 = 0 ∧
      hostReadAccess s (Config.gcoreBase + off) off = .next t) ∨
    (∃ off v, ev = .write (Config.gcoreBase + off) 4 v ∧ off < Config.apertureSize ∧ off % 4 = 0 ∧
      t = hostWriteAccess s off v) := by
  cases ev with
  | platformReset => cases h; exact .inl ⟨rfl, rfl⟩
  | read addr width =>
    simp only [hostEvent] at h
    split at h
    · next ho => cases h; exact .inr (.inl ⟨addr, width, rfl, ho, rfl⟩)
    · next off ho =>
      split at h
      · next hb =>
        obtain ⟨rfl, hl⟩ := apertureOffset_some ho
        obtain ⟨rfl, h4⟩ := (busContract_iff _ _).1 hb
        exact .inr (.inr (.inr (.inl ⟨off, rfl, hl, h4, h⟩)))
      · cases h
  | write addr width v =>
    simp only [hostEvent] at h
    split at h
    · next ho => cases h; exact .inr (.inr (.inl ⟨addr, width, v, rfl, ho, rfl⟩))
    · next off ho =>
      split at h
      · next hb =>
        obtain ⟨rfl, hl⟩ := apertureOffset_some ho
        obtain ⟨rfl, h4⟩ := (busContract_iff _ _).1 hb
        cases h
        exact .inr (.inr (.inr (.inr ⟨off, v, rfl, hl, h4, rfl⟩)))
      · cases h

/-- Everything a host read that answers a next state can be: only the model's own record changes (20_memory.md R111). -/
theorem hostReadAccess_next {s t : State} {addr off : Nat} (h : hostReadAccess s addr off = .next t) :
    (s.busy = true ∧ readableWhileBusy off = false ∧ t = s.draw.noteRead addr (Config.busyRead s.env.draws)) ∨
    (∃ v, hostReadWord s off = .ok v ∧ t = s.noteRead addr v) := by
  unfold hostReadAccess at h
  split at h
  · next hb =>
    cases h
    simp only [Bool.and_eq_true, Bool.not_eq_true'] at hb
    exact .inl ⟨hb.1, hb.2, rfl⟩
  · split at h
    · next v hv => cases h; exact .inr ⟨v, hv, rfl⟩
    · cases h

/-- Every row of the register map lies below the DMEM window, aligned (10_state.md R32). -/
theorem regMap_bounds : ∀ r ∈ regMap, r.base % 4 = 0 ∧ r.base + 4 * r.words ≤ dmemWindow := by decide

/-- The rows of the register map do not overlap (10_state.md R32). -/
theorem regMap_disjoint : regMap.Pairwise fun r q => r.base + 4 * r.words ≤ q.base := by decide

theorem regRowAt_some {off : Nat} {r : RegRow} (h : regRowAt off = some r) :
    r ∈ regMap ∧ r.base ≤ off ∧ off < r.base + 4 * r.words := by
  have h1 := List.mem_of_find?_eq_some h
  have h2 := List.find?_some h
  simp only [Bool.and_eq_true, decide_eq_true_eq] at h2
  exact ⟨h1, h2⟩

end Sys2Proof.Machine
end

