-- ==== Sys2Proof/Laws/Lengths.lean ====
section
/-! SUPPORT. The lengths of what the commands produce, and the number of bytes they store. -/

namespace Sys2Proof.Machine

@[simp] theorem length_gostBlock (S : SboxSet) (K : U256) (o : Nat → Nat) (b : Bytes) :
    (gostBlock S K o b).length = 8 := by simp [gostBlock]

@[simp] theorem length_gostEncrypt (S : SboxSet) (K : U256) (b : Bytes) : (gostEncrypt S K b).length = 8 :=
  length_gostBlock _ _ _ _

@[simp] theorem length_gostDecrypt (S : SboxSet) (K : U256) (b : Bytes) : (gostDecrypt S K b).length = 8 :=
  length_gostBlock _ _ _ _

@[simp] theorem length_gammaAdvance (g : Bytes) : (gammaAdvance g).length = 8 := by simp [gammaAdvance]

/-- An ECB output is as long as its input (42_gost89.md R273). -/
theorem length_ecb {f : Bytes → Bytes} (hf : ∀ b, (f b).length = 8) {n : Nat} (h : n % 8 = 0) (b : Bytes) :
    ((blocks8 (n / 8) b).flatMap f).length = n := by
  rw [length_flatMap_of_eight hf, length_blocks8]; omega

theorem length_gammaChunks (S : SboxSet) (K : U256) (c : Nat) (g data : Bytes) :
    (gammaChunks S K c g data).1.length = min (8 * c) data.length := by
  induction c generalizing g data with
  | zero => simp [gammaChunks]
  | succ c ih =>
    simp only [gammaChunks, List.length_append, ih, length_xorBytes, length_gostEncrypt, List.length_take,
      List.length_drop]
    omega

/-- A gamma output is as long as its input (42_gost89.md R269). -/
@[simp] theorem length_gammaTransform (S : SboxSet) (K : U256) (g data : Bytes) (first : Bool) :
    (gammaTransform S K g data first).1.length = data.length := by
  rw [gammaTransform, length_gammaChunks]; omega

theorem length_gammaChunks_block (S : SboxSet) (K : U256) (c : Nat) {g : Bytes} (h : g.length = 8) (data : Bytes) :
    (gammaChunks S K c g data).2.length = 8 := by
  induction c generalizing g data with
  | zero => exact h
  | succ c ih => exact ih (length_gammaAdvance g) _

@[simp] theorem length_psi (X : Bytes) : (psi X).length = 32 := by
  have : ∀ w : List (BitVec 16), (psiBytes w).length = 2 * w.length := by
    intro w
    induction w with
    | nil => rfl
    | cons x w ih => rw [psiBytes] at ih ⊢; rw [List.flatMap_cons, List.length_append, ih]; simp; ring
  simp [psi, this, psiWords]

/-- A step transformation gives 32 bytes (43_gost3411.md R305). -/
@[simp] theorem length_hashStep (S : SboxSet) (H M : Bytes) : (hashStep S H M).length = 32 := by
  rw [hashStep, Function.iterate_succ_apply']; exact length_psi _

/-- The digest is 32 bytes (43_gost3411.md R312). -/
@[simp] theorem length_digest (c : HashContext) : c.digest.length = 32 := length_hashStep _ _ _

@[simp] theorem length_desBlock (ks : List (BitVec 48)) (x : Bytes) : (desBlock ks x).length = 8 := by simp [desBlock]

@[simp] theorem length_ede3Encrypt (ks : Keyset) (x : Bytes) : (ede3Encrypt ks x).length = 8 := by
  simp [ede3Encrypt, desEncrypt]

@[simp] theorem length_ede3Decrypt (ks : Keyset) (x : Bytes) : (ede3Decrypt ks x).length = 8 := by
  simp [ede3Decrypt, desDecrypt]

theorem length_cbcEncryptBlocks (ks : Keyset) (prev : Bytes) (bs : List Bytes) :
    (cbcEncryptBlocks ks prev bs).length = 8 * bs.length := by
  induction bs generalizing prev with
  | nil => rfl
  | cons b bs ih => simp only [cbcEncryptBlocks, List.length_append, length_ede3Encrypt, ih, List.length_cons]; ring

theorem length_cbcDecryptBlocks (ks : Keyset) (prev : Bytes) (bs : List Bytes) (h : prev.length = 8)
    (hb : ∀ b ∈ bs, b.length = 8) : (cbcDecryptBlocks ks prev bs).length = 8 * bs.length := by
  induction bs generalizing prev with
  | nil => rfl
  | cons b bs ih =>
    simp only [cbcDecryptBlocks, List.length_append, length_xorBytes, length_ede3Decrypt, h,
      ih b (hb b (by simp)) (fun x hx => hb x (by simp [hx])), List.length_cons]
    omega

/-- A frame has N = n + 16 - n mod 8 bytes (45_tdes.md R378). -/
@[simp] theorem length_frame (P : Bytes) : (frame P).length = frameLength P.length := by
  simp only [frame, List.length_append, length_leBytes, List.length_replicate, padLength, frameLength]; omega

theorem frameLength_mod (n : Nat) : frameLength n % 8 = 0 := by simp only [frameLength]; omega

@[simp] theorem length_cbcEncrypt_frame (ks : Keyset) (P : Bytes) :
    (cbcEncrypt ks (frame P)).length = frameLength P.length := by
  have := frameLength_mod P.length
  rw [cbcEncrypt, length_cbcEncryptBlocks, length_blocks8, length_frame]; omega

end Sys2Proof.Machine
end

