-- ==== Sys2Proof/Laws/Effects.lean ====
section
/-! SUPPORT. What every command's pseudocode can come to, said once: its completion, its writes, its faults
(30_encoding.md R144, R146; 20_memory.md R118). -/

namespace Sys2Proof.Machine

/-- What the pseudocode of a command comes to. -/
def effectOf (i : Instr) (s : State) : Effect :=
  match i with
  | .nop => .ok s
  | .gKeyload => gKeyloadEffect s
  | .gSboxdef => .ok { s with cipher := { s.cipher with sbox := defaultSbox } }
  | .gEcbenc => ecbEffect (gostEncrypt s.cipher.sbox s.cipher.gkey) s
  | .gEcbdec => ecbEffect (gostDecrypt s.cipher.sbox s.cipher.gkey) s
  | .gGamma f => gGammaEffect f s
  | .hInit copy => .ok { s with hash := HashContext.initial (if copy then s.cipher.sbox else defaultSbox) }
  | .hUpdate => hUpdateEffect s
  | .hFinal => hFinalEffect s
  | .hStep => hStepEffect s
  | .ePadd => ePaddEffect s
  | .ePmul => ePmulEffect s
  | .eKeygen => eKeygenEffect s
  | .eSign => eSignEffect s
  | .eVerify => eVerifyEffect s
  | .mMod => mModEffect s
  | .mInv => mInvEffect s
  | .mEgcd => mEgcdEffect s
  | .tKeyload => tKeyloadEffect s
  | .tFrmenc => tFrmencEffect s
  | .tFrmdec => tFrmdecEffect s

/-- A command is the completion of its pseudocode (30_encoding.md R146). -/
theorem exec_complete (i : Instr) (s : State) : exec i s = complete s (effectOf i s) := by
  cases i <;> rfl

/-- Everything a command that answers a next state can be. -/
theorem exec_next {i s t} (h : exec i s = .next t) :
    (∃ u, effectOf i s = .ok u ∧ t = completed u) ∨ ∃ c, effectOf i s = .raise c ∧ t = failed s c.code := by
  rw [exec_complete] at h
  rcases complete_next h with ⟨u, h1, h2⟩ | ⟨c, h1, h2⟩
  · exact .inl ⟨u, h1, h2⟩
  · exact .inr ⟨c, h1, h2⟩

/-- An OK effect past an input was computed from the bytes of the region. -/
theorem readInput_ok {s off n k u} (h : readInput s off n k = .ok u) :
    ∃ b, s.dmem.read off n = .ok b ∧ b.length = n ∧ k b = .ok u := by
  rcases readInput_cases s off n k with ⟨b, h1, h2, h3⟩ | ⟨a, _, _, _, _, h3⟩
  · exact ⟨b, h1, h2, h3 ▸ h⟩
  · rw [h3] at h; cases h

theorem readFixed_ok {s k u} (h : readFixed32 s k = .ok u) : ∃ b, b.length = 32 ∧ k b = .ok u := by
  rcases readFixed32_cases s k with ⟨_, h3⟩ | ⟨_, h3⟩
  · rw [h3] at h; cases h
  · rw [h3] at h; obtain ⟨b, -, h2, h3⟩ := readInput_ok h; exact ⟨b, h2, h3⟩

/-- An effect that faults in an input faults at the first byte of the region that holds no value (20_memory.md R118). -/
theorem readInput_fault {s off n k f} (h : readInput s off n k = .fault f) :
    (∃ b, k b = .fault f) ∨
    ∃ a, f = .dmemUnwritten a ∧ off ≤ a ∧ a < off + n ∧ s.dmem.byteAt a = none ∧ Readable s off (a - off) := by
  cases hr : s.dmem.read off n with
  | ok b => rw [readInput_of_read hr] at h; exact .inl ⟨b, h⟩
  | error a =>
    right
    rw [readInput, hr] at h; cases h
    obtain ⟨h1, h2, h3, h4⟩ := read_error hr
    exact ⟨a, rfl, h1, h2, h3, fun k hk1 hk2 => Option.isSome_iff_ne_none.2 (h4 k hk1 (by omega))⟩

/-- What the ECB commands write (42_gost89.md R273, R274). -/
theorem ecb_ok {s u} {f : Bytes → Bytes} (hf : ∀ b, (f b).length = 8) (h : ecbEffect f s = .ok u) :
    ∃ out, out.length = s.lenBytes ∧ s.dstOff + s.lenBytes ≤ 4096 ∧ u = s.writeOutput out := by
  unfold ecbEffect at h
  split at h
  · cases h
  · next h8 =>
    split at h
    · cases h
    · next hr =>
      simp only [Bool.not_eq_true, Bool.not_eq_false', Bool.and_eq_true, inRange_iff] at hr
      obtain ⟨b, h1, h2, h3⟩ := readInput_ok h
      cases h3
      refine ⟨_, ?_, hr.2, rfl⟩
      apply length_ecb hf; omega

/-- What G_GAMMA writes (42_gost89.md R275). -/
theorem gamma_ok {s u first} (h : gGammaEffect first s = .ok u) :
    ∃ out v, out.length = s.lenBytes ∧ s.dstOff + s.lenBytes ≤ 4096 ∧
      u = { s.writeOutput out with cipher := { s.cipher with giv := v } } := by
  unfold gGammaEffect at h
  split at h
  · cases h
  · next hr =>
      simp only [Bool.not_eq_true, Bool.not_eq_false', Bool.and_eq_true, inRange_iff] at hr
      obtain ⟨b, h1, h2, h3⟩ := readInput_ok h
      cases h3
      refine ⟨_, _, ?_, hr.2, rfl⟩
      exact (length_gammaTransform s.cipher.sbox s.cipher.gkey (dwordBytes s.cipher.giv) b first).trans h2

/-- Absorbing keeps HSBOX and FIN (43_gost3411.md R308). -/
theorem absorb_keep (l : Bytes) (c : HashContext) :
    (l.foldl HashContext.absorb c).hsbox = c.hsbox ∧ (l.foldl HashContext.absorb c).fin = c.fin := by
  induction l generalizing c with
  | nil => exact ⟨rfl, rfl⟩
  | cons x l ih =>
    have : (c.absorb x).hsbox = c.hsbox ∧ (c.absorb x).fin = c.fin := by
      unfold HashContext.absorb HashContext.blockTransform; split <;> exact ⟨rfl, rfl⟩
    rw [List.foldl_cons]; rw [(ih _).1, (ih _).2]; exact this

/-- What H_UPDATE writes (43_gost3411.md R309). -/
theorem hupdate_ok {s u} (h : hUpdateEffect s = .ok u) :
    ∃ b : Bytes, b.length = s.lenBytes ∧ s.dmem.read s.srcOff s.lenBytes = .ok b ∧
      u = { s with hash := b.foldl HashContext.absorb s.hash } := by
  unfold hUpdateEffect at h
  split at h
  · cases h
  · split at h
    · cases h
    · obtain ⟨b, h1, h2, h3⟩ := readInput_ok h
      cases h3; exact ⟨b, h2, h1, rfl⟩

@[simp] theorem blockTransform_hsbox (c : HashContext) (M : Bytes) : (c.blockTransform M).hsbox = c.hsbox := by
  rw [HashContext.blockTransform]
@[simp] theorem blockTransform_hlen (c : HashContext) (M : Bytes) : (c.blockTransform M).hlen = c.hlen := by
  rw [HashContext.blockTransform]
@[simp] theorem blockTransform_fin (c : HashContext) (M : Bytes) : (c.blockTransform M).fin = c.fin := by
  rw [HashContext.blockTransform]
@[simp] theorem blockTransform_hbuf (c : HashContext) (M : Bytes) : (c.blockTransform M).hbuf = c.hbuf := by
  rw [HashContext.blockTransform]

/-- The flush keeps HSBOX and the counter (43_gost3411.md R310). -/
theorem flush_keep (c : HashContext) : c.flush.hsbox = c.hsbox ∧ c.flush.hlen = c.hlen := by
  by_cases h : c.buffered = 0
  · rw [HashContext.flush, if_pos h]; exact ⟨rfl, rfl⟩
  · rw [HashContext.flush, if_neg h, blockTransform_hsbox, blockTransform_hlen]; exact ⟨rfl, rfl⟩

/-- What H_FINAL writes (43_gost3411.md R310). -/
theorem hfinal_ok {s u} (h : hFinalEffect s = .ok u) :
    s.dstOff + 32 ≤ 4096 ∧ ∃ out : Bytes, out.length = 32 ∧ u = { s.writeOutput out with
      hash := { s.hash.flush with hh := le256 out, fin := true }
      sign := { s.sign with eH := be256 out } } := by
  rw [hFinalEffect] at h
  by_cases hf : s.hash.fin = true
  · rw [if_pos hf] at h; cases h
  · rw [if_neg hf] at h
    by_cases hr : s.dstOff + 32 ≤ 4096
    · rw [if_neg (by simp [Config.dmemSize]; omega)] at h
      exact ⟨hr, s.hash.flush.digest, length_digest _, (Effect.ok.inj h).symm⟩
    · rw [if_pos (by simp [Config.dmemSize]; omega)] at h; cases h

/-- What E_VERIFY writes (44_signer.md R343). -/
theorem everify_ok {s u} (h : eVerifyEffect s = .ok u) : u = { s with ctl := { s.ctl with vok := true } } := by
  unfold eVerifyEffect at h
  repeat' (split at h <;> try cases h)
  all_goals rfl

/-- What T_FRMENC writes (45_tdes.md R383). -/
theorem frmenc_ok {s u} (h : tFrmencEffect s = .ok u) :
    ∃ out, s.dstOff + out.length ≤ 4096 ∧ u = s.writeOutput out := by
  unfold tFrmencEffect at h
  split at h
  · cases h
  · split at h
    · cases h
    · next hr =>
      simp only [Bool.not_eq_true, Bool.not_eq_false', inRange_iff] at hr
      obtain ⟨b, h1, h2, h3⟩ := readInput_ok h
      by_cases hc : cbcDecrypt s.keys (cbcEncrypt s.keys (frame b)) ≠ frame b
      · rw [if_pos hc] at h3; cases h3
      · rw [if_neg hc] at h3; cases h3; refine ⟨_, ?_, rfl⟩; simp [h2]; exact hr

/-- What T_FRMDEC writes (45_tdes.md R384). -/
theorem frmdec_ok {s u} (h : tFrmdecEffect s = .ok u) :
    ∃ out, s.dstOff + out.length ≤ 4096 ∧ u = s.writeOutput out := by
  unfold tFrmdecEffect at h
  split at h
  · cases h
  · split at h
    · cases h
    · obtain ⟨b, h1, h2, h3⟩ := readInput_ok h
      split at h3
      · cases h3
      · split at h3
        · cases h3
        · next hr =>
          simp only [Bool.not_eq_true, Bool.not_eq_false', inRange_iff] at hr
          cases h3; exact ⟨_, hr, rfl⟩

/-- What a command over a fixed 32-byte input writes. -/
theorem fixed_ok {s u} {f : Bytes → State} (h : readFixed32 s (fun b => .ok (f b)) = .ok u) : ∃ b, u = f b := by
  obtain ⟨b, -, h⟩ := readFixed_ok h; cases h; exact ⟨b, rfl⟩

/-- What every OK effect keeps: the model's record, CTRL and STATUS but for E_VERIFY's VOK, SRC, DST and LEN, and DMEM but
for an output of OUTLEN bytes at DST (30_encoding.md R144). -/
def Writes (i : Instr) (s u : State) : Prop :=
  u.env = s.env ∧ u.ctl = { s.ctl with vok := u.ctl.vok } ∧ (i ≠ .eVerify → u.ctl.vok = s.ctl.vok) ∧
  u.io = { s.io with outlen := u.io.outlen } ∧
  ((u.io.outlen = s.io.outlen ∧ u.dmem = s.dmem) ∨
   ∃ out, s.dstOff + out.length ≤ 4096 ∧ u.io.outlen = BitVec.ofNat 32 out.length ∧
     u.dmem = s.dmem.write s.io.dst.toNat out)

/-- Everything an OK effect writes of these. -/
theorem ok_writes {i s u} (h : effectOf i s = .ok u) : Writes i s u := by
  have plain : ∀ u : State, u.env = s.env → u.ctl = s.ctl → u.io = s.io → u.dmem = s.dmem → Writes i s u := by
    intro u h1 h2 h3 h4
    exact ⟨h1, by rw [h2], fun _ => by rw [h2], by rw [h3], .inl ⟨by rw [h3], h4⟩⟩
  have store : ∀ (out : Bytes) (u : State), s.dstOff + out.length ≤ 4096 → u.env = s.env → u.ctl = s.ctl →
      u.io = { s.io with outlen := BitVec.ofNat 32 out.length } → u.dmem = s.dmem.write s.io.dst.toNat out → Writes i s u := by
    intro out u h0 h1 h2 h3 h4
    exact ⟨h1, by rw [h2], fun _ => by rw [h2], by rw [h3], .inr ⟨out, h0, by rw [h3], h4⟩⟩
  cases i with
  | nop => cases h; exact plain _ rfl rfl rfl rfl
  | gKeyload => obtain ⟨b, rfl⟩ := fixed_ok h; exact plain _ rfl rfl rfl rfl
  | gSboxdef => cases h; exact plain _ rfl rfl rfl rfl
  | gEcbenc =>
    obtain ⟨out, h1, h2, rfl⟩ := ecb_ok (length_gostEncrypt _ _) h
    exact store out _ (by omega) rfl rfl rfl rfl
  | gEcbdec => obtain ⟨out, h1, h2, rfl⟩ := ecb_ok (length_gostDecrypt _ _) h; exact store out _ (by omega) rfl rfl rfl rfl
  | gGamma f => obtain ⟨out, v, h1, h2, rfl⟩ := gamma_ok h; exact store out _ (by omega) rfl rfl rfl rfl
  | hInit c => cases h; exact plain _ rfl rfl rfl rfl
  | hUpdate => obtain ⟨b, h1, h2, rfl⟩ := hupdate_ok h; exact plain _ rfl rfl rfl rfl
  | hFinal => obtain ⟨h1, out, h2, rfl⟩ := hfinal_ok h; exact store out _ (by omega) rfl rfl rfl rfl
  | hStep => obtain ⟨b, rfl⟩ := fixed_ok h; exact plain _ rfl rfl rfl rfl
  | ePadd =>
    simp only [effectOf, ePaddEffect] at h; split at h
    · cases h
    · next r _ => cases h; cases r <;> exact plain _ rfl rfl rfl rfl
  | ePmul =>
    simp only [effectOf, ePmulEffect] at h; split at h
    · cases h
    · next r _ => cases h; cases r <;> exact plain _ rfl rfl rfl rfl
  | eKeygen =>
    simp only [effectOf, eKeygenEffect] at h
    repeat' (split at h <;> try cases h)
    exact plain _ rfl rfl rfl rfl
  | eSign =>
    simp only [effectOf, eSignEffect] at h
    repeat' (split at h <;> try cases h)
    exact plain _ rfl rfl rfl rfl
  | eVerify =>
    have := everify_ok h; subst this
    exact ⟨rfl, rfl, fun h => absurd rfl h, rfl, .inl ⟨rfl, rfl⟩⟩
  | mMod =>
    simp only [effectOf, mModEffect] at h
    repeat' (split at h <;> try cases h)
    exact plain _ rfl rfl rfl rfl
  | mInv =>
    simp only [effectOf, mInvEffect] at h
    repeat' (split at h <;> try cases h)
    exact plain _ rfl rfl rfl rfl
  | mEgcd =>
    simp only [effectOf, mEgcdEffect] at h
    repeat' (split at h <;> try cases h)
    exact plain _ rfl rfl rfl rfl
  | tKeyload => obtain ⟨b, rfl⟩ := fixed_ok h; exact plain _ rfl rfl rfl rfl
  | tFrmenc => obtain ⟨out, h1, rfl⟩ := frmenc_ok h; exact store out _ h1 rfl rfl rfl rfl
  | tFrmdec => obtain ⟨out, h1, rfl⟩ := frmdec_ok h; exact store out _ h1 rfl rfl rfl rfl

end Sys2Proof.Machine
end

