-- ==== Sys2Proof/Laws/HostBus.lean ====
section
/-! SUPPORT. What a host access can do, said once: which step it is, and everything a read or a write can change
(20_memory.md R111, R112; 30_encoding.md R145). -/

namespace Sys2Proof.Machine

/-- A run goes on after a step that answers a next state. -/
theorem run_succ {M : Host.Core} {n} {s t : M.State} {o} (h : M.step s = .next t) (h2 : M.run n t = o) :
    M.run (n + 1) s = o := by
  simp only [Host.Core.run, h, h2]

/-- When the host moves no completion is due. -/
theorem hostMoves_due {s ev rest} (h : HostMoves s ev rest) : commandDue s = none := by
  unfold commandDue
  obtain ⟨h1, h2⟩ := h
  split
  · rfl
  · next w hw => rw [hw] at h2; simp at h2; simp [h1, h2]

theorem not_due {s ev rest} (h : HostMoves s ev rest) : ¬∃ w, CompletionDue s w := by
  rintro ⟨w, h1, h2⟩
  have := hostMoves_due h
  rw [commandDue_of h1 h2] at this; cases this

/-- The step of a host event. -/
theorem step_host {s ev rest} (h : HostMoves s ev rest) : step s = hostEvent (s.takeEvent rest) ev := by
  simp [step, hostMoves_due h, hostTurn, h.1]

theorem apertureOffset_addressOf {off} (h : off < 8192) : apertureOffset (addressOf off) = some off := apertureOffset_base h

/-- The step of a host write the bus contract allows. -/
theorem step_write {s off v rest} (h : HostMoves s (.write (addressOf off) 4 v) rest) (ho : off < 8192) (h4 : off % 4 = 0) :
   step s = .next (hostWriteAccess (afterHost s rest) off v) := by
  rw [step_host h]; simp [hostEvent, apertureOffset_addressOf ho, busContract, h4]; rfl

/-- The step of a host read the bus contract allows. -/
theorem step_read {s off rest} (h : HostMoves s (.read (addressOf off) 4) rest) (ho : off < 8192) (h4 : off % 4 = 0) :
   step s = hostReadAccess (afterHost s rest) (addressOf off) off := by
  rw [step_host h]; simp [hostEvent, apertureOffset_addressOf ho, busContract, h4]; rfl

/-- Everything a step without a due completion can be: GCORE is idle, or the host's event. -/
theorem hostTurn_next {s t : State} (hn : commandDue s = none) (h : step s = .next t) :
    (s.env.todo = [] ∧ t = s) ∨ ∃ ev rest, HostMoves s ev rest ∧ hostEvent (afterHost s rest) ev = .next t := by
  have : step s = hostTurn s := by simp [step, hn]
  rw [this] at h
  unfold hostTurn at h
  split at h
  · next h0 => cases h; exact .inl ⟨h0, rfl⟩
  · next ev rest h0 =>
    refine .inr ⟨ev, rest, ⟨h0, ?_⟩, h⟩
    rcases commandDue_none hn with h | h
    · exact .inl h
    · exact .inr (by omega)

/-- A register of one word is found at its own offset alone (10_state.md R32). -/
theorem regRowAt_one_word {off base : Nat} {n : RegName} {r : RegRow}
    (hn : ∀ q ∈ regMap, q.name = n → q.base = base ∧ q.words = 1)
    (hb : base % 4 = 0) (h4 : off % 4 = 0) (h : regRowAt off = some r) (hr : r.name = n) : off = base := by
  obtain ⟨hm, h1, h2⟩ := regRowAt_some h
  obtain ⟨h3, h5⟩ := hn r hm hr
  omega

/-- Everything a host write can be: no effect, CTRL, and when nothing is pending STATUS, CMD, or a word that touches neither
STATUS nor OUTLEN (20_memory.md R111, R112). -/
theorem write_cases (s : State) (off : Nat) (v : Word) (h4 : off % 4 = 0) (ho : off < 8192) :
   hostWriteAccess s off v = s ∨
   (off = 8 ∧ hostWriteAccess s off v = writeCtrl s v) ∨
   (s.ctl.pending = none ∧
     ((off = 0xC ∧ hostWriteAccess s off v = writeStatus s v) ∨
      (off = 0x10 ∧ hostWriteAccess s off v = s.accept v) ∨
      ((hostWriteAccess s off v).ctl = s.ctl ∧ (hostWriteAccess s off v).io.outlen = s.io.outlen ∧
        (hostWriteAccess s off v).env = s.env ∧
        ((hostWriteAccess s off v).dmem = s.dmem ∨
          ∃ a b, a + List.length b ≤ 4096 ∧ (hostWriteAccess s off v).dmem = s.dmem.write a b)))) := by
  by_cases h8 : off = 8
  · subst h8
    refine .inr (.inl ⟨rfl, ?_⟩)
    simp [hostWriteAccess, writableWhileBusy]; rfl
  · by_cases hb : s.busy = true
    · left; simp [hostWriteAccess, hb, writableWhileBusy, h8]
    · have hp : s.ctl.pending = none := by simpa [State.busy] using hb
      have : hostWriteAccess s off v = hostWriteWord s off v := by simp [hostWriteAccess, hb]
      rw [this]
      unfold hostWriteWord
      split
      · split
        · next r hr =>
          cases hn : r.name with
          | ctrl => exact absurd (regRowAt_one_word (by decide) rfl h4 hr hn) h8
          | status => exact .inr (.inr ⟨hp, .inl ⟨regRowAt_one_word (by decide) rfl h4 hr hn, rfl⟩⟩)
          | cmd => exact .inr (.inr ⟨hp, .inr (.inl ⟨regRowAt_one_word (by decide) rfl h4 hr hn, rfl⟩)⟩)
          | _ => exact .inr (.inr ⟨hp, .inr (.inr ⟨rfl, rfl, rfl, .inl rfl⟩)⟩)
        · exact .inl rfl
      · next hd =>
        refine .inr (.inr ⟨hp, .inr (.inr ⟨rfl, rfl, rfl, .inr ⟨_, _, ?_, rfl⟩⟩)⟩)
        simp [dmemWindow] at hd ⊢; omega

/-- Everything a host event that answers a next state can be, the reads in one case (20_memory.md R111). -/
theorem event_cases {s t ev} (h : hostEvent s ev = .next t) :
    (ev = .platformReset ∧ t = s.powerOn) ∨
    t = s ∨
    (∃ a w, ev = .read a w ∧ t = { s with env := t.env } ∧ t.env.todo = s.env.todo ∧ t.env.delay = s.env.delay) ∨
    (∃ off v, ev = .write (addressOf off) 4 v ∧ off < 8192 ∧ off % 4 = 0 ∧ t = hostWriteAccess s off v) := by
  rcases hostEvent_next h with
    h | ⟨_, _, _, _, h⟩ | ⟨_, _, _, _, _, h⟩ | ⟨off, h1, h2, h3, h4⟩ | ⟨off, v, h1, h2, h3, h4⟩
  · exact .inl h
  · exact .inr (.inl h)
  · exact .inr (.inl h)
  · refine .inr (.inr (.inl ⟨_, _, h1, ?_⟩))
    rcases hostReadAccess_next h4 with ⟨_, _, rfl⟩ | ⟨_, _, rfl⟩ <;> exact ⟨rfl, rfl, rfl⟩
  · exact .inr (.inr (.inr ⟨off, v, h1, h2, h3, h4⟩))

/-- No row of the register map covers a reserved offset (10_state.md R67). -/
theorem reserved_row {off : Nat} (h : ReservedOffset off) : off < dmemWindow ∧ regRowAt off = none := by
  obtain ⟨h4, h⟩ := h
  refine ⟨by simp [dmemWindow]; omega, List.find?_eq_none.2 fun r hr => ?_⟩
  simp only [Bool.and_eq_true, decide_eq_true_eq, not_and, not_lt]
  fin_cases hr <;> simp <;> omega

/-- What a host access at a reserved offset does, busy or not (10_state.md R67). -/
theorem access_reserved {off : Nat} (h : ReservedOffset off) (s : State) :
    hostReadWord s off = .ok 0 ∧ (∀ addr, hostReadAccess s addr off = .next (s.noteRead addr 0)) ∧
    ∀ v, hostWriteAccess s off v = s := by
  obtain ⟨h1, h2⟩ := reserved_row h
  have hr : hostReadWord s off = .ok 0 := by simp [hostReadWord, h1, h2]
  refine ⟨hr, fun addr => ?_, fun v => ?_⟩
  · simp [hostReadAccess, readableWhileBusy, reservedOffset, h1, h2, hr]
  · unfold hostWriteAccess
    split
    · rfl
    · simp [hostWriteWord, h1, h2]

end Sys2Proof.Machine
end

