-- ==== Sys2Proof/Laws/PerInstr.lean ====
section
/-! SUPPORT. A statement made instruction by instruction: every command is well formed, and its command word has exactly
the fields the opcode map gives it (30_encoding.md R140, R142). -/

namespace Sys2Proof.Laws.FieldsOfWord

/-- The command is well formed and its word carries the fields of the opcode map. -/
def Statement (i : Instr) : Prop := i.wf = true ∧ fieldsOf (encode i) = i.fields

theorem nop : Statement .nop := by unfold Statement; decide
theorem gKeyload : Statement .gKeyload := by unfold Statement; decide
theorem gSboxdef : Statement .gSboxdef := by unfold Statement; decide
theorem gEcbenc : Statement .gEcbenc := by unfold Statement; decide
theorem gEcbdec : Statement .gEcbdec := by unfold Statement; decide
theorem gGamma (first : Bool) : Statement (.gGamma first) := by unfold Statement; cases first <;> decide
theorem hInit (copy : Bool) : Statement (.hInit copy) := by unfold Statement; cases copy <;> decide
theorem hUpdate : Statement .hUpdate := by unfold Statement; decide
theorem hFinal : Statement .hFinal := by unfold Statement; decide
theorem hStep : Statement .hStep := by unfold Statement; decide
theorem ePadd : Statement .ePadd := by unfold Statement; decide
theorem ePmul : Statement .ePmul := by unfold Statement; decide
theorem eKeygen : Statement .eKeygen := by unfold Statement; decide
theorem eSign : Statement .eSign := by unfold Statement; decide
theorem eVerify : Statement .eVerify := by unfold Statement; decide
theorem mMod : Statement .mMod := by unfold Statement; decide
theorem mInv : Statement .mInv := by unfold Statement; decide
theorem mEgcd : Statement .mEgcd := by unfold Statement; decide
theorem tKeyload : Statement .tKeyload := by unfold Statement; decide
theorem tFrmenc : Statement .tFrmenc := by unfold Statement; decide
theorem tFrmdec : Statement .tFrmdec := by unfold Statement; decide

end Sys2Proof.Laws.FieldsOfWord
end

