-- ==== Sys2Proof/Laws/Primes.lean ====
section
/-! SUPPORT. The curve prime p and the order q are prime (41_ecpoint.md R230 notes it as a consequence of the constants), by
Lucas certificates that the kernel evaluates. -/

namespace Sys2Proof.Machine

/-- The loop of a modular power by repeated squaring, least significant bit first. -/
def powModLoop (m : Nat) : Nat → Nat → Nat → Nat → Nat
  | 0, _, _, acc => acc
  | n + 1, b, e, acc => powModLoop m n (b * b % m) (e / 2) (if e % 2 = 1 then acc * b % m else acc)

/-- `b ^ e` modulo `m` for an exponent of at most 256 bits. -/
def powMod (m b e : Nat) : Nat := powModLoop m 256 b e 1 % m

theorem powModLoop_modEq (m n b e acc : Nat) (h : e < 2 ^ n) : powModLoop m n b e acc ≡ acc * b ^ e [MOD m] := by
  induction n generalizing b e acc with
  | zero =>
    obtain rfl : e = 0 := by simpa using h
    simp [powModLoop, Nat.ModEq.refl]
  | succ n ih =>
    have he : e / 2 < 2 ^ n := by rw [pow_succ] at h; omega
    refine (ih _ _ _ he).trans ?_
    have hb : (b * b % m) ^ (e / 2) ≡ (b * b) ^ (e / 2) [MOD m] := (Nat.mod_modEq _ _).pow _
    rcases Nat.mod_two_eq_zero_or_one e with h2 | h2
    · rw [if_neg (by omega)]
      refine (hb.mul_left acc).trans ?_
      rw [← pow_two, ← pow_mul, show 2 * (e / 2) = e by omega]
    · rw [if_pos h2]
      refine ((Nat.mod_modEq _ _).mul hb).trans ?_
      rw [← pow_two, ← pow_mul, mul_assoc, ← pow_succ', show 2 * (e / 2) + 1 = e by omega]

theorem powMod_eq (m b e : Nat) (h : e < 2 ^ 256) : powMod m b e = b ^ e % m := by
  have := powModLoop_modEq m 256 b e 1 h
  rwa [one_mul] at this

/-- A Lucas certificate: the factors of p - 1 and a base whose powers show that its order is p - 1. -/
def lucasCheck (p a : Nat) (fs : List Nat) : Bool :=
  decide (1 < p) && decide (p < 2 ^ 256) && decide (fs.prod = p - 1) && decide (powMod p a (p - 1) = 1) &&
    fs.all fun f => decide (powMod p a ((p - 1) / f) ≠ 1)

theorem prime_of_lucasCheck {p a : Nat} {fs : List Nat} (h : lucasCheck p a fs = true) (hf : ∀ f ∈ fs, f.Prime) :
    p.Prime := by
  simp only [lucasCheck, Bool.and_eq_true, decide_eq_true_eq, List.all_eq_true] at h
  obtain ⟨⟨⟨⟨h1, h2⟩, h3⟩, h4⟩, h5⟩ := h
  have cast : ∀ e, e < 2 ^ 256 → ((a : ZMod p) ^ e = 1 ↔ powMod p a e = 1) := by
    intro e he
    rw [powMod_eq p a e he, ← Nat.cast_pow, ← Nat.cast_one, ZMod.natCast_eq_natCast_iff, Nat.ModEq, Nat.mod_eq_of_lt h1]
  refine lucas_primality p (a : ZMod p) ((cast _ (by omega)).2 h4) fun r hr hd => ?_
  rw [← h3] at hd
  obtain ⟨f, hfm, hrf⟩ := (Prime.dvd_prod_iff hr.prime).1 hd
  obtain rfl := (Nat.prime_dvd_prime_iff_eq hr (hf f hfm)).1 hrf
  intro hc
  exact h5 r hfm ((cast _ (lt_of_le_of_lt (Nat.div_le_self _ _) (by omega))).1 hc)

theorem prime_1841821 : Nat.Prime 1841821 := by
  refine prime_of_lucasCheck (a := 14)
    (fs := [2, 2, 3, 5, 30697]) (by decide +kernel) fun f hf => ?_
  simp only [List.mem_cons, List.not_mem_nil, or_false] at hf
  rcases hf with rfl | rfl | rfl | rfl | rfl
  · norm_num
  · norm_num
  · norm_num
  · norm_num
  · norm_num

theorem prime_5367587 : Nat.Prime 5367587 := by
  refine prime_of_lucasCheck (a := 5)
    (fs := [2, 7, 383399]) (by decide +kernel) fun f hf => ?_
  simp only [List.mem_cons, List.not_mem_nil, or_false] at hf
  rcases hf with rfl | rfl | rfl
  · norm_num
  · norm_num
  · norm_num

theorem prime_11050927 : Nat.Prime 11050927 := by
  refine prime_of_lucasCheck (a := 5)
    (fs := [2, 3, 1841821]) (by decide +kernel) fun f hf => ?_
  simp only [List.mem_cons, List.not_mem_nil, or_false] at hf
  rcases hf with rfl | rfl | rfl
  · norm_num
  · norm_num
  · exact prime_1841821

theorem prime_14971823 : Nat.Prime 14971823 := by
  refine prime_of_lucasCheck (a := 5)
    (fs := [2, 31, 113, 2137]) (by decide +kernel) fun f hf => ?_
  simp only [List.mem_cons, List.not_mem_nil, or_false] at hf
  rcases hf with rfl | rfl | rfl | rfl
  · norm_num
  · norm_num
  · norm_num
  · norm_num

theorem prime_18332257 : Nat.Prime 18332257 := by
  refine prime_of_lucasCheck (a := 7)
    (fs := [2, 2, 2, 2, 2, 3, 17, 47, 239]) (by decide +kernel) fun f hf => ?_
  simp only [List.mem_cons, List.not_mem_nil, or_false] at hf
  rcases hf with rfl | rfl | rfl | rfl | rfl | rfl | rfl | rfl | rfl
  · norm_num
  · norm_num
  · norm_num
  · norm_num
  · norm_num
  · norm_num
  · norm_num
  · norm_num
  · norm_num

theorem prime_198897931 : Nat.Prime 198897931 := by
  refine prime_of_lucasCheck (a := 2)
    (fs := [2, 3, 3, 3, 3, 3, 5, 7, 11, 1063]) (by decide +kernel) fun f hf => ?_
  simp only [List.mem_cons, List.not_mem_nil, or_false] at hf
  rcases hf with rfl | rfl | rfl | rfl | rfl | rfl | rfl | rfl | rfl | rfl
  · norm_num
  · norm_num
  · norm_num
  · norm_num
  · norm_num
  · norm_num
  · norm_num
  · norm_num
  · norm_num
  · norm_num

theorem prime_198916687 : Nat.Prime 198916687 := by
  refine prime_of_lucasCheck (a := 3)
    (fs := [2, 3, 3, 11050927]) (by decide +kernel) fun f hf => ?_
  simp only [List.mem_cons, List.not_mem_nil, or_false] at hf
  rcases hf with rfl | rfl | rfl | rfl
  · norm_num
  · norm_num
  · norm_num
  · exact prime_11050927

theorem prime_339845903 : Nat.Prime 339845903 := by
  refine prime_of_lucasCheck (a := 10)
    (fs := [2, 11, 71, 97, 2243]) (by decide +kernel) fun f hf => ?_
  simp only [List.mem_cons, List.not_mem_nil, or_false] at hf
  rcases hf with rfl | rfl | rfl | rfl | rfl
  · norm_num
  · norm_num
  · norm_num
  · norm_num
  · norm_num

theorem prime_590434571 : Nat.Prime 590434571 := by
  refine prime_of_lucasCheck (a := 2)
    (fs := [2, 5, 11, 5367587]) (by decide +kernel) fun f hf => ?_
  simp only [List.mem_cons, List.not_mem_nil, or_false] at hf
  rcases hf with rfl | rfl | rfl | rfl
  · norm_num
  · norm_num
  · norm_num
  · exact prime_5367587

theorem prime_737833709 : Nat.Prime 737833709 := by
  refine prime_of_lucasCheck (a := 2)
    (fs := [2, 2, 6701, 27527]) (by decide +kernel) fun f hf => ?_
  simp only [List.mem_cons, List.not_mem_nil, or_false] at hf
  rcases hf with rfl | rfl | rfl | rfl
  · norm_num
  · norm_num
  · norm_num
  · norm_num

theorem prime_1193500123 : Nat.Prime 1193500123 := by
  refine prime_of_lucasCheck (a := 7)
    (fs := [2, 3, 198916687]) (by decide +kernel) fun f hf => ?_
  simp only [List.mem_cons, List.not_mem_nil, or_false] at hf
  rcases hf with rfl | rfl | rfl
  · norm_num
  · norm_num
  · exact prime_198916687

theorem prime_13127263447 : Nat.Prime 13127263447 := by
  refine prime_of_lucasCheck (a := 5)
    (fs := [2, 3, 11, 198897931]) (by decide +kernel) fun f hf => ?_
  simp only [List.mem_cons, List.not_mem_nil, or_false] at hf
  rcases hf with rfl | rfl | rfl | rfl
  · norm_num
  · norm_num
  · norm_num
  · exact prime_198897931

theorem prime_13128689701 : Nat.Prime 13128689701 := by
  refine prime_of_lucasCheck (a := 6)
    (fs := [2, 2, 3, 3, 5, 5, 7, 733, 2843]) (by decide +kernel) fun f hf => ?_
  simp only [List.mem_cons, List.not_mem_nil, or_false] at hf
  rcases hf with rfl | rfl | rfl | rfl | rfl | rfl | rfl | rfl | rfl
  · norm_num
  · norm_num
  · norm_num
  · norm_num
  · norm_num
  · norm_num
  · norm_num
  · norm_num
  · norm_num

theorem prime_5574219308423 : Nat.Prime 5574219308423 := by
  refine prime_of_lucasCheck (a := 5)
    (fs := [2, 186157, 14971823]) (by decide +kernel) fun f hf => ?_
  simp only [List.mem_cons, List.not_mem_nil, or_false] at hf
  rcases hf with rfl | rfl | rfl
  · norm_num
  · norm_num
  · exact prime_14971823

theorem prime_18993315337079 : Nat.Prime 18993315337079 := by
  refine prime_of_lucasCheck (a := 13)
    (fs := [2, 61, 211, 737833709]) (by decide +kernel) fun f hf => ?_
  simp only [List.mem_cons, List.not_mem_nil, or_false] at hf
  rcases hf with rfl | rfl | rfl | rfl
  · norm_num
  · norm_num
  · norm_num
  · exact prime_737833709

theorem prime_30691541939087 : Nat.Prime 30691541939087 := by
  refine prime_of_lucasCheck (a := 5)
    (fs := [2, 7, 167, 13127263447]) (by decide +kernel) fun f hf => ?_
  simp only [List.mem_cons, List.not_mem_nil, or_false] at hf
  rcases hf with rfl | rfl | rfl | rfl
  · norm_num
  · norm_num
  · norm_num
  · exact prime_13127263447

theorem prime_66890631701077 : Nat.Prime 66890631701077 := by
  refine prime_of_lucasCheck (a := 11)
    (fs := [2, 2, 3, 5574219308423]) (by decide +kernel) fun f hf => ?_
  simp only [List.mem_cons, List.not_mem_nil, or_false] at hf
  rcases hf with rfl | rfl | rfl | rfl
  · norm_num
  · norm_num
  · norm_num
  · exact prime_5574219308423

theorem prime_2997663476957267 : Nat.Prime 2997663476957267 := by
  refine prime_of_lucasCheck (a := 2)
    (fs := [2, 13, 195271, 590434571]) (by decide +kernel) fun f hf => ?_
  simp only [List.mem_cons, List.not_mem_nil, or_false] at hf
  rcases hf with rfl | rfl | rfl | rfl
  · norm_num
  · norm_num
  · norm_num
  · exact prime_590434571

theorem prime_18060470559290791 : Nat.Prime 18060470559290791 := by
  refine prime_of_lucasCheck (a := 6)
    (fs := [2, 3, 3, 3, 5, 66890631701077]) (by decide +kernel) fun f hf => ?_
  simp only [List.mem_cons, List.not_mem_nil, or_false] at hf
  rcases hf with rfl | rfl | rfl | rfl | rfl | rfl
  · norm_num
  · norm_num
  · norm_num
  · norm_num
  · norm_num
  · exact prime_66890631701077

theorem prime_124602848683861421 : Nat.Prime 124602848683861421 := by
  refine prime_of_lucasCheck (a := 2)
    (fs := [2, 2, 5, 18332257, 339845903]) (by decide +kernel) fun f hf => ?_
  simp only [List.mem_cons, List.not_mem_nil, or_false] at hf
  rcases hf with rfl | rfl | rfl | rfl | rfl
  · norm_num
  · norm_num
  · norm_num
  · exact prime_18332257
  · exact prime_339845903

theorem prime_10264479286108256281 : Nat.Prime 10264479286108256281 := by
  refine prime_of_lucasCheck (a := 22)
    (fs := [2, 2, 2, 3, 3, 5, 929, 30691541939087]) (by decide +kernel) fun f hf => ?_
  simp only [List.mem_cons, List.not_mem_nil, or_false] at hf
  rcases hf with rfl | rfl | rfl | rfl | rfl | rfl | rfl | rfl
  · norm_num
  · norm_num
  · norm_num
  · norm_num
  · norm_num
  · norm_num
  · norm_num
  · exact prime_30691541939087

theorem prime_138452816382647330969 : Nat.Prime 138452816382647330969 := by
  refine prime_of_lucasCheck (a := 3)
    (fs := [2, 2, 2, 487, 1571, 1723, 13128689701]) (by decide +kernel) fun f hf => ?_
  simp only [List.mem_cons, List.not_mem_nil, or_false] at hf
  rcases hf with rfl | rfl | rfl | rfl | rfl | rfl | rfl
  · norm_num
  · norm_num
  · norm_num
  · norm_num
  · norm_num
  · norm_num
  · exact prime_13128689701

theorem prime_324727260656048422181 : Nat.Prime 324727260656048422181 := by
  refine prime_of_lucasCheck (a := 2)
    (fs := [2, 2, 5, 29, 31, 18060470559290791]) (by decide +kernel) fun f hf => ?_
  simp only [List.mem_cons, List.not_mem_nil, or_false] at hf
  rcases hf with rfl | rfl | rfl | rfl | rfl | rfl
  · norm_num
  · norm_num
  · norm_num
  · norm_num
  · norm_num
  · exact prime_18060470559290791

theorem prime_19483635639362905330861 : Nat.Prime 19483635639362905330861 := by
  refine prime_of_lucasCheck (a := 2)
    (fs := [2, 2, 3, 5, 324727260656048422181]) (by decide +kernel) fun f hf => ?_
  simp only [List.mem_cons, List.not_mem_nil, or_false] at hf
  rcases hf with rfl | rfl | rfl | rfl | rfl
  · norm_num
  · norm_num
  · norm_num
  · norm_num
  · exact prime_324727260656048422181

theorem prime_8416529719071027336449339357 : Nat.Prime 8416529719071027336449339357 := by
  refine prime_of_lucasCheck (a := 2)
    (fs := [2, 2, 17, 283, 2459, 59333, 2997663476957267]) (by decide +kernel) fun f hf => ?_
  simp only [List.mem_cons, List.not_mem_nil, or_false] at hf
  rcases hf with rfl | rfl | rfl | rfl | rfl | rfl | rfl
  · norm_num
  · norm_num
  · norm_num
  · norm_num
  · norm_num
  · norm_num
  · exact prime_2997663476957267

theorem prime_7789952747605065635360031839228779 : Nat.Prime 7789952747605065635360031839228779 := by
  refine prime_of_lucasCheck (a := 2)
    (fs := [2, 3, 7, 22037, 8416529719071027336449339357]) (by decide +kernel) fun f hf => ?_
  simp only [List.mem_cons, List.not_mem_nil, or_false] at hf
  rcases hf with rfl | rfl | rfl | rfl | rfl
  · norm_num
  · norm_num
  · norm_num
  · norm_num
  · exact prime_8416529719071027336449339357

theorem prime_740117671222340955890061920472590039 : Nat.Prime 740117671222340955890061920472590039 := by
  refine prime_of_lucasCheck (a := 7)
    (fs := [2, 18993315337079, 19483635639362905330861]) (by decide +kernel) fun f hf => ?_
  simp only [List.mem_cons, List.not_mem_nil, or_false] at hf
  rcases hf with rfl | rfl | rfl
  · norm_num
  · exact prime_18993315337079
  · exact prime_19483635639362905330861

theorem prime_296379762614331847955351590674378453956751398521495687 : Nat.Prime 296379762614331847955351590674378453956751398521495687 := by
  refine prime_of_lucasCheck (a := 17)
    (fs := [2, 3, 29123, 1193500123, 10264479286108256281, 138452816382647330969]) (by decide +kernel) fun f hf => ?_
  simp only [List.mem_cons, List.not_mem_nil, or_false] at hf
  rcases hf with rfl | rfl | rfl | rfl | rfl | rfl
  · norm_num
  · norm_num
  · norm_num
  · exact prime_1193500123
  · exact prime_10264479286108256281
  · exact prime_138452816382647330969

theorem curveP_prime : curveP.Prime := by
  refine prime_of_lucasCheck (a := 7)
    (fs := [2, 2, 2, 2, 3, 3, 3, 5, 4649, 7789952747605065635360031839228779, 740117671222340955890061920472590039]) (by decide +kernel) fun f hf => ?_
  simp only [List.mem_cons, List.not_mem_nil, or_false] at hf
  rcases hf with rfl | rfl | rfl | rfl | rfl | rfl | rfl | rfl | rfl | rfl | rfl
  · norm_num
  · norm_num
  · norm_num
  · norm_num
  · norm_num
  · norm_num
  · norm_num
  · norm_num
  · norm_num
  · exact prime_7789952747605065635360031839228779
  · exact prime_740117671222340955890061920472590039

theorem curveQ_prime : curveQ.Prime := by
  refine prime_of_lucasCheck (a := 2)
    (fs := [2, 3, 7, 163, 229, 124602848683861421, 296379762614331847955351590674378453956751398521495687]) (by decide +kernel) fun f hf => ?_
  simp only [List.mem_cons, List.not_mem_nil, or_false] at hf
  rcases hf with rfl | rfl | rfl | rfl | rfl | rfl | rfl
  · norm_num
  · norm_num
  · norm_num
  · norm_num
  · norm_num
  · exact prime_124602848683861421
  · exact prime_296379762614331847955351590674378453956751398521495687

end Sys2Proof.Machine
end

