-- ==== Sys2Proof/Machine/HostNotation.lean ====
section
/-! DEFINITION. Host programmes: the statements of 30_encoding.md R148, the pseudo-statements of R149 as their expansions,
and the host as an agent that runs a programme against GCORE. A programme is not GCORE's state (10_state.md R31):
this file is an agent beside the machine, and `step` does not depend on it (log entry 15). -/

namespace Sys2Proof.Machine

/-- What a host access names: word `i` of a register, or `DMEM[k]`, the word at aperture offset 0x1000 + 4k (30_encoding.md
R148, R149). -/
inductive Target where
  | reg (name : RegName) (i : Nat)
  | dmem (k : Nat)
  deriving DecidableEq, Repr

/-- The value a statement writes: a number, or a value the host has named. -/
inductive Operand where
  | lit (v : Word)
  | named (t : String)
  deriving DecidableEq, Repr

/-- The statements of a host programme (30_encoding.md R148), and the host-side `and` its pseudo-statements use (R149). -/
inductive Stmt where
  /-- `name:` -/
  | label (l : String)
  /-- `wr REG[i], v` -/
  | wr (dst : Target) (v : Operand)
  /-- `rd REG[i] -> t` -/
  | rd (src : Target) (t : String)
  /-- `and t, v`: host-side. -/
  | mask (t : String) (v : Word)
  /-- `bne t, v, label` -/
  | bne (t : String) (v : Word) (l : String)
  /-- `beq t, v, label` -/
  | beq (t : String) (v : Word) (l : String)
  deriving DecidableEq, Repr

/-- A host programme. -/
abbrev Programme := List Stmt

/-- `cmd .word w` (30_encoding.md R148). -/
def cmdWord (w : Word) : Programme := [.wr (.reg .cmd 0) (.lit w)]

/-- `cmd MNEMONIC`, with .FIRST or .COPY in the command itself (30_encoding.md R148). -/
def cmdOf (i : Instr) : Programme := cmdWord (encode i)

/-- `wait`: poll STATUS until BUSY = 0 (30_encoding.md R149). The label is the local label 1; the spec does not fix the name
of the value, and the model calls it "wait" (DESIGN CHOICE, log entry 15). -/
def waitIdle : Programme :=
  [.label "1", .rd (.reg .status 0) "wait", .mask "wait" 1, .bne "wait" 0 "1"]

/-- The words of a byte string, the last one padded with zero bytes: k words (30_encoding.md R149). -/
def chunkWords : Nat → Bytes → List Word
  | 0, _ => []
  | k + 1, b => le32 (b.take 4) :: chunkWords k (b.drop 4)

/-- `wrmem off, bytes` for an offset that is a multiple of 4 (30_encoding.md R149); R149 allows no other offset, and its low
two bits are not looked at (DESIGN CHOICE, log entry 15). -/
def wrmem (off : Nat) (b : Bytes) : Programme :=
  (chunkWords ((b.length + 3) / 4) b).zipIdx.map fun p => .wr (.dmem (off / 4 + p.2)) (.lit p.1)

/-- `rdmem off, n -> t`: word k is named by `t k` (30_encoding.md R149), and the low two bits of the offset are not looked at
(DESIGN CHOICE, log entry 15). -/
def rdmem (off n : Nat) (t : Nat → String) : Programme :=
  (List.range ((n + 3) / 4)).map fun k => .rd (.dmem (off / 4 + k)) (t k)

/-- `wr256 REG, v` (30_encoding.md R149). -/
def wr256 (r : RegName) (v : U256) : Programme :=
  (List.range 8).map fun j => .wr (.reg r j) (.lit (wordOf v j))

/-- `rd256 REG -> t`: word j is named by `t j` (30_encoding.md R149). -/
def rd256 (r : RegName) (t : Nat → String) : Programme :=
  (List.range 8).map fun j => .rd (.reg r j) (t j)

/-- `ack`: clear DONE (30_encoding.md R149). -/
def ack : Programme := [.wr (.reg .status 0) (.lit 0x2)]

/-- The host address of a target; `none` for a word its register does not have. `DMEM[k]` has one for every k, outside the
aperture from k = 1024 on (log entry 15). -/
def Target.address : Target → Option Nat
  | .reg r i => (regOffset r i).map fun off => Config.gcoreBase + off
  | .dmem k => some (Config.gcoreBase + dmemWindow + 4 * k)

/-- The host: the next statement, the values it has named (newest first), and the name a read it has issued is for. -/
structure HostAgent where
  pc : Nat
  named : List (String × Word)
  awaiting : Option String
  deriving DecidableEq, Repr

/-- The value a name stands for, if the host has named one. Where a name has been given twice it stands for the newer value
(DESIGN CHOICE, log entry 15). -/
def HostAgent.value (h : HostAgent) (t : String) : Option Word :=
  (h.named.find? fun p => p.1 == t).map Prod.snd

/-- The value of an operand. -/
def HostAgent.operand (h : HostAgent) : Operand → Option Word
  | .lit v => some v
  | .named t => h.value t

/-- The position of the label `l` a branch at `pc` goes to. Where the name occurs more than once (the local label 1 of every
`wait` does) the spec does not say which is meant: the model takes the nearest one before the branch, as the `b` of `1b` in
30_encoding.md R149 suggests, and where none stands before it the first after it (DESIGN CHOICE, log entry 15). -/
def labelAt (prog : Programme) (pc : Nat) (l : String) : Option Nat :=
  match (prog.take pc).reverse.findIdx? fun st => st == .label l with
  | some back => some (pc - 1 - back)
  | none => prog.findIdx? fun st => st == .label l

/-- What the host's next statement comes to: it goes on, or it issues an access. -/
inductive HostMove where
  /-- The host goes on by itself. -/
  | silent (h : HostAgent)
  /-- The host issues an access and goes on when it has taken effect. -/
  | issue (h : HostAgent) (ev : HostEvent)
  /-- The programme is at its end. -/
  | finished
  /-- The programme uses a name, a label or a register word that does not exist (DESIGN CHOICE, log entry 15). -/
  | stuck
  deriving DecidableEq, Repr

/-- The host after its statement, at the next one. -/
def HostAgent.advance (h : HostAgent) : HostAgent := { h with pc := h.pc + 1 }

/-- A host branch, taken or not. -/
def HostAgent.branch (h : HostAgent) (prog : Programme) (taken : Bool) (l : String) : HostMove :=
  if taken then
    match labelAt prog h.pc l with
    | some k => .silent { h with pc := k }
    | none => .stuck
  else .silent h.advance

/-- The host's next statement (30_encoding.md R148). -/
def HostAgent.move (h : HostAgent) (prog : Programme) : HostMove :=
  match prog[h.pc]? with
  | none => .finished
  | some (.label _) => .silent h.advance
  | some (.wr dst v) =>
    match dst.address, h.operand v with
    | some a, some x => .issue h.advance (.write a 4 x)
    | _, _ => .stuck
  | some (.rd src t) =>
    match src.address with
    | some a => .issue { h.advance with awaiting := some t } (.read a 4)
    | none => .stuck
  | some (.mask t v) =>
    match h.value t with
    | some x => .silent { h.advance with named := (t, x &&& v) :: h.named }
    | none => .stuck
  | some (.bne t v l) =>
    match h.value t with
    | some x => h.branch prog (x != v) l
    | none => .stuck
  | some (.beq t v l) =>
    match h.value t with
    | some x => h.branch prog (x == v) l
    | none => .stuck

/-- The host and GCORE together. -/
structure System where
  host : HostAgent
  gcore : State
  deriving DecidableEq, Repr

/-- How a step of the system comes out. -/
inductive SystemOutcome where
  | next (t : System)
  | fault (f : Fault)
  | refused (r : Refusal)
  /-- The programme is stuck. -/
  | stuck
  deriving DecidableEq, Repr

/-- GCORE's own step inside the system. -/
def System.stepGcore (t : System) : SystemOutcome :=
  match step t.gcore with
  | .next s => .next { t with gcore := s }
  | .fault f => .fault f
  | .refused r => .refused r

/-- The host takes the value its read returned: the newest one noted (20_memory.md R113). A read of `DMEM[k]` with k ≥ 1024
lies outside the aperture and notes no value (item U4 of 93_implementation_defined.md, log entry 5); the host goes on all the
same, and the name then stands for the newest value an earlier read returned, or for none where there is no such value
(DESIGN CHOICE, log entry 15). -/
def HostAgent.receive (h : HostAgent) (t : String) (s : State) : HostAgent :=
  match s.env.seen with
  | r :: _ => { h with named := (t, r.value) :: h.named, awaiting := none }
  | [] => { h with awaiting := none }

/-- One step of the host and GCORE: while an access is outstanding GCORE steps (which may complete a command first);
otherwise the host takes its read value or runs its next statement, and GCORE steps when the programme has ended. -/
def System.step (prog : Programme) (t : System) : SystemOutcome :=
  if t.gcore.env.todo ≠ [] then t.stepGcore
  else
    match t.host.awaiting with
    | some name => .next { t with host := t.host.receive name t.gcore }
    | none =>
      match t.host.move prog with
      | .silent h => .next { t with host := h }
      | .issue h ev => .next { host := h, gcore := { t.gcore with env := { t.gcore.env with todo := [ev] } } }
      | .finished => t.stepGcore
      | .stuck => .stuck

/-- A host at the start of a programme and GCORE after power-on reset. -/
def System.initial : System := { host := { pc := 0, named := [], awaiting := none }, gcore := State.reset }

end Sys2Proof.Machine
end

