-- ==== Sys2Proof/Tests/Slice0.lean ====
section
/-! SUPPORT. The model's own tests: the refusals of WellFormed, decoding of words written out from 30_encoding.md R142,
single commands against the vectors of spec/95_test_vectors.md, and for each statement with hypotheses a witness that meets
them. -/

open Sys2Proof Sys2Proof.Machine

set_option exponentiation.threshold 600
set_option maxRecDepth 8000

namespace Sys2Proof.Tests

/-! ## Helpers -/

/-- One field of a next state. -/
def field {α : Type} (o : Host.Outcome State Fault Refusal) (f : State → α) : Option α :=
  match o with
  | .next t => some (f t)
  | _ => none

/-- The next state, or another state where there is none. -/
def nextOf (o : Host.Outcome State Fault Refusal) : State :=
  match o with
  | .next t => t
  | _ => State.reset

theorem next_of {o : Host.Outcome State Fault Refusal} (h : field o (fun _ => ()) = some ()) : o = .next (nextOf o) := by
  cases o with
  | next t => rfl
  | fault f => cases h
  | refused r => cases h

/-- The offset of the fault of an unwritten byte. -/
def faultAt (o : Host.Outcome State Fault Refusal) : Option Nat :=
  match o with
  | .fault (.dmemUnwritten a) => some a
  | _ => none

theorem fault_of {o : Host.Outcome State Fault Refusal} {a : Nat} (h : faultAt o = some a) : o = .fault (.dmemUnwritten a) := by
  cases o with
  | next t => cases h
  | fault f => cases f; cases h; rfl
  | refused r => cases h

/-- The reset state with `b` in DMEM from SRC on, and SRC, DST and LEN. -/
def region (src dst len : Word) (b : Bytes) : State :=
  { State.reset with dmem := Memory.write [] src.toNat b, io := { src := src, dst := dst, len := len, outlen := 0 } }

/-- The reset state with M_X and M_M. -/
def modular (x : S512) (m : U256) : State := { State.reset with modu := { State.reset.modu with mX := x, mM := m } }

/-- The reset state with PA and PB. -/
def points (ax ay bx by' : U256) (ai bi : Bool) : State :=
  { State.reset with point := { paX := ax, paY := ay, pbX := bx, pbY := by', paInf := ai, pbInf := bi } }

/-- The reset state with E_H, E_R, E_S, E_QX and E_QY. -/
def toVerify (h r sg qx qy : U256) : State :=
  { State.reset with sign := { State.reset.sign with eH := h, eR := r, eS := sg, eQX := qx, eQY := qy } }

/-- An idle GCORE before a host event. -/
def idle (ev : HostEvent) : State := { State.reset with env := { State.reset.env with todo := [ev] } }

/-- A busy GCORE whose NOP waits for host events. -/
def waiting (evs : List HostEvent) : State :=
  { startWord State.reset 32 0 with env := { State.reset.env with todo := evs, delay := 2 } }

/-- The bytes of DMEM from an offset on. -/
def bytesAt (off n : Nat) (s : State) : Bytes := regionBytes s off n

theorem readable_of {s : State} {off n : Nat} (h : ∀ j < n, (s.dmem.byteAt (off + j)).isSome = true) :
    Readable s off n := by
  intro a h1 h2
  have := h (a - off) (by omega)
  rwa [Nat.add_sub_cancel' h1] at this

/-- The ascending bytes 00 01 .. (n - 1). -/
def ascending (n : Nat) : Bytes := (List.range n).map (BitVec.ofNat 8)

/-! ## Well-formedness and decoding (30_encoding.md R140-R143) -/

theorem test_wf_refuses_unassigned_op : (CommandFields.mk 0x15 false 0).opAssigned = false := by decide
theorem test_wf_refuses_reserved_bits : (CommandFields.mk 0x14 false 1).resZero = false := by decide
theorem test_wf_refuses_undefined_flag : (CommandFields.mk 0x10 true 0).flagAllowed = false := by decide

/-- Every word of R142. -/
theorem test_decode_words :
    decode 0b00000000000000000000000000000000 = .ok .nop ∧ decode 0x10 = .ok .gKeyload ∧
    decode 0x11 = .ok .gSboxdef ∧ decode 0x12 = .ok .gEcbenc ∧ decode 0x13 = .ok .gEcbdec ∧
    decode 0b00000000000000000000000000010100 = .ok (.gGamma false) ∧
    decode 0b00000000000000000000000100010100 = .ok (.gGamma true) ∧
    decode 0b00000000000000000000000000100000 = .ok (.hInit false) ∧
    decode 0b00000000000000000000000100100000 = .ok (.hInit true) ∧
    decode 0x21 = .ok .hUpdate ∧ decode 0x22 = .ok .hFinal ∧ decode 0x23 = .ok .hStep ∧
    decode 0b00000000000000000000000000110000 = .ok .ePadd ∧ decode 0x31 = .ok .ePmul ∧ decode 0x32 = .ok .eKeygen ∧
    decode 0b00000000000000000000000000110011 = .ok .eSign ∧ decode 0x34 = .ok .eVerify ∧
    decode 0b00000000000000000000000001000000 = .ok .mMod ∧ decode 0x41 = .ok .mInv ∧ decode 0x42 = .ok .mEgcd ∧
    decode 0b00000000000000000000000001010000 = .ok .tKeyload ∧ decode 0x51 = .ok .tFrmenc ∧
    decode 0b00000000000000000000000001010010 = .ok .tFrmdec := by decide

/-- Words of R143: the ends of each range of unassigned OP values, the ends of RES, and F where it is not defined. -/
theorem test_decode_illegal :
    ([0x01, 0x0F, 0x15, 0x1F, 0x24, 0x2F, 0x35, 0x3F, 0x43, 0x4F, 0x53, 0xFF, 0x200, 0x80000014, 0x100, 0x110, 0x121,
      0x152, 0xFFFFFFFF].all fun w => !(decode w).isOk) = true := by decide +kernel

theorem test_table_word : decodeTableWord 32 0x120 = some (.hInit true) ∧ decodeTableWord 32 0x1FF = none := by decide

theorem test_with_fetch_word : commandDue (State.reset.withFetchWord 32 0x34) = some 0x34 := by decide +kernel

/-! ## Reset and the register map -/

/-- The words of the default set at reset (10_state.md R44) hold the table of 42_gost89.md R262. -/
theorem test_default_sbox :
    ∀ j < 8, ∀ i < 16, sboxEntry State.reset.cipher.sbox j i = (defaultRows.getD j []).getD i 0 := by decide +kernel

/-- The first and the last register word of the map, and both ends of each reserved range (10_state.md R32, R67). -/
theorem test_register_map :
    regOffset .src 0 = some 0x014 ∧ regOffset .sbox 15 = some 0x0BC ∧ regOffset .hbuf 7 = some 0x17C ∧
    regOffset .mGY 15 = some 0x4FC ∧ regOffset .tiv 1 = some 0x61C ∧
    ∀ off ∈ [0x024, 0x03C, 0x068, 0x07C, 0x14C, 0x15C, 0x180, 0x1FC, 0x364, 0x3FC, 0x500, 0x5FC, 0x620, 0xFFC],
      regRowAt off = none := by decide

/-! ## Commands, one step each -/

/-- V-M1 and V-M4: −1 mod 7, and −2^511 mod q. -/
theorem test_mMod :
    field (exec .mMod (modular (-1) 7)) (·.modu.mR) = some 6 ∧
    field (exec .mMod (modular (1 <<< 511) (BitVec.ofNat 256 curveQ))) (·.modu.mR) =
      some 0x08C5B0D257E2776A9F923A7D1BE2974B830648B60F684DFF6C7713E9616A8193 := by decide +kernel

/-- V-M6, V-M7 and V-M14: −3 mod 7, 0 mod 1, and no inverse of 2 mod 4. -/
theorem test_mInv :
    field (exec .mInv (modular (-3) 7)) (·.modu.mR) = some 2 ∧
    field (exec .mInv (modular 0 1)) (fun t => (t.modu.mR, t.ctl.err)) = some (0, 0) ∧
    field (exec .mInv (modular 2 4)) (·.ctl.err) = some 1 := by decide +kernel

/-- V-M9 and V-M14. -/
theorem test_mEgcd :
    field (exec .mEgcd (modular 240 46)) (fun t => (t.modu.mR, t.modu.mGX, t.modu.mGY)) = some (2, -9, 47) ∧
    field (exec .mEgcd (modular (1 <<< 256) 5)) (·.ctl.err) = some 1 := by decide +kernel

/-- V-P1: G + G. -/
theorem test_ePadd_double :
    field (exec .ePadd (points 2 (BitVec.ofNat 256 baseY) 2 (BitVec.ofNat 256 baseY) false false))
        (fun t => (t.point.paX, t.point.paY, t.point.paInf)) =
      some (0x6FE27A3E0ACED6E9DB874C05A9C7395BE62E32982ED2A1BC5C92CFC195FE9768,
        0x2194A807F376B7587D1C37CFC1327EAE83F6CBBEE4AFC1DAA94B6FCC19C9A1FF, false) := by decide +kernel

/-- V-P9, V-P10 and V-P12: the test on y comes first, and the one sum that raises. -/
theorem test_ePadd_corners :
    field (exec .ePadd (points 2 0x771D575F19AEB82B429CE9FCF1E92E637A3680F5635D98EDD469544315817469
        0x17E659C84789E93DA647C03E82D7977F750BE37DECA73341E1294ACE4E8379B0 (BitVec.ofNat 256 baseY) false false))
      (fun t => (t.point.paX, t.point.paInf)) = some (0, true) ∧
    field (exec .ePadd (points 5 0 5 3 false false)) (fun t => (t.point.paX, t.ctl.err)) = some (5, 1) ∧
    field (exec .ePadd (points 5 0 5 0 false false)) (·.point.paInf) = some true := by decide +kernel

/-- V-P2: 3·G. -/
theorem test_ePmul :
    field (exec .ePmul { points 2 (BitVec.ofNat 256 baseY) 0 0 false false with
        sign := { State.reset.sign with eK := 3 } }) (fun t => (t.point.paX, t.point.paY)) =
      some (0x4423BA960B9B01DBD04DFEA9FF9E7F1BA2A68DE2F295F202B4E1BF1F3E7FD129,
        0x303C22710A3D0E28FBE3C5B0E4980CD303C337182233A3D7A3B6BBCD7D1AAD26) := by decide +kernel

/-- Q = 3·G by V-P2, and d = 0 is out of range (44_signer.md R341). -/
theorem test_eKeygen :
    field (exec .eKeygen { State.reset with sign := { State.reset.sign with eD := 3 } }) (fun t => (t.sign.eQX, t.sign.eQY)) =
      some (0x4423BA960B9B01DBD04DFEA9FF9E7F1BA2A68DE2F295F202B4E1BF1F3E7FD129,
        0x303C22710A3D0E28FBE3C5B0E4980CD303C337182233A3D7A3B6BBCD7D1AAD26) ∧
    field (exec .eKeygen State.reset) (·.ctl.err) = some 1 := by decide +kernel

/-- k = 3, d = 1 and h = 5: r is the x of V-P2 and s = r + 15 (44_signer.md R342, by hand). -/
theorem test_eSign :
    field (exec .eSign { State.reset with sign := { State.reset.sign with eH := 5, eD := 1, eK := 3 } })
        (fun t => (t.sign.eR, t.sign.eS)) =
      some (0x4423BA960B9B01DBD04DFEA9FF9E7F1BA2A68DE2F295F202B4E1BF1F3E7FD129,
        0x4423BA960B9B01DBD04DFEA9FF9E7F1BA2A68DE2F295F202B4E1BF1F3E7FD138) := by decide +kernel

/-- h = q - 2 and Q = -G: z2 = 1, and s = q - 4 gives z1 = 2, so C = 2G - G = G and C.x = 2 = r; s = q - 2 gives z1 = 1 and
C = ∞ (44_signer.md R343, by hand). -/
theorem test_eVerify :
    field (exec .eVerify (toVerify (BitVec.ofNat 256 (curveQ - 2)) 2 (BitVec.ofNat 256 (curveQ - 4)) 2
      (BitVec.ofNat 256 (curveP - baseY)))) statusWord = some 0x00000006 ∧
    field (exec .eVerify (toVerify (BitVec.ofNat 256 (curveQ - 2)) 2 (BitVec.ofNat 256 (curveQ - 2)) 2
      (BitVec.ofNat 256 (curveP - baseY)))) statusWord = some 0x00000402 := by decide +kernel

/-- V-G3. -/
theorem test_gKeyload :
    field (exec .gKeyload (region 0 0 0 (ascending 32))) (·.cipher.gkey) =
      some 0x1F1E1D1C1B1A191817161514131211100F0E0D0C0B0A09080706050403020100 := by decide +kernel

/-- V-G11. -/
theorem test_gSboxdef :
    field (exec .gSboxdef (hostWriteAccess State.reset 0x080 0)) (fun t => wordOf t.cipher.sbox 0) =
      some 0xE08D29A4 := by decide +kernel

/-- V-G2. -/
theorem test_gEcb :
    field (exec .gEcbenc (region 0 16 8 (zeros 8))) (bytesAt 16 8) =
      some [0xC9, 0xFD, 0xC2, 0xA6, 0xE2, 0x0B, 0x61, 0x12] ∧
    field (exec .gEcbdec (region 0 0 8 [0xC9, 0xFD, 0xC2, 0xA6, 0xE2, 0x0B, 0x61, 0x12])) (bytesAt 0 8) =
      some (zeros 8) := by decide +kernel

/-- V-G7. -/
theorem test_gGamma :
    field (exec (.gGamma true) { region 0 16 13 [0x48, 0x65, 0x6C, 0x6C, 0x6F, 0x2C, 0x20, 0x47, 0x4F, 0x53, 0x54, 0x21, 0x21]
        with cipher := { State.reset.cipher with
          gkey := 0x1F1E1D1C1B1A191817161514131211100F0E0D0C0B0A09080706050403020100, giv := 0xA7A6A5A4A3A2A1A0 } })
        (fun t => (bytesAt 16 13 t, t.cipher.giv, t.io.outlen)) =
      some ([0xDE, 0x81, 0x34, 0xCE, 0xEA, 0x44, 0xF0, 0xF2, 0x71, 0x58, 0x9B, 0x1A, 0xB4], 0xC1FE40CB26621215, 13) := by
  decide +kernel

/-- H_INIT with COPY = 1 takes SBOX (43_gost3411.md R307). -/
theorem test_hInit :
    field (exec (.hInit true) (hostWriteAccess State.reset 0x080 0x12345678)) (fun t => wordOf t.hash.hsbox 0) =
      some 0x12345678 := by decide +kernel

/-- V-H4. -/
theorem test_hStep :
    field (exec .hStep (region 0 0 0 (zeros 32))) (fun t => (toLE256 t.hash.hh, t.hash.hz)) =
      some ([0x52, 0x82, 0xE6, 0x49, 0x97, 0x9A, 0xB1, 0x39, 0xC9, 0x4E, 0xE6, 0x05, 0x1C, 0x57, 0xF2, 0x0A,
        0x22, 0x6D, 0xA9, 0x13, 0xCE, 0x83, 0xDB, 0xFC, 0x07, 0xF2, 0xF5, 0x5B, 0xC3, 0x39, 0x54, 0x10], 0) := by
  decide +kernel

/-- The 32 bytes of S1 (95_test_vectors.md V-H8). -/
def messageS1 : Bytes :=
  [0x54, 0x68, 0x69, 0x73, 0x20, 0x69, 0x73, 0x20, 0x6D, 0x65, 0x73, 0x73, 0x61, 0x67, 0x65, 0x2C,
   0x20, 0x6C, 0x65, 0x6E, 0x67, 0x74, 0x68, 0x3D, 0x33, 0x32, 0x20, 0x62, 0x79, 0x74, 0x65, 0x73]

/-- V-H8. -/
theorem test_hUpdate :
    field (exec .hUpdate (region 0 0 32 messageS1)) (fun t => (toLE256 t.hash.hh, t.hash.bitCount)) =
      some ([0x34, 0xC0, 0x15, 0x33, 0xE3, 0x7D, 0x1C, 0x56, 0x87, 0xA6, 0x3D, 0x88, 0x24, 0x41, 0x9C, 0xD9,
        0x24, 0x76, 0xDE, 0x42, 0x8C, 0x3B, 0xA0, 0x68, 0xA4, 0x67, 0x59, 0x50, 0x65, 0x8C, 0x9A, 0xCF], 0x100) := by
  decide +kernel

/-- V-H5. -/
theorem test_hFinal :
    field (exec .hFinal State.reset) (fun t => (t.sign.eH, t.hash.fin, t.io.outlen)) =
      some (0xCE85B99CC46752FFFEE35CAB9A7B0278ABB4C2D2055CFF685AF4912C49490F8D, true, 32) := by decide +kernel

/-- V-T1. -/
theorem test_tKeyload :
    field (exec .tKeyload (region 0 0 0 [0x00, 0x11, 0x22, 0x33, 0x44, 0x55, 0x66, 0x77, 0x88, 0x99, 0xAA, 0xBB, 0xCC,
        0xDD, 0xEE, 0xFF, 0x00, 0x11, 0x22, 0x33, 0x44, 0x55, 0x66, 0x77, 0x88, 0x99, 0xAA, 0xBB, 0xCC, 0xDD, 0xEE, 0xFF]))
        (·.keys) =
      some ⟨0x7766554433221100, 0xFFEEDDCCBBAA9988, 0x7766554433221100, 0xFFEEDDCCBBAA9988⟩ := by decide +kernel

/-- The keyset ks2 (V-T2). -/
def keys2 : Keyset := ⟨0xEFCDAB8967452301, 0x1032547698BADCFE, 0x78695A4B3C2D1E0F, 0xF0E1D2C3B4A59687⟩

/-- The frame of 00 01 .. 06 under ks2 (V-T2). -/
def frame7 : Bytes :=
  [0xC3, 0x1A, 0x94, 0xD7, 0x4E, 0x16, 0x34, 0xC5, 0x95, 0x3B, 0x4B, 0x65, 0x84, 0x06, 0x2E, 0x2E]

/-- V-T2 for n = 7. -/
theorem test_tFrmenc :
    field (exec .tFrmenc { region 0 64 7 (ascending 7) with keys := keys2 }) (fun t => (bytesAt 64 16 t, t.io.outlen)) =
      some (frame7, 16) := by decide +kernel

/-- V-T2 for n = 7, and V-T5. -/
theorem test_tFrmdec :
    field (exec .tFrmdec { region 0 64 16 frame7 with keys := keys2 }) (fun t => (bytesAt 64 7 t, t.io.outlen)) =
      some (ascending 7, 7) ∧
    field (exec .tFrmdec (region 0 0 12 (zeros 12))) (·.ctl.err) = some 2 := by decide +kernel

/-- The single-DES answer of 45_tdes.md R381. -/
theorem test_des :
    desEncrypt [0x01, 0x23, 0x45, 0x67, 0x89, 0xAB, 0xCD, 0xEF] [0x4E, 0x6F, 0x77, 0x20, 0x69, 0x73, 0x20, 0x74] =
      [0x3F, 0xA4, 0x0E, 0x8A, 0x98, 0x4D, 0x48, 0x15] := by decide +kernel

/-! ## Witnesses: for each statement with hypotheses, a state and operands that meet them -/

/-- The commands, each flag both ways. -/
def commands : List Instr :=
  [.nop, .gKeyload, .gSboxdef, .gEcbenc, .gEcbdec, .gGamma false, .gGamma true, .hInit false, .hInit true, .hUpdate,
   .hFinal, .hStep, .ePadd, .ePmul, .eKeygen, .eSign, .eVerify, .mMod, .mInv, .mEgcd, .tKeyload, .tFrmenc, .tFrmdec]

/-- DecodeInvertsEncode. -/
theorem test_witness_well_formed : (∀ i ∈ commands, i.wf = true) ∧ decode 0x120 = .ok (.hInit true) := by decide +kernel

/-- StepRunsTheDecodedCommand. -/
theorem test_witness_step_runs :
    CompletionDue (startWord State.reset 32 0x114) 0x114 ∧ decode 0x114 = .ok (.gGamma true) :=
  ⟨⟨rfl, .inl rfl⟩, by decide⟩

/-- IllegalWordsRaise: the last word below the first assigned OP value after NOP. -/
theorem test_witness_illegal :
    CompletionDue (startWord State.reset 32 0x0F) 0x0F ∧ ¬∃ i, decode 0x0F = .ok i := by
  refine ⟨⟨rfl, .inl rfl⟩, ?_⟩
  rintro ⟨i, h⟩
  have : decode 0x0F = .error .unassignedOp := by decide
  rw [this] at h; cases h

/-- CmdWriteStarts: an idle and a busy GCORE. -/
theorem test_witness_cmd_write :
    (HostMoves (idle (.write (addressOf 0x010) 4 0x34)) (.write (addressOf 0x010) 4 0x34) [] ∧
      (idle (.write (addressOf 0x010) 4 0x34)).ctl.pending = none) ∧
    HostMoves (waiting [.write (addressOf 0x010) 4 0x34]) (.write (addressOf 0x010) 4 0x34) [] ∧
    (waiting [.write (addressOf 0x010) 4 0x34]).ctl.pending ≠ none :=
  ⟨⟨⟨rfl, .inl rfl⟩, rfl⟩, ⟨rfl, .inr (by decide)⟩, by simp [waiting, startWord]⟩

/-- ErrorsArePrecise: an illegal word. -/
theorem test_witness_error :
    CompletionDue (startWord State.reset 32 0x0F) 0x0F ∧ (startWord State.reset 32 0x0F).ctl.err = 0 ∧
    (startWord State.reset 32 0x0F).ctl.vok = false ∧ (startWord State.reset 32 0x0F).io.outlen = 0 ∧
    step (startWord State.reset 32 0x0F) = .next (failed (startWord State.reset 32 0x0F) 5) ∧
    (failed (startWord State.reset 32 0x0F) 5).ctl.err ≠ 0 := by
  refine ⟨⟨rfl, .inl rfl⟩, rfl, rfl, rfl, ?_, by simp [failed]⟩
  have h : step (startWord State.reset 32 0x0F) = completeIllegal (startWord State.reset 32 0x0F) := by
    have h1 : commandDue (startWord State.reset 32 0x0F) = some 0x0F := commandDue_of rfl (.inl rfl)
    have h2 : decode 15#32 = .error .unassignedOp := by decide
    simp [step, h1, h2]
  rw [h]; rfl

/-- CommandsWriteOnlyTheirTargets and PrivateScalarIsolated: every command answers a next state. -/
theorem test_witness_next :
    ∀ i ∈ commands, exec i (region 0 64 0 (ascending 32)) = .next (nextOf (exec i (region 0 64 0 (ascending 32)))) := by
  have h : ∀ i ∈ commands, field (exec i (region 0 64 0 (ascending 32))) (fun _ => ()) = some () := by decide +kernel
  exact fun i hi => next_of (h i hi)

/-- CommandsFaultOnlyOnUnwrittenInput. -/
theorem test_witness_fault :
    exec .gKeyload (region 0 0 0 (ascending 31)) = .fault (.dmemUnwritten 31) ∧
    exec .gEcbenc (region 4088 0 8 (ascending 7)) = .fault (.dmemUnwritten 4095) :=
  ⟨fault_of (by decide +kernel), fault_of (by decide +kernel)⟩

/-- UnwrittenDmemFaults: a reset, a soft reset, the last byte of DMEM, and an input region whose second byte is unwritten,
for every command that has one. -/
theorem test_witness_unwritten :
    HostMoves (idle .platformReset) .platformReset [] ∧
    (HostMoves (idle (.write (addressOf 0x008) 4 2)) (.write (addressOf 0x008) 4 2) [] ∧ (2 : Word).getLsbD 1 = true) ∧
    (∀ s, s = { idle (.read (addressOf (0x1000 + 4 * 1023)) 4) with dmem := Memory.write [] 4092 (zeros 3) } →
      s.ctl.pending = none ∧ HostMoves s (.read (addressOf (0x1000 + 4 * 1023)) 4) [] ∧ Readable s (4 * 1023) 3 ∧
      s.dmem.byteAt (4 * 1023 + 3) = none) ∧
    ∀ s, s = region 0 0 8 [0] → Readable s s.srcOff 1 ∧ s.dmem.byteAt (s.srcOff + 1) = none ∧ s.srcOff + 32 ≤ 4096 ∧
      1 < s.lenBytes ∧ s.srcOff + s.lenBytes ≤ 4096 ∧ s.lenBytes % 8 = 0 ∧ s.dstOff + s.lenBytes ≤ 4096 ∧
      s.hash.fin = false ∧ s.dstOff + (s.lenBytes + 16 - s.lenBytes % 8) ≤ 4096 := by
  refine ⟨⟨rfl, .inl rfl⟩, ⟨⟨rfl, .inl rfl⟩, by decide⟩, ?_, ?_⟩
  · rintro s rfl
    exact ⟨rfl, ⟨rfl, .inl rfl⟩, readable_of (by decide), by decide⟩
  · rintro s rfl
    exact ⟨readable_of (by decide), by decide, by decide, by decide, by decide, by decide, by decide, rfl, by decide⟩

/-- PendingCommandComesDue: two events to wait for, one inside the aperture and one outside. -/
theorem test_witness_pending :
    (waiting [.write (addressOf 0x008) 4 1, .read (Config.gcoreBase + 8192) 1]).ctl.pending = some 0 ∧
    ∀ ev ∈ (waiting [.write (addressOf 0x008) 4 1, .read (Config.gcoreBase + 8192) 1]).env.todo, KeepsPending ev := by
  refine ⟨rfl, ?_⟩
  intro ev h
  simp only [waiting, List.mem_cons, List.not_mem_nil, or_false] at h
  rcases h with rfl | rfl
  · intro _
    refine ⟨rfl, by simp [addressOf], fun h => absurd h.2 (by decide)⟩
  · intro h
    simp [InAperture] at h

/-- StepKeepsConsistent: GCORE idle after reset. -/
theorem test_witness_consistent : State.reset.Consistent ∧ step State.reset = .next State.reset :=
  ⟨⟨⟨List.Pairwise.nil, by simp [State.reset]⟩, by simp [State.reset, State.busy], by simp [State.reset],
    by simp [State.reset], by simp [State.reset], by simp [State.reset]⟩, rfl⟩

/-- PowerOnReset and SoftReset: a platform reset, and SRST while a command is pending. -/
theorem test_witness_resets :
    HostMoves (idle .platformReset) .platformReset [] ∧
    HostMoves (waiting [.write (addressOf 0x008) 4 3]) (.write (addressOf 0x008) 4 3) [] ∧
    (3 : Word).getLsbD 1 = true :=
  ⟨⟨rfl, .inl rfl⟩, ⟨rfl, .inr (by decide)⟩, by decide⟩

/-- A reserved offset reads 0 while BUSY = 1, and CMD is no reserved offset (10_state.md R67, 20_memory.md R112). -/
theorem test_busy_reserved :
    field (hostReadAccess (waiting []) 0 0x024) (·.env) = some { (waiting []).env with seen := [⟨0, 0⟩] } ∧
    readableWhileBusy 0xFFC = true ∧ readableWhileBusy 0x010 = false ∧ readableWhileBusy 0x1000 = false := by decide +kernel

/-- BusyAccesses: writes and reads at the first and the last offset, the four exact registers, both ends of the reserved
offsets, and a word with SRST = 0. -/
theorem test_witness_busy :
    ReservedOffset 0x024 ∧ ReservedOffset 0xFFC ∧ (1 : Word).getLsbD 1 = false ∧
    ∀ off ∈ [0x000, 0x004, 0x008, 0x00C, 0x010, 0x024, 0xFFC, 0x1FFC], ∀ v,
      (waiting [.write (addressOf off) 4 v]).busy = true ∧ off < 8192 ∧ off % 4 = 0 ∧
      HostMoves (waiting [.write (addressOf off) 4 v]) (.write (addressOf off) 4 v) [] ∧
      HostMoves (waiting [.read (addressOf off) 4]) (.read (addressOf off) 4) [] := by
  refine ⟨⟨by decide, by decide⟩, ⟨by decide, by decide⟩, by decide, ?_⟩
  intro off h v
  have : ∀ off ∈ [0x000, 0x004, 0x008, 0x00C, 0x010, 0x024, 0xFFC, 0x1FFC], off < 8192 ∧ off % 4 = 0 := by decide
  exact ⟨rfl, (this off h).1, (this off h).2, ⟨rfl, .inr (show 2 ≠ 0 by decide)⟩, ⟨rfl, .inr (show 2 ≠ 0 by decide)⟩⟩

/-- SideEffectsOfAccesses: a write and a read of the last word of DMEM, which holds no value, and a read of STATUS that takes
effect; a 1 in bit 1, and the last offset again. -/
theorem test_witness_side_effects :
    (0x1FFC < 8192 ∧ 0x1FFC % 4 = 0 ∧ (0x1FFC : Nat) ≠ 0x010) ∧
    HostMoves (idle (.write (addressOf 0x1FFC) 4 0)) (.write (addressOf 0x1FFC) 4 0) [] ∧
    HostMoves (idle (.read (addressOf 0x1FFC) 4)) (.read (addressOf 0x1FFC) 4) [] ∧
    hostReadWord (idle (.read (addressOf 0x1FFC) 4)) 0x1FFC = .error (.dmemUnwritten 4092) ∧
    (HostMoves (idle (.read (addressOf 0x00C) 4)) (.read (addressOf 0x00C) 4) [] ∧
      hostReadWord (idle (.read (addressOf 0x00C) 4)) 0x00C = .ok 0 ∧
      ∃ t, step (idle (.read (addressOf 0x00C) 4)) = .next t) ∧
    (idle (.read (addressOf 0x00C) 4)).busy = false ∧ State.reset.busy = false ∧ (2 : Word).getLsbD 1 = true ∧
    State.reset.dmem.wf := by
  have h : HostMoves (idle (.read (addressOf 0x00C) 4)) (.read (addressOf 0x00C) 4) [] := ⟨rfl, .inl rfl⟩
  exact ⟨by decide, ⟨rfl, .inl rfl⟩, ⟨rfl, .inl rfl⟩, rfl, ⟨h, rfl, _, step_read h (by decide) (by decide)⟩, rfl, rfl,
    by decide, List.Pairwise.nil, by simp [State.reset]⟩

/-- Of two `wait`s each branches back to its own label 1, and a branch before both goes on to the first (log entry 15). -/
theorem test_local_labels :
    labelAt (Machine.ack ++ waitIdle ++ waitIdle) 4 "1" = some 1 ∧
    labelAt (Machine.ack ++ waitIdle ++ waitIdle) 8 "1" = some 5 ∧
    labelAt (Machine.ack ++ waitIdle ++ waitIdle) 0 "1" = some 1 ∧ labelAt Machine.ack 0 "1" = none := by decide

/-- RegisterWordsReadBack: both ends of every range of words, and a word beside one. -/
theorem test_witness_register_words :
    State.reset.busy = false ∧
    (∀ off ∈ [0x014, 0x01C, 0x040, 0x064, 0x080, 0x13C, 0x160, 0x17C, 0x200, 0x35C, 0x400, 0x4FC, 0x600, 0x61C],
      PlainOffset off) ∧ 0x018 % 4 = 0 ∧ (0x018 : Nat) ≠ 0x014 := by
  refine ⟨rfl, ?_, rfl, by decide⟩
  unfold PlainOffset
  decide

/-- FieldWrites and ReservedAndReadOnly: an idle GCORE, a word with bit 1 clear, and both ends of each reserved range. -/
theorem test_witness_field_writes :
    State.reset.busy = false ∧ (0xFFFFFFFD : Word).getLsbD 1 = false ∧
    ∀ off ∈ [0x024, 0x03C, 0x068, 0x07C, 0x14C, 0x15C, 0x180, 0x1FC, 0x364, 0x3FC, 0x500, 0x5FC, 0x620, 0xFFC],
      ReservedOffset off := by
  refine ⟨rfl, by decide, ?_⟩
  unfold ReservedOffset
  decide

/-- DmemWordsAreLittleEndian: the last word of DMEM, all four bytes written. -/
theorem test_witness_dmem_word :
    ∀ s, s = region 4092 0 0 [1, 2, 3, 4] → s.busy = false ∧ s.dmem.byteAt (4 * 1023) = some 1 ∧
      s.dmem.byteAt (4 * 1023 + 1) = some 2 ∧ s.dmem.byteAt (4 * 1023 + 2) = some 3 ∧
      s.dmem.byteAt (4 * 1023 + 3) = some 4 := by
  rintro s rfl
  exact ⟨rfl, by decide, by decide, by decide, by decide⟩

/-- AccessesOutsideTheContract: a width and an offset the contract does not define, and the first address past the
aperture. -/
theorem test_witness_contract :
    (HostMoves (idle (.read (addressOf 8188) 2)) (.read (addressOf 8188) 2) [] ∧ InAperture (addressOf 8188) ∧ (2 : Nat) ≠ 4) ∧
    (HostMoves (idle (.write (addressOf 8191) 4 0)) (.write (addressOf 8191) 4 0) [] ∧ InAperture (addressOf 8191) ∧
      (addressOf 8191 - Config.gcoreBase) % 4 ≠ 0) ∧
    HostMoves (idle (.read (addressOf 8192) 4)) (.read (addressOf 8192) 4) [] ∧ ¬InAperture (addressOf 8192) := by
  refine ⟨⟨⟨rfl, .inl rfl⟩, by simp [InAperture, addressOf], by decide⟩,
    ⟨⟨rfl, .inl rfl⟩, by simp [InAperture, addressOf], by simp [addressOf]⟩, ⟨rfl, .inl rfl⟩,
    by simp [InAperture, addressOf]⟩

/-- ErrIsSticky: a CMD write that clears ERR, and a W1C of DONE. -/
theorem test_witness_sticky :
    (∃ t, step { idle (.write (addressOf 0x010) 4 0) with ctl := ⟨false, true, false, 3, none⟩ } = .next t ∧
      t.ctl.err ≠ 3) ∧
    (¬∃ w, CompletionDue { idle (.write (addressOf 0x010) 4 0) with ctl := ⟨false, true, false, 3, none⟩ } w) ∧
    HostMoves (idle (.write (addressOf 0x00C) 4 2)) (.write (addressOf 0x00C) 4 2) [] ∧ (2 : Word).getLsbD 1 = true := by
  have h : HostMoves { idle (.write (addressOf 0x010) 4 0) with ctl := ⟨false, true, false, 3, none⟩ }
      (.write (addressOf 0x010) 4 0) [] := ⟨rfl, .inl rfl⟩
  refine ⟨⟨_, step_write h (by decide) (by decide), ?_⟩, not_due h, ⟨rfl, .inl rfl⟩, by decide⟩
  simp [hostWriteAccess, hostWriteWord, dmemWindow, afterHost, State.busy, regRowAt, regMap, writeReg]

/-- InterruptRule: a completion with IE = 1; IE set while DONE = 1, which raises IRQ; and IE cleared, which lowers it. -/
theorem test_witness_interrupt :
    (∃ w, CompletionDue (startWord State.reset 32 0) w) ∧
    (∃ t, step { idle (.write (addressOf 0x008) 4 1) with ctl := ⟨false, true, false, 0, none⟩ } = .next t ∧
      t.irq = true ∧ State.irq { idle (.write (addressOf 0x008) 4 1) with ctl := ⟨false, true, false, 0, none⟩ } = false) ∧
    ∃ t, step { idle (.write (addressOf 0x008) 4 0) with ctl := ⟨true, true, false, 0, none⟩ } = .next t ∧
      t.irq = false ∧ State.irq { idle (.write (addressOf 0x008) 4 0) with ctl := ⟨true, true, false, 0, none⟩ } = true := by
  refine ⟨⟨0, rfl, .inl rfl⟩, ⟨_, step_write ⟨rfl, .inl rfl⟩ (by decide) (by decide), ?_, rfl⟩,
    ⟨_, step_write ⟨rfl, .inl rfl⟩ (by decide) (by decide), ?_, rfl⟩⟩ <;>
  simp [hostWriteAccess, writableWhileBusy, hostWriteWord, dmemWindow, afterHost, State.irq, regRowAt, regMap, writeReg,
    writeCtrl]

/-- InterruptRule: each access that raises or lowers IRQ, at an idle GCORE whose IRQ is 1, and a CTRL write while busy. -/
theorem test_witness_interrupt_causes :
    ∀ ev ∈ [HostEvent.write (addressOf 0x008) 4 0, .write (addressOf 0x00C) 4 2, .write (addressOf 0x010) 4 0, .platformReset],
      HostMoves { idle ev with ctl := ⟨true, true, false, 0, none⟩ } ev [] ∧
      State.irq { idle ev with ctl := ⟨true, true, false, 0, none⟩ } = true ∧ (2 : Word).getLsbD 1 = true ∧
      HostMoves (waiting [.write (addressOf 0x008) 4 1]) (.write (addressOf 0x008) 4 1) [] :=
  fun _ _ => ⟨⟨rfl, .inl rfl⟩, rfl, by decide, ⟨rfl, .inr (show 2 ≠ 0 by decide)⟩⟩

/-- NopChangesOnlyStatus. -/
theorem test_witness_nop :
    (idle (.write (addressOf 0x010) 4 0)).ctl.pending = none ∧
    (idle (.write (addressOf 0x010) 4 0)).env.todo = [.write (addressOf 0x010) 4 0] := ⟨rfl, rfl⟩

/-- ModReduces: −1 mod 7 is 6; InvInverts: 3·5 ≡ 1 mod 7, and 2 has no inverse mod 4 (V-M1, V-M5, V-M14). -/
theorem test_witness_modular :
    ((modular (-1) 7).modu.mM ≠ 0 ∧ 6 < (7 : U256).toNat ∧ ((7 : U256).toNat : Int) ∣ (-1 : S512).toInt - 6) ∧
    (Nat.gcd (3 : S512).toInt.natAbs (7 : U256).toNat = 1 ∧ ((7 : U256).toNat : Int) ∣ (3 : S512).toInt * 5 - 1) ∧
    (modular 0 0).modu.mM = 0 ∧ Nat.gcd (2 : S512).toInt.natAbs (4 : U256).toNat ≠ 1 := by decide +kernel

/-- EgcdGivesBezout: the first and the last value of each range, and operands for each fixed value (V-M11, V-M12, V-M14). -/
theorem test_witness_egcd :
    (-1 : S512).toInt < 0 ∧ 2 ^ 256 ≤ (BitVec.ofNat 512 (2 ^ 256)).toInt ∧
    0 ≤ (0 : S512).toInt ∧ (BitVec.ofNat 512 (2 ^ 256 - 1)).toInt < 2 ^ 256 ∧
    (0 : S512).toInt.toNat = 0 ∧ (0 : U256).toNat = 0 ∧ (5 : U256).toNat ≠ 0 ∧
    (17 : S512).toInt.toNat = (17 : U256).toNat ∧ (17 : S512).toInt.toNat ≠ 0 := by decide +kernel

/-- PointAddition and PaddAddsPoints: ∞ with unreduced coordinates on either side (V-P11), the opposite points of V-P12, the
chord through (0, 0) and (1, 1) with slope 1, the tangent at (1, 5) with slope 1, and V-P10. -/
theorem test_witness_sums :
    PointSum .infinity (.affine (curveP + 2) baseY) (.affine 2 baseY) ∧
    PointSum (.affine (curveP + 2) baseY) .infinity (.affine 2 baseY) ∧
    PointSum (.affine 5 0) (.affine 5 0) .infinity ∧
    PointSum (.affine 0 0) (.affine 1 1) (.affine 0 0) ∧
    PointSum (.affine 1 5) (.affine 1 5) (.affine (curveP - 1) (curveP - 3)) ∧
    SumRaises (.affine 5 0) (.affine 5 3) := by
  refine ⟨.infinityLeft (.affine (curveP + 2) baseY), .infinityRight (curveP + 2) baseY, .opposite _ _ _ _ rfl,
    .chord _ _ _ _ _ _ 1 (by decide) (by decide) rfl rfl (by decide) rfl (by decide),
    .tangent _ _ _ _ _ _ 1 (by decide) rfl rfl ?_ (by decide) ?_ (by decide) (by decide),
    5, 0, 5, 3, rfl, rfl, by decide, rfl, by decide⟩ <;> decide +kernel

/-- KeygenMultipliesBase and SignComputesSignature: the scalars at the ends of the ranges, and 1·G = G. -/
theorem test_witness_scalars :
    (0 : U256).toNat < 1 ∧ curveQ ≤ (BitVec.ofNat 256 curveQ).toNat ∧ 1 ≤ (1 : U256).toNat ∧
    (BitVec.ofNat 256 (curveQ - 1)).toNat < curveQ ∧ pmul 1 pointG = some pointG := by decide +kernel

/-- VerifyChecksSignature: Q = -G, h = q - 2 and v = (q - 1)/2, r = 2, so z2 = 1. s = q - 4 gives z1 = 2 and C = G, accepted;
s = q - 2 gives z1 = 1 and C = ∞; s = q - 6 gives z1 = 3 and C = 2G, refused. -/
theorem test_witness_verify :
    (curveP - baseY < curveP ∧ 2 < curveP ∧
      (((curveP - baseY : Nat) : Int) ^ 2 ≡ ((2 : Nat) : Int) ^ 3 + 7 * ((2 : Nat) : Int) + curveB [ZMOD curveP])) ∧
    Nat.gcd (curveQ - 2) curveQ = 1 ∧
    (((curveQ - 2 : Nat) : Int) * ((curveQ - 1) / 2 : Nat) ≡ 1 [ZMOD curveQ]) ∧
    (((1 : Nat) : Int) ≡ -((2 : Nat) : Int) * ((curveQ - 1) / 2 : Nat) [ZMOD curveQ]) ∧
    (∀ z ∈ [1, 2, 3], ((z : Nat) : Int) ≡ ((curveQ - 2 * z : Nat) : Int) * ((curveQ - 1) / 2 : Nat) [ZMOD curveQ]) ∧
    pmul 1 (.affine 2 (curveP - baseY)) = some (.affine 2 (curveP - baseY)) ∧
    (pmul 1 pointG).bind (padd · (.affine 2 (curveP - baseY))) = some .infinity ∧
    (pmul 2 pointG).bind (padd · (.affine 2 (curveP - baseY))) = some (.affine 2 baseY) ∧ 2 % curveQ = 2 ∧
    (pmul 3 pointG).bind (padd · (.affine 2 (curveP - baseY))) = pmul 2 pointG ∧
    ∀ x y, pmul 2 pointG = some (.affine x y) → x % curveQ ≠ 2 := by
  refine ⟨by decide +kernel, by decide +kernel, by decide +kernel, by decide +kernel, by decide +kernel, by decide +kernel,
    by decide +kernel, by decide +kernel, rfl, by decide +kernel, ?_⟩
  intro x y h
  have h2 : pmul 2 pointG = some (.affine 0x6FE27A3E0ACED6E9DB874C05A9C7395BE62E32982ED2A1BC5C92CFC195FE9768
      0x2194A807F376B7587D1C37CFC1327EAE83F6CBBEE4AFC1DAA94B6FCC19C9A1FF) := by decide +kernel
  rw [h2] at h
  cases h; decide +kernel

/-- VerifyChecksSignature: the values that fail each check, at the ends of their ranges. -/
theorem test_witness_verify_checks :
    (0 : U256).toNat < 1 ∧ curveQ ≤ (BitVec.ofNat 256 curveQ).toNat ∧ curveP ≤ (BitVec.ofNat 256 curveP).toNat ∧
    ¬(((0 : U256).toNat : Int) ^ 2 ≡ ((0 : U256).toNat : Int) ^ 3 + 7 * ((0 : U256).toNat : Int) + curveB [ZMOD curveP]) ∧
    Nat.gcd (0 : U256).toNat curveQ ≠ 1 := by decide +kernel

/-- KeyloadLoadsWords, HStepTransformsChain and TKeyloadLoadsKeyset: the last region of 32 bytes, and the first that leaves
DMEM. -/
theorem test_witness_fixed_region :
    (∀ s, s = region 4064 0 0 (ascending 32) → s.srcOff + 32 ≤ 4096 ∧ Readable s s.srcOff 32 ∧
      s.dmem.byteAt (s.srcOff + 4 * 7 + 3) = some 31) ∧
    4096 < (region 4065 0 0 []).srcOff + 32 := by
  refine ⟨?_, by decide⟩
  rintro s rfl
  exact ⟨by decide, readable_of (by decide +kernel), by decide +kernel⟩

/-- EcbCommands, GammaCommand and HUpdateAbsorbs: a region that ends with DMEM, one that leaves it, and LEN = 7. -/
theorem test_witness_regions :
    (∀ s, s = region 4088 4088 8 (ascending 8) → s.lenBytes % 8 = 0 ∧ s.srcOff + s.lenBytes ≤ 4096 ∧
      s.dstOff + s.lenBytes ≤ 4096 ∧ Readable s s.srcOff s.lenBytes ∧ s.hash.fin = false) ∧
    (region 4089 0 8 []).lenBytes % 8 = 0 ∧ 4096 < (region 4089 0 8 []).srcOff + (region 4089 0 8 []).lenBytes ∧
    4096 < (region 0 4089 8 []).dstOff + (region 0 4089 8 []).lenBytes ∧ (region 0 0 7 []).lenBytes % 8 ≠ 0 := by
  refine ⟨?_, by decide, by decide, by decide, by decide⟩
  rintro s rfl
  exact ⟨by decide, by decide, by decide, readable_of (by decide), rfl⟩

/-- EcbRoundTrip: a block at the end of DMEM, sent back to where it came from. -/
theorem test_witness_ecb_round_trip :
    (zeros 8).length = 8 ∧
    ∀ s, s = region 4088 0 8 (ascending 8) → exec .gEcbenc s = .next (nextOf (exec .gEcbenc s)) ∧ s.lenBytes % 8 = 0 ∧
      s.srcOff + s.lenBytes ≤ 4096 ∧ s.dstOff + s.lenBytes ≤ 4096 ∧ (4088 : Word).toNat + s.lenBytes ≤ 4096 := by
  refine ⟨rfl, ?_⟩
  rintro s rfl
  exact ⟨next_of (by decide +kernel), by decide, by decide, by decide, by decide⟩

/-- GammaTransformLaws, HashByteFunctions, DesByItsBits, DesRoundTrip, CbcChains: strings of the lengths they ask for. -/
theorem test_witness_strings :
    (zeros 8).length % 8 = 0 ∧ (ascending 32).length = 32 ∧ (ascending 8).length = 8 ∧ (ascending 16).length % 8 = 0 := by
  decide

/-- StepTransformation. -/
theorem test_witness_step_transformation :
    ∃ H M U2 U3 U4 V2 V3 V4 Sx : Bytes, H.length = 32 ∧ M.length = 32 ∧
      U2 = hashA H ∧ V2 = hashA (hashA M) ∧ U3 = xorBytes (hashA U2) constantC2 ∧ V3 = hashA (hashA V2) ∧
      U4 = hashA U3 ∧ V4 = hashA (hashA V3) ∧
      Sx = gostEncrypt defaultSbox (keySchedule (hashP (xorBytes H M))) (slice H 0 8) ++
           gostEncrypt defaultSbox (keySchedule (hashP (xorBytes U2 V2))) (slice H 8 16) ++
           gostEncrypt defaultSbox (keySchedule (hashP (xorBytes U3 V3))) (slice H 16 24) ++
           gostEncrypt defaultSbox (keySchedule (hashP (xorBytes U4 V4))) (slice H 24 32) :=
  ⟨zeros 32, ascending 32, _, _, _, _, _, _, _, rfl, rfl, rfl, rfl, rfl, rfl, rfl, rfl, rfl⟩

/-- AbsorbsOneByte: an empty buffer and the last byte of a block. -/
theorem test_witness_absorb :
    0 = (HashContext.initial 0).bitCount.toNat / 8 % 32 ∧
    31 = (HashContext.bitCount { HashContext.initial 0 with hlen := 31 }).toNat / 8 % 32 := by decide +kernel

/-- HUpdateAbsorbs, HUpdateSplits and HFinalEmitsDigest: a closed context, a message of two bytes in two parts that ends with
DMEM, and contexts with c = 0 and c = 31 (the
second in test_witness_absorb). -/
theorem test_witness_hash :
    (∀ s, s = region 4094 0 2 [1, 2] → s.hash.fin = false ∧ s.io.len.toNat = (1 : Word).toNat + (1 : Word).toNat ∧
      exec .hUpdate s = .next (nextOf (exec .hUpdate s)) ∧ s.srcOff + s.lenBytes ≤ 4096) ∧
    HashContext.fin { State.reset.hash with fin := true } = true ∧
    (region 0 4064 0 []).dstOff + 32 ≤ 4096 ∧ 4096 < (region 0 4065 0 []).dstOff + 32 ∧
    State.reset.hash.bitCount.toNat / 8 % 32 = 0 := by
  refine ⟨?_, rfl, by decide, by decide, by decide +kernel⟩
  rintro s rfl
  exact ⟨rfl, rfl, next_of (by decide +kernel), by decide⟩

/-- FramesParse: the shortest and the longest padding. -/
theorem test_witness_frames :
    unframe (leBytes 8 7 ++ ascending 7 ++ [1]) = some (ascending 7) ∧
    unframe (leBytes 8 0 ++ List.replicate 8 8) = some [] ∧ (leBytes 8 0 ++ List.replicate 8 8 : Bytes).length < 2 ^ 64 := by
  decide +kernel

/-- FrmencEncryptsFrame: the last DST at which a frame of seven bytes fits, and the next one. -/
theorem test_witness_frmenc :
    (∀ s, s = region 4089 4080 7 (ascending 7) → 16 = s.lenBytes + 16 - s.lenBytes % 8 ∧ s.srcOff + s.lenBytes ≤ 4096 ∧
      s.dstOff + 16 ≤ 4096 ∧ Readable s s.srcOff s.lenBytes) ∧
    4096 < (region 0 4081 7 []).dstOff + 16 ∧ 4096 < (region 4090 0 7 []).srcOff + (region 4090 0 7 []).lenBytes := by
  refine ⟨?_, by decide, by decide⟩
  rintro s rfl
  exact ⟨by decide, by decide, by decide, readable_of (by decide)⟩

/-- FrmdecDecryptsFrame: a frame whose plaintext just fits at DST = 4089 and not at 4090, an input that is none, an input that
leaves DMEM and one of 12 bytes. -/
theorem test_witness_frmdec :
    (∀ s, s = region 4080 4089 16 frame7 → s.lenBytes % 8 = 0 ∧ s.srcOff + s.lenBytes ≤ 4096 ∧
      Readable s s.srcOff s.lenBytes ∧ unframe (cbcDecrypt keys2 (regionBytes s s.srcOff s.lenBytes)) = some (ascending 7) ∧
      s.dstOff + (ascending 7).length ≤ 4096) ∧
    4096 < (region 4080 4090 16 frame7).dstOff + (ascending 7).length ∧
    unframe (cbcDecrypt keys2 (regionBytes (region 0 0 0 []) 0 0)) = none ∧
    4096 < (region 4089 0 8 []).srcOff + (region 4089 0 8 []).lenBytes ∧ (region 0 0 12 []).lenBytes % 8 ≠ 0 := by
  refine ⟨?_, by decide, by decide, by decide, by decide⟩
  rintro s rfl
  exact ⟨by decide, by decide, readable_of (by decide), by decide +kernel, by decide⟩

/-- FrameCommandsRoundTrip: the empty plaintext at the end of DMEM. -/
theorem test_witness_frame_round_trip :
    ∀ s, s = region 4096 4080 0 [] → exec .tFrmenc s = .next (nextOf (exec .tFrmenc s)) ∧ s.srcOff + s.lenBytes ≤ 4096 ∧
      s.dstOff + (s.lenBytes + 16 - s.lenBytes % 8) ≤ 4096 ∧ (4096 : Word).toNat + s.lenBytes ≤ 4096 := by
  rintro s rfl
  exact ⟨next_of (by decide +kernel), by decide, by decide, by decide⟩

end Sys2Proof.Tests
end

section
/-! PROOF. The register map by rows: which access reaches which register word, and what a read returns after a write
(10_state.md R32, R51, R67). -/

namespace Sys2Proof.Machine

/-! ## Rows and offsets -/

/-- Two rows share no offset. -/
def RegRow.Apart (r q : RegRow) : Prop := r.base + 4 * r.words ≤ q.base ∨ q.base + 4 * q.words ≤ r.base

/-- Different rows of the register map share no offset (10_state.md R32). -/
theorem rows_apart {r q : RegRow} (hr : r ∈ regMap) (hq : q ∈ regMap) (h : r ≠ q) : r.Apart q := by
  have : Std.Symm RegRow.Apart := ⟨fun _ _ => Or.symm⟩
  exact List.Pairwise.forall (regMap_disjoint.imp .inl) hr hq h

/-- An offset inside a row of the register map finds that row. -/
theorem regRowAt_of_mem {r : RegRow} {off : Nat} (hr : r ∈ regMap) (h1 : r.base ≤ off) (h2 : off < r.base + 4 * r.words) :
    regRowAt off = some r := by
  cases hq : regRowAt off with
  | none => have := List.find?_eq_none.1 hq r hr; simp [h1, h2] at this
  | some q =>
    obtain ⟨hm, h3, h4⟩ := regRowAt_some hq
    by_contra hne
    rcases rows_apart hm hr fun h => hne (congrArg some h) with h | h <;> omega

/-- Different rows hold different registers (10_state.md R32). -/
theorem regMap_names : (regMap.map RegRow.name).Nodup := by decide

theorem eq_of_name_eq {r q : RegRow} (hr : r ∈ regMap) (hq : q ∈ regMap) (h : r.name = q.name) : r = q :=
  List.inj_on_of_nodup_map regMap_names hr hq h

/-- A host read of word `j` of a register (10_state.md R32). -/
theorem hostReadWord_row {r : RegRow} {j : Nat} (s : State) (hr : r ∈ regMap) (hj : j < r.words) :
    hostReadWord s (r.base + 4 * j) = .ok (readReg s r.name j) := by
  have hb := (regMap_bounds r hr).2
  rw [hostReadWord, if_pos (by omega), regRowAt_of_mem hr (by omega) (by omega)]
  simp

/-- A host write of word `j` of a register while BUSY = 0 (10_state.md R32). -/
theorem hostWriteAccess_row {r : RegRow} {s : State} {j : Nat} (v : Word) (hs : s.busy = false) (hr : r ∈ regMap)
    (hj : j < r.words) : hostWriteAccess s (r.base + 4 * j) v = writeReg s v r.name j := by
  have hb := (regMap_bounds r hr).2
  rw [hostWriteAccess, hs, hostWriteWord, if_neg (by simp), if_pos (by omega), regRowAt_of_mem hr (by omega) (by omega)]
  simp

/-- A register of words is read word by word (10_state.md R51). -/
theorem holdsWords_row (n : RegName) {base k m : Nat} {v : BitVec m} {s : State}
    (hr : ⟨n, base, k⟩ ∈ regMap := by decide) (hv : ∀ j, readReg s n j = wordOf v j := by exact fun _ => rfl) :
    HoldsWords s base k v := by
  intro j hj
  rw [hostReadWord_row s hr hj, hv]
  rfl

/-! ## A read after a write -/

/-- The registers whose every bit stores what the host writes (10_state.md R32). -/
def RegName.plain : RegName → Bool
  | .id | .version | .ctrl | .status | .cmd | .outlen | .hlen | .hctl | .pinf => false
  | _ => true

/-- A word of a register writable in every bit reads back what was written to it. -/
theorem readReg_writeReg_self {r : RegRow} {j : Nat} (s : State) (v : Word) (hr : r ∈ regMap) (hp : r.name.plain = true)
    (hj : j < r.words) : readReg (writeReg s v r.name j) r.name j = v := by
  -- by row: not writable in every bit, one word, or several words
  fin_cases hr
  all_goals first | exact absurd hp (by decide) | rfl | exact wordOf_setWord_self _ v (by simp at hj; omega)

/-- Writing a word of a register writable in every bit leaves the register's other words. -/
theorem readReg_writeReg_of_ne_word {r : RegRow} {j k : Nat} (s : State) (v : Word) (hr : r ∈ regMap)
    (hp : r.name.plain = true) (hj : j < r.words) (hk : k < r.words) (h : k ≠ j) :
    readReg (writeReg s v r.name j) r.name k = readReg s r.name k := by
  -- by row: not writable in every bit, several words, or one word
  fin_cases hr
  all_goals first | exact absurd hp (by decide) | exact wordOf_setWord_of_ne _ v h | (simp at hj hk; omega)

/-- Writing a register writable in every bit leaves every other register. -/
theorem readReg_writeReg_of_ne_name {n m : RegName} (s : State) (v : Word) (j k : Nat) (hp : n.plain = true) (h : m ≠ n) :
    readReg (writeReg s v n j) m k = readReg s m k := by
  cases n with
  | id | version | ctrl | status | cmd | outlen | hlen | hctl | pinf => cases hp
  | _ => cases m <;> first | rfl | exact absurd rfl h

theorem writeReg_dmem_env {n : RegName} (s : State) (v : Word) (j : Nat) (hp : n.plain = true) :
    (writeReg s v n j).dmem = s.dmem ∧ (writeReg s v n j).env = s.env := by
  cases n with
  | id | version | ctrl | status | cmd | outlen | hlen | hctl | pinf => cases hp
  | _ => exact ⟨rfl, rfl⟩

/-- An aligned offset inside a row is the offset of one of its words. -/
theorem word_of_offset {r : RegRow} {off : Nat} (hr : r ∈ regMap) (h4 : off % 4 = 0) (h1 : r.base ≤ off)
    (h2 : off < r.base + 4 * r.words) : ∃ j < r.words, off = r.base + 4 * j := by
  have := (regMap_bounds r hr).1
  exact ⟨(off - r.base) / 4, by omega, by omega⟩

/-- The plain offsets are words of the registers writable in every bit. -/
theorem plainOffset_row {off : Nat} (h : PlainOffset off) :
    ∃ r ∈ regMap, r.name.plain = true ∧ ∃ j < r.words, off = r.base + 4 * j := by
  obtain ⟨h4, h⟩ := h
  by_contra hno
  have hout : ∀ r ∈ regMap, r.name.plain = true → off < r.base ∨ r.base + 4 * r.words ≤ off := by
    intro r hr hp
    by_contra hc
    exact hno ⟨r, hr, hp, word_of_offset hr h4 (by omega) (by omega)⟩
  simp only [regMap, RegName.plain, List.forall_mem_cons, forall_const, reduceCtorEq, false_implies, true_and] at hout
  omega

/-- A host read answers the same at two states with the same DMEM and the same register word at the offset. -/
theorem hostReadWord_congr {s t : State} {off : Nat} (h4 : off % 4 = 0) (hd : t.dmem = s.dmem)
    (hw : ∀ r ∈ regMap, ∀ j < r.words, off = r.base + 4 * j → readReg t r.name j = readReg s r.name j) :
    hostReadWord t off = hostReadWord s off := by
  unfold hostReadWord
  split
  · cases hr : regRowAt off with
    | none => rfl
    | some r =>
      obtain ⟨hm, h1, h2⟩ := regRowAt_some hr
      obtain ⟨j, hj, rfl⟩ := word_of_offset hm h4 h1 h2
      simpa using hw r hm j hj rfl
  · rw [hostReadDmem, hostReadDmem, hd]

/-- What a host write to a word of a register writable in every bit does (10_state.md R32, R51). -/
theorem write_plainOffset {s : State} {off : Nat} (v : Word) (hs : s.busy = false) (h : PlainOffset off) :
    hostReadWord (hostWriteAccess s off v) off = .ok v ∧
    (∀ off', off' % 4 = 0 → off' ≠ off → hostReadWord (hostWriteAccess s off v) off' = hostReadWord s off') ∧
    (hostWriteAccess s off v).dmem = s.dmem ∧ (hostWriteAccess s off v).env = s.env := by
  obtain ⟨r, hr, hp, j, hj, rfl⟩ := plainOffset_row h
  obtain ⟨hd, he⟩ := writeReg_dmem_env s v j hp
  rw [hostWriteAccess_row v hs hr hj]
  refine ⟨?_, fun off' h4 hne => hostReadWord_congr h4 hd ?_, hd, he⟩
  · rw [hostReadWord_row _ hr hj, readReg_writeReg_self s v hr hp hj]
  · rintro q hq k hk rfl
    by_cases hqr : q = r
    · subst hqr
      exact readReg_writeReg_of_ne_word s v hr hp hj hk fun hkj => hne (by rw [hkj])
    · exact readReg_writeReg_of_ne_name s v j k hp fun hn => hqr (eq_of_name_eq hq hr hn)

/-! ## The bits of the words with reserved bits -/

/-- The bits of STATUS (10_state.md R36). -/
theorem getLsbD_statusWord (s : State) (i : Nat) :
    (statusWord s).getLsbD i =
      if i = 0 then s.busy else if i = 1 then s.ctl.done else if i = 2 then s.ctl.vok
      else decide (8 ≤ i) && s.ctl.err.getLsbD (i - 8) := by
  refine (BitVec.getLsbD_append
    (x := 0#20 ++ s.ctl.err ++ 0#5 ++ BitVec.ofBool s.ctl.vok ++ BitVec.ofBool s.ctl.done)).trans ?_
  simp only [BitVec.getLsbD_append, -Nat.reduceAdd]
  rcases i with _ | _ | _ | i
  · simp
  · simp
  · simp
  · by_cases h : i < 5
    · simp [h]
    · by_cases h4 : i - 5 < 4
      · simp [h, h4, show 5 ≤ i by omega]
      · simp [h4, BitVec.getLsbD_of_ge s.ctl.err (i - 5) (by omega)]

/-- The bits of STATUS from bit 3 on: ERR at bits 11:8, all others 0 (10_state.md R36). -/
theorem getLsbD_statusWord_high (s : State) {i : Nat} (h : 3 ≤ i) :
    (statusWord s).getLsbD i = (decide (8 ≤ i) && s.ctl.err.getLsbD (i - 8)) := by
  rw [getLsbD_statusWord, if_neg (by omega), if_neg (by omega), if_neg (by omega)]

/-- The bits of CTRL (10_state.md R35). -/
theorem getLsbD_ctrlWord (s : State) (i : Nat) : (ctrlWord s).getLsbD i = (decide (i = 0) && s.ctl.ie) := by
  refine (BitVec.getLsbD_append (x := 0#31)).trans ?_
  simp [BitVec.getLsbD_ofBool]

/-- The bits of HCTL (10_state.md R49). -/
theorem getLsbD_hctlWord (s : State) (i : Nat) : (hctlWord s).getLsbD i = (decide (i = 0) && s.hash.fin) := by
  refine (BitVec.getLsbD_append (x := 0#31)).trans ?_
  simp [BitVec.getLsbD_ofBool]

/-- The bits of PINF (10_state.md R59). -/
theorem getLsbD_pinfWord (s : State) (i : Nat) :
    (pinfWord s).getLsbD i = if i = 0 then s.point.paInf else decide (i = 1) && s.point.pbInf := by
  refine (BitVec.getLsbD_append (x := 0#30 ++ BitVec.ofBool s.point.pbInf)).trans ?_
  rw [BitVec.getLsbD_append]
  rcases i with _ | _ | i <;> simp

/-- The bits of a counter of which `L` was stored: bits 2:0 are hard-wired 0 (10_state.md R48). -/
theorem getLsbD_bitCount_counterBits (c : HashContext) (L : BitVec 64) (i : Nat) :
    ({ c with hlen := counterBits L }.bitCount).getLsbD i = (decide (3 ≤ i) && L.getLsbD i) := by
  refine (BitVec.getLsbD_append (x := counterBits L)).trans ?_
  rw [counterBits, BitVec.getLsbD_extractLsb', BitVec.getLsbD_zero]
  by_cases h : i < 3
  · simp [h]
  · by_cases hi : i < 64
    · simp [h, show 3 ≤ i by omega, show i - 3 < 61 by omega, show 3 + (i - 3) = i by omega]
    · simp [h, BitVec.getLsbD_of_ge L i (by omega)]; omega

/-- Bits 2:0 of the counter are 0 (10_state.md R48). -/
theorem getLsbD_bitCount_low (c : HashContext) {i : Nat} (h : i < 3) : c.bitCount.getLsbD i = false := by
  refine (BitVec.getLsbD_append (x := c.hlen)).trans ?_
  simp [h]

/-! The masks of the bits that are not reserved. -/

theorem getLsbD_mask_one : ∀ i < 32, (1 : Word).getLsbD i = decide (i = 0) := by decide
theorem getLsbD_mask_two_bits : ∀ i < 32, (3 : Word).getLsbD i = decide (i < 2) := by decide
theorem getLsbD_mask_counter : ∀ i < 32, (0xFFFFFFF8 : Word).getLsbD i = decide (3 ≤ i) := by decide
theorem getLsbD_mask_status : ∀ i < 32, (0xF07 : Word).getLsbD i = decide (i < 3 ∨ 8 ≤ i ∧ i < 12) := by decide

/-- A word whose set bits all lie in a mask is 0 outside it. -/
theorem and_not_eq_zero {w m : Word} (h : ∀ i < 32, w.getLsbD i = true → m.getLsbD i = true) : w &&& ~~~m = 0 := by
  apply BitVec.eq_of_getLsbD_eq
  intro i hi
  rw [BitVec.getLsbD_and, BitVec.getLsbD_not]
  cases hw : w.getLsbD i with
  | false => simp
  | true => simp [h i hi hw]

end Sys2Proof.Machine
end

section
/-! PROOF. The statements about the register map, its field registers, and its reserved and read-only parts
(10_state.md R32-R36, R48-R52, R59, R67, R68). -/

namespace Sys2Proof.Machine

/-! ## Accesses at the registers' own offsets -/

/-- A host read of a register of one word (10_state.md R32). -/
theorem hostReadWord_single (s : State) (n : RegName) {base : Nat} (hr : ⟨n, base, 1⟩ ∈ regMap := by decide) :
    hostReadWord s base = .ok (readReg s n 0) := hostReadWord_row (j := 0) s hr Nat.one_pos

/-- A host write to a register of one word while BUSY = 0 (10_state.md R32). -/
theorem hostWriteAccess_single {s : State} (hs : s.busy = false) (base : Nat) (n : RegName) (v : Word)
    (hr : ⟨n, base, 1⟩ ∈ regMap := by decide) : hostWriteAccess s base v = writeReg s v n 0 :=
  hostWriteAccess_row (j := 0) v hs hr Nat.one_pos

/-- CTRL takes a host write busy or not (20_memory.md R112, 70_reset_and_hazards.md R482). -/
theorem hostWriteAccess_ctrl (s : State) (v : Word) : hostWriteAccess s 0x008 v = writeCtrl s v := by
  rw [hostWriteAccess, if_neg (by simp [writableWhileBusy])]
  rfl

/-! ## Fields and byte strings -/

/-- A field is a value when its bits are the value's. -/
theorem extractLsb'_eq_of_bits {w : Word} {lo n : Nat} {x : BitVec n} (h : ∀ i < n, w.getLsbD (lo + i) = x.getLsbD i) :
    w.extractLsb' lo n = x := by
  apply BitVec.eq_of_getLsbD_eq
  intro i hi
  rw [BitVec.getLsbD_extractLsb', h i hi]
  simp [hi]

/-- A 256-bit register holds the little-endian integer of its string (00_scope.md R10, 10_state.md R51, R52). -/
theorem leNat_toLE256 (v : U256) : leNat (toLE256 v) = v.toNat := by
  rw [toLE256, leNat_leBytes]
  exact Nat.mod_eq_of_lt v.isLt

/-- The k bytes of an integer are those of the register of k bytes that holds it (00_scope.md R10). -/
theorem leBytes_eq_leBytes_ofNat {k b : Nat} (hb : 2 ^ b = 256 ^ k) (n : Nat) :
    leBytes k n = leBytes k (BitVec.ofNat b n).toNat := by
  rw [BitVec.toNat_ofNat, hb, leBytes_mod]

/-- CTRL reads as bit 0 of a word when IE is that bit (10_state.md R35). -/
theorem ctrlWord_of_field {s : State} {v : Word} (h : s.ctl.ie = v.getLsbD 0) : ctrlWord s = v &&& 1 := by
  apply BitVec.eq_of_getLsbD_eq
  intro i hi
  rw [getLsbD_ctrlWord, BitVec.getLsbD_and, getLsbD_mask_one i hi, h]
  rcases i with _ | i <;> simp

/-- HCTL reads as bit 0 of a word when FIN is that bit (10_state.md R49). -/
theorem hctlWord_of_field {s : State} {v : Word} (h : s.hash.fin = v.getLsbD 0) : hctlWord s = v &&& 1 := by
  apply BitVec.eq_of_getLsbD_eq
  intro i hi
  rw [getLsbD_hctlWord, BitVec.getLsbD_and, getLsbD_mask_one i hi, h]
  rcases i with _ | i <;> simp

/-- PINF reads as bits 1:0 of a word when its tags are those bits (10_state.md R59). -/
theorem pinfWord_of_fields {s : State} {v : Word} (ha : s.point.paInf = v.getLsbD 0) (hb : s.point.pbInf = v.getLsbD 1) :
    pinfWord s = v &&& 3 := by
  apply BitVec.eq_of_getLsbD_eq
  intro i hi
  rw [getLsbD_pinfWord, BitVec.getLsbD_and, getLsbD_mask_two_bits i hi, ha, hb]
  rcases i with _ | _ | i <;> simp

/-! ## The bit counter -/

/-- The row of HLEN_LO and HLEN_HI (10_state.md R32). -/
theorem hlenRow_mem : ⟨.hlen, 0x140, 2⟩ ∈ regMap := by decide

/-- A write of word `j` of HLEN stores the counter's bits 63:3 and nothing else (10_state.md R48). -/
theorem hostWriteAccess_hlen {s : State} {j : Nat} (hs : s.busy = false) (v : Word) (hj : j < 2) :
    hostWriteAccess s (0x140 + 4 * j) v =
      { s with hash := { s.hash with hlen := counterBits (setWord s.hash.bitCount j v) } } :=
  hostWriteAccess_row v hs hlenRow_mem hj

theorem hostWriteAccess_hlen_frame {s : State} {j : Nat} (hs : s.busy = false) (v : Word) (hj : j < 2) :
    hostWriteAccess s (0x140 + 4 * j) v =
      { s with hash := { s.hash with hlen := (hostWriteAccess s (0x140 + 4 * j) v).hash.hlen } } := by
  rw [hostWriteAccess_hlen hs v hj]

/-- What the host reads from word `k` of HLEN after a write of word `j`. -/
theorem hostReadWord_hlen {s : State} {j k : Nat} (hs : s.busy = false) (v : Word) (hj : j < 2) (hk : k < 2) :
    hostReadWord (hostWriteAccess s (0x140 + 4 * j) v) (0x140 + 4 * k) =
      .ok (wordOf ({ s.hash with hlen := counterBits (setWord s.hash.bitCount j v) }.bitCount) k) := by
  rw [hostWriteAccess_hlen hs v hj]
  exact hostReadWord_row _ hlenRow_mem hk

/-- The bits of the written word of the counter: those of the value, but for bits 2:0 of the counter (10_state.md R48). -/
theorem getLsbD_bitCount_setWord_self (c : HashContext) (v : Word) {i j : Nat} (hi : i < 32) (hj : j < 2) :
    (wordOf ({ c with hlen := counterBits (setWord c.bitCount j v) }.bitCount) j).getLsbD i =
      (decide (3 ≤ 32 * j + i) && v.getLsbD i) := by
  have hv := congrArg (·.getLsbD i) (wordOf_setWord_self c.bitCount v (show 32 * j + 32 ≤ 64 by omega))
  simp only [getLsbD_wordOf, hi, decide_true, Bool.true_and] at hv
  rw [getLsbD_wordOf, getLsbD_bitCount_counterBits, hv]
  simp [hi]

/-- HLEN_LO stores bits 31:3 of what is written to it (10_state.md R48). -/
theorem wordOf_bitCount_setWord_low (c : HashContext) (v : Word) :
    wordOf ({ c with hlen := counterBits (setWord c.bitCount 0 v) }.bitCount) 0 = v &&& 0xFFFFFFF8 := by
  apply BitVec.eq_of_getLsbD_eq
  intro i hi
  rw [getLsbD_bitCount_setWord_self c v hi (by omega), BitVec.getLsbD_and, getLsbD_mask_counter i hi, Bool.and_comm]
  simp

/-- HLEN_HI stores what is written to it (10_state.md R48). -/
theorem wordOf_bitCount_setWord_high (c : HashContext) (v : Word) :
    wordOf ({ c with hlen := counterBits (setWord c.bitCount 1 v) }.bitCount) 1 = v := by
  apply BitVec.eq_of_getLsbD_eq
  intro i hi
  rw [getLsbD_bitCount_setWord_self c v hi (by omega)]
  simp [show 3 ≤ 32 + i by omega]

/-- Writing a word of the counter leaves its other word (10_state.md R48). -/
theorem wordOf_bitCount_setWord_of_ne (c : HashContext) (v : Word) {j k : Nat} (h : k ≠ j) :
    wordOf ({ c with hlen := counterBits (setWord c.bitCount j v) }.bitCount) k = wordOf c.bitCount k := by
  apply BitVec.eq_of_getLsbD_eq
  intro i hi
  have hk := congrArg (·.getLsbD i) (wordOf_setWord_of_ne c.bitCount v h)
  simp only [getLsbD_wordOf, hi, decide_true, Bool.true_and] at hk
  rw [getLsbD_wordOf, getLsbD_wordOf, getLsbD_bitCount_counterBits, hk]
  by_cases h3 : 3 ≤ 32 * k + i
  · simp [h3]
  · simp [h3, getLsbD_bitCount_low c (show 32 * k + i < 3 by omega)]

/-- A write of a word of HLEN leaves what the host reads from the other (10_state.md R48). -/
theorem hostReadWord_hlen_of_ne {s : State} {j k : Nat} (hs : s.busy = false) (v : Word) (hj : j < 2) (hk : k < 2)
    (h : k ≠ j) : hostReadWord (hostWriteAccess s (0x140 + 4 * j) v) (0x140 + 4 * k) = hostReadWord s (0x140 + 4 * k) :=
  calc hostReadWord (hostWriteAccess s (0x140 + 4 * j) v) (0x140 + 4 * k)
    _ = .ok (wordOf s.hash.bitCount k) := by rw [hostReadWord_hlen hs v hj hk, wordOf_bitCount_setWord_of_ne _ v h]
    _ = hostReadWord s (0x140 + 4 * k) := (hostReadWord_row s hlenRow_mem hk).symm

/-- What HLEN_LO stores does not depend on bits 2:0 of what is written to it (10_state.md R48, R68). -/
theorem counterBits_setWord_mask (L : BitVec 64) (v : Word) :
    counterBits (setWord L 0 (v &&& 0xFFFFFFF8)) = counterBits (setWord L 0 v) := by
  apply BitVec.eq_of_getLsbD_eq
  intro i hi
  simp only [counterBits, BitVec.getLsbD_extractLsb', setWord, getLsbD_setField]
  congr 2
  split
  · next h =>
    rw [Nat.mul_zero, Nat.sub_zero, BitVec.getLsbD_and, getLsbD_mask_counter _ (by omega)]
    simp
  · rfl

/-! ## The statements -/

/-- Settles O17: the registers are the rows of the map, their words the bits of the register. -/
theorem registerWordsReadBack : Obligations.RegisterWordsReadBack := by
  refine ⟨fun s => ⟨?_, ?_⟩, fun s => ⟨?_, ?_, ?_, ?_⟩, fun w d v n => ?_, fun s v off => write_plainOffset v⟩
  · exact ⟨hostReadWord_single s .id, hostReadWord_single s .version, hostReadWord_single s .ctrl,
      hostReadWord_single s .status, hostReadWord_single s .cmd, hostReadWord_single s .src, hostReadWord_single s .dst,
      hostReadWord_single s .len, hostReadWord_single s .outlen, hostReadWord_single s .hctl, hostReadWord_single s .pinf⟩
  · exact ⟨holdsWords_row .gkey, holdsWords_row .hh, holdsWords_row .hz, holdsWords_row .hbuf, holdsWords_row .eH,
      holdsWords_row .eD, holdsWords_row .eK, holdsWords_row .eR, holdsWords_row .eS, holdsWords_row .eQX,
      holdsWords_row .eQY, holdsWords_row .paX, holdsWords_row .paY, holdsWords_row .pbX, holdsWords_row .pbY,
      holdsWords_row .mM, holdsWords_row .mR, holdsWords_row .giv, holdsWords_row .hlen, holdsWords_row .tk1,
      holdsWords_row .tk2, holdsWords_row .tk3, holdsWords_row .tiv, holdsWords_row .sbox, holdsWords_row .hsbox,
      holdsWords_row .mX, holdsWords_row .mGX, holdsWords_row .mGY⟩
  · refine ⟨getLsbD_statusWord s 0, by simp [State.busy, Option.isSome_iff_ne_none], getLsbD_statusWord s 1,
      getLsbD_statusWord s 2, extractLsb'_eq_of_bits fun i hi => ?_, extractLsb'_eq_of_bits fun i hi => ?_,
      extractLsb'_eq_of_bits fun i hi => ?_⟩
    · rw [getLsbD_statusWord_high s (by omega)]
      simp [show ¬ 8 ≤ 3 + i by omega]
    · rw [getLsbD_statusWord_high s (by omega)]
      simp
    · rw [getLsbD_statusWord_high s (by omega), BitVec.getLsbD_of_ge s.ctl.err _ (by omega)]
      simp
  · exact ⟨getLsbD_ctrlWord s 0, extractLsb'_eq_of_bits fun i _ => by simp [getLsbD_ctrlWord]⟩
  · exact ⟨getLsbD_hctlWord s 0, extractLsb'_eq_of_bits fun i _ => by simp [getLsbD_hctlWord]⟩
  · refine ⟨getLsbD_pinfWord s 0, getLsbD_pinfWord s 1, extractLsb'_eq_of_bits fun i _ => ?_⟩
    rw [getLsbD_pinfWord, if_neg (by omega), decide_eq_false (by omega)]
    simp
  · exact ⟨leBytes_eq_map 4 w, leBytes_eq_map 8 d, leBytes_eq_map 32 v, le32_toLE32 w, le64_toLE64 d, le256_toLE256 v,
      leNat_toLE256 v, leBytes_eq_leBytes_ofNat (by norm_num) n, leBytes_eq_leBytes_ofNat (by norm_num) n⟩

/-- Settles O18: each write stores its fields, and the word read back is made of them. -/
theorem fieldWrites : Obligations.FieldWrites := by
  refine ⟨fun s v h1 => ?_, fun s v hs => ⟨fun h1 => ?_, ?_, ?_, ?_, ?_⟩⟩
  · have hw : hostWriteAccess s 0x008 v = { s with ctl := { s.ctl with ie := v.getLsbD 0 } } := by
      rw [hostWriteAccess_ctrl, writeCtrl, h1]
      rfl
    refine ⟨hw, ?_⟩
    rw [hw, hostReadWord_single _ .ctrl]
    exact congrArg _ (ctrlWord_of_field rfl)
  · rw [hostWriteAccess_single hs 0x00C .status, writeReg, writeStatus, h1]
    rfl
  · refine ⟨hostWriteAccess_hlen_frame hs v Nat.zero_lt_two, ?_,
      hostReadWord_hlen_of_ne hs v Nat.zero_lt_two Nat.one_lt_two Nat.one_ne_zero⟩
    exact (hostReadWord_hlen hs v Nat.zero_lt_two Nat.zero_lt_two).trans
      (congrArg _ (wordOf_bitCount_setWord_low _ v))
  · refine ⟨hostWriteAccess_hlen_frame hs v Nat.one_lt_two, ?_,
      hostReadWord_hlen_of_ne hs v Nat.one_lt_two Nat.zero_lt_two Nat.zero_ne_one⟩
    exact (hostReadWord_hlen hs v Nat.one_lt_two Nat.one_lt_two).trans
      (congrArg _ (wordOf_bitCount_setWord_high _ v))
  · have hw := hostWriteAccess_single hs 0x148 .hctl v
    refine ⟨hw, ?_⟩
    rw [hw, hostReadWord_single _ .hctl]
    exact congrArg _ (hctlWord_of_field rfl)
  · have hw := hostWriteAccess_single hs 0x360 .pinf v
    refine ⟨hw, ?_⟩
    rw [hw, hostReadWord_single _ .pinf]
    exact congrArg _ (pinfWord_of_fields rfl rfl)

/-- Settles O19: a reserved offset is in no row of the map, and the other words keep their reserved bits at 0. -/
theorem reservedAndReadOnly : Obligations.ReservedAndReadOnly := by
  refine ⟨fun s v off h => ?_, fun s v hs => ⟨⟨?_, ?_, ?_⟩, ⟨?_, ?_, ?_⟩, ⟨?_, ?_, ?_, ?_⟩, ?_, ?_, ?_, ?_, ?_⟩⟩
  · obtain ⟨hread, haccess, hwrite⟩ := access_reserved h s
    exact ⟨hread, haccess, hwrite v⟩
  · exact hostWriteAccess_single hs 0x000 .id v
  · exact hostWriteAccess_single hs 0x004 .version v
  · exact hostWriteAccess_single hs 0x020 .outlen v
  · exact hostReadWord_single s .id
  · exact hostReadWord_single s .version
  · exact hostReadWord_single s .cmd
  · refine and_not_eq_zero fun i hi h => ?_
    rw [getLsbD_ctrlWord, Bool.and_eq_true] at h
    exact (getLsbD_mask_one i hi).trans h.1
  · refine and_not_eq_zero fun i hi h => ?_
    rw [getLsbD_mask_status i hi, decide_eq_true_eq]
    by_contra hout
    rw [getLsbD_statusWord_high s (by omega), Bool.and_eq_true, decide_eq_true_eq] at h
    rw [BitVec.getLsbD_of_ge s.ctl.err _ (by omega)] at h
    exact Bool.false_ne_true h.2
  · refine and_not_eq_zero fun i hi h => ?_
    rw [getLsbD_hctlWord, Bool.and_eq_true] at h
    exact (getLsbD_mask_one i hi).trans h.1
  · refine and_not_eq_zero fun i hi h => ?_
    rw [getLsbD_mask_two_bits i hi, decide_eq_true_eq]
    by_contra hout
    rw [getLsbD_pinfWord, if_neg (by omega), decide_eq_false (by omega)] at h
    exact Bool.false_ne_true h
  · simp [hostWriteAccess_ctrl, writeCtrl]
  · simp [hostWriteAccess_single hs 0x00C .status, writeReg, writeStatus]
  · simp [hostWriteAccess_single hs 0x148 .hctl, writeReg]
  · simp [hostWriteAccess_single hs 0x360 .pinf, writeReg]
  · rw [hostWriteAccess_hlen hs v Nat.zero_lt_two, hostWriteAccess_hlen hs (v &&& _) Nat.zero_lt_two,
      counterBits_setWord_mask]

end Sys2Proof.Machine
end

section
/-! PROOF. The signer's scalar E_D is isolated (10_state.md R54): each command's pseudocode commutes with replacing E_D. -/

namespace Sys2Proof.Machine

/-- The state with E_D replaced. -/
def State.withScalar (s : State) (d : U256) : State := { s with sign := { s.sign with eD := d } }

/-- The effect with E_D replaced in the state it leaves, if it leaves one. -/
def Effect.withScalar (d : U256) : Effect → Effect
  | .ok t => .ok (t.withScalar d)
  | .raise e => .raise e
  | .fault f => .fault f

/-- The outcome with E_D replaced in the state it answers, if it answers one. -/
def outcomeWithScalar (d : U256) : Host.Outcome State Fault Refusal → Host.Outcome State Fault Refusal
  | .next t => .next (t.withScalar d)
  | .fault f => .fault f
  | .refused r => .refused r

section

variable (s : State) (d : U256)

@[simp] theorem withScalar_hash : (s.withScalar d).hash = s.hash := rfl
@[simp] theorem withScalar_sign : (s.withScalar d).sign = { s.sign with eD := d } := rfl
@[simp] theorem withScalar_modu : (s.withScalar d).modu = s.modu := rfl
@[simp] theorem withScalar_keys : (s.withScalar d).keys = s.keys := rfl
@[simp] theorem withScalar_dmem : (s.withScalar d).dmem = s.dmem := rfl
@[simp] theorem withScalar_dstOff : (s.withScalar d).dstOff = s.dstOff := rfl
@[simp] theorem withScalar_pointA : (s.withScalar d).pointA = s.pointA := rfl
@[simp] theorem withScalar_pointB : (s.withScalar d).pointB = s.pointB := rfl

@[simp] theorem withScalar_self : s.withScalar s.sign.eD = s := rfl

theorem writeOutput_withScalar (out : Bytes) :
    (s.withScalar d).writeOutput out = (s.writeOutput out).withScalar d := rfl

theorem setPointA_withScalar (p : Point) : (s.withScalar d).setPointA p = (s.setPointA p).withScalar d := by
  cases p <;> rfl

/-- Completion commutes with replacing E_D: neither outcome of a command writes it (30_encoding.md R146). -/
theorem complete_withScalar (e : Effect) :
    complete (s.withScalar d) (e.withScalar d) = outcomeWithScalar d (complete s e) := by
  cases e <;> rfl

/-- A check that does not look at E_D raises the same error, and goes on the same where what follows does. -/
theorem guard_withScalar {c : Prop} [Decidable c] (e : ErrCode) {a a' : Effect} (h : a' = a.withScalar d) :
    (if c then .raise e else a') = (if c then .raise e else a).withScalar d := by
  split
  · rfl
  · exact h

/-- The bytes of an input region do not depend on E_D, so the effect does not where its continuation does not. -/
theorem readInput_withScalar (off n : Nat) {k k' : Bytes → Effect} (h : ∀ b, k' b = (k b).withScalar d) :
    readInput (s.withScalar d) off n k' = (readInput s off n k).withScalar d := by
  simp only [readInput, withScalar_dmem]
  cases s.dmem.read off n with
  | ok b => exact h b
  | error a => rfl

theorem readFixed32_withScalar {k k' : Bytes → Effect} (h : ∀ b, k' b = (k b).withScalar d) :
    readFixed32 (s.withScalar d) k' = (readFixed32 s k).withScalar d := by
  rw [readFixed32, readFixed32, apply_ite (Effect.withScalar d)]
  exact ite_congr rfl (fun _ => readInput_withScalar s d _ _ h) fun _ => rfl

/-! Each command's pseudocode with E_D replaced. -/

theorem ecbEffect_withScalar (f : Bytes → Bytes) :
    ecbEffect f (s.withScalar d) = (ecbEffect f s).withScalar d :=
  guard_withScalar d _ (guard_withScalar d _ (readInput_withScalar s d _ _ fun _ => rfl))

theorem gGammaEffect_withScalar (first : Bool) :
    gGammaEffect first (s.withScalar d) = (gGammaEffect first s).withScalar d :=
  guard_withScalar d _ (readInput_withScalar s d _ _ fun _ => rfl)

theorem hUpdateEffect_withScalar : hUpdateEffect (s.withScalar d) = (hUpdateEffect s).withScalar d :=
  guard_withScalar d _ (guard_withScalar d _ (readInput_withScalar s d _ _ fun _ => rfl))

theorem hFinalEffect_withScalar : hFinalEffect (s.withScalar d) = (hFinalEffect s).withScalar d := by
  simp only [hFinalEffect, withScalar_hash, withScalar_dstOff, withScalar_sign, writeOutput_withScalar]
  exact guard_withScalar d _ (guard_withScalar d _ rfl)

theorem ePaddEffect_withScalar : ePaddEffect (s.withScalar d) = (ePaddEffect s).withScalar d := by
  simp only [ePaddEffect, withScalar_pointA, withScalar_pointB, setPointA_withScalar]
  cases padd s.pointA s.pointB <;> rfl

theorem ePmulEffect_withScalar : ePmulEffect (s.withScalar d) = (ePmulEffect s).withScalar d := by
  simp only [ePmulEffect, withScalar_sign, withScalar_pointA, setPointA_withScalar]
  cases pmul s.sign.eK.toNat s.pointA <;> rfl

theorem eVerifyEffect_withScalar : eVerifyEffect (s.withScalar d) = (eVerifyEffect s).withScalar d := by
  simp only [eVerifyEffect, withScalar_sign]
  refine guard_withScalar d _ (guard_withScalar d _ (guard_withScalar d _ ?_))
  cases modinv s.sign.eH.toNat curveQ with
  | none => rfl
  | some v =>
    dsimp only
    cases verifyPoint v s.sign.eR.toNat s.sign.eS.toNat s.sign.eQX.toNat s.sign.eQY.toNat with
    | none => rfl
    | some C =>
      cases C with
      | infinity => rfl
      | affine x y => rw [apply_ite (Effect.withScalar d)]; rfl

theorem mModEffect_withScalar : mModEffect (s.withScalar d) = (mModEffect s).withScalar d :=
  guard_withScalar d _ rfl

theorem mInvEffect_withScalar : mInvEffect (s.withScalar d) = (mInvEffect s).withScalar d := by
  simp only [mInvEffect, withScalar_modu]
  refine guard_withScalar d _ ?_
  cases modinv s.modu.mX.toInt s.modu.mM.toNat <;> rfl

theorem mEgcdEffect_withScalar : mEgcdEffect (s.withScalar d) = (mEgcdEffect s).withScalar d := by
  simp only [mEgcdEffect, withScalar_modu]
  exact guard_withScalar d _ rfl

theorem tFrmencEffect_withScalar : tFrmencEffect (s.withScalar d) = (tFrmencEffect s).withScalar d :=
  guard_withScalar d _ (guard_withScalar d _ (readInput_withScalar s d _ _ fun _ => guard_withScalar d _ rfl))

theorem tFrmdecEffect_withScalar : tFrmdecEffect (s.withScalar d) = (tFrmdecEffect s).withScalar d := by
  refine guard_withScalar d _ (guard_withScalar d _ (readInput_withScalar s d _ _ fun Y => ?_))
  simp only [withScalar_keys, withScalar_dstOff, writeOutput_withScalar]
  cases unframe (cbcDecrypt s.keys Y) with
  | none => rfl
  | some P => exact guard_withScalar d _ rfl

/-- Every command but E_KEYGEN and E_SIGN comes to the same whatever E_D holds, E_D itself apart (30_encoding.md R144). -/
theorem effectOf_withScalar {i : Instr} (hk : i ≠ .eKeygen) (hs : i ≠ .eSign) :
    effectOf i (s.withScalar d) = (effectOf i s).withScalar d := by
  cases i with
  | nop | gSboxdef | hInit => rfl
  | gKeyload | hStep | tKeyload => exact readFixed32_withScalar s d fun _ => rfl
  | gEcbenc | gEcbdec => exact ecbEffect_withScalar s d _
  | gGamma first => exact gGammaEffect_withScalar s d first
  | hUpdate => exact hUpdateEffect_withScalar s d
  | hFinal => exact hFinalEffect_withScalar s d
  | ePadd => exact ePaddEffect_withScalar s d
  | ePmul => exact ePmulEffect_withScalar s d
  | eKeygen => exact absurd rfl hk
  | eSign => exact absurd rfl hs
  | eVerify => exact eVerifyEffect_withScalar s d
  | mMod => exact mModEffect_withScalar s d
  | mInv => exact mInvEffect_withScalar s d
  | mEgcd => exact mEgcdEffect_withScalar s d
  | tFrmenc => exact tFrmencEffect_withScalar s d
  | tFrmdec => exact tFrmdecEffect_withScalar s d

theorem exec_withScalar {i : Instr} (hk : i ≠ .eKeygen) (hs : i ≠ .eSign) :
    exec i (s.withScalar d) = outcomeWithScalar d (exec i s) := by
  rw [exec_complete, exec_complete, effectOf_withScalar s d hk hs, complete_withScalar]

end

/-- E_KEYGEN writes E_Q alone (44_signer.md R341). -/
theorem eKeygenEffect_keeps_eD {s u : State} (h : eKeygenEffect s = .ok u) : u.sign.eD = s.sign.eD := by
  unfold eKeygenEffect at h
  repeat' split at h
  all_goals cases h
  rfl

/-- E_SIGN writes E_R and E_S alone (44_signer.md R342). -/
theorem eSignEffect_keeps_eD {s u : State} (h : eSignEffect s = .ok u) : u.sign.eD = s.sign.eD := by
  unfold eSignEffect at h
  repeat' split at h
  all_goals cases h
  rfl

/-- A command whose writes keep E_D keeps it when it completes, with or without an error (60_exceptions.md R432). -/
theorem exec_keeps_eD_of_effect {i : Instr} {s t : State} (hok : ∀ u, effectOf i s = .ok u → u.sign.eD = s.sign.eD)
    (h : exec i s = .next t) : t.sign.eD = s.sign.eD := by
  rcases exec_next h with ⟨u, hu, rfl⟩ | ⟨c, -, rfl⟩
  · exact hok u hu
  · rfl

/-- No command writes E_D: one that does not depend on E_D leaves, when E_D is replaced by itself, what it left before. -/
theorem exec_keeps_eD {i : Instr} {s t : State} (h : exec i s = .next t) : t.sign.eD = s.sign.eD := by
  by_cases hk : i = .eKeygen
  · subst hk; exact exec_keeps_eD_of_effect (i := .eKeygen) (fun _ hu => eKeygenEffect_keeps_eD hu) h
  by_cases hs : i = .eSign
  · subst hs; exact exec_keeps_eD_of_effect (i := .eSign) (fun _ hu => eSignEffect_keeps_eD hu) h
  have hself := exec_withScalar s s.sign.eD hk hs
  rw [withScalar_self, h, outcomeWithScalar] at hself
  rw [Host.Outcome.next.inj hself]
  rfl

/-- Settles O35: every command's effect commutes with replacing E_D, and the two commands that read it do not write it. -/
theorem privateScalarIsolated : Obligations.PrivateScalarIsolated := by
  refine ⟨fun i s d hk hs => ?_, fun i s t => exec_keeps_eD⟩
  refine (exec_withScalar s d hk hs).trans ?_
  cases exec i s <;> rfl

end Sys2Proof.Machine
end

section
/-! PROOF. Every step keeps STATUS, OUTLEN and DMEM consistent (20_memory.md R100; 30_encoding.md R145, R146;
60_exceptions.md R430, R432). -/

namespace Sys2Proof.Machine

-- Added to the environment at once, so that the proofs from here on are elaborated after the kernel has checked the
-- tests above and not beside them: the tests' memory and that of these proofs are then not needed at the same time.
set_option Elab.async false in
/-- Consistency speaks of CTRL, STATUS, OUTLEN and DMEM only. -/
theorem State.Consistent.of_fields {s t : State} (h : s.Consistent) (hc : t.ctl = s.ctl)
    (ho : t.io.outlen = s.io.outlen) (hd : t.dmem.wf) : t.Consistent where
  dmem := hd
  busy := by simpa only [State.busy, hc, ho] using h.busy
  err := by rw [hc]; exact h.err
  vok := by rw [hc]; exact h.vok
  failed := by rw [hc, ho]; exact h.failed
  outlen := by rw [ho]; exact h.outlen

/-- A state with its control registers and OUTLEN at their reset values is consistent (10_state.md R72). -/
theorem consistent_of_reset_fields {t : State} (hc : t.ctl = State.reset.ctl) (ho : t.io.outlen = 0) (hd : t.dmem.wf) :
    t.Consistent where
  dmem := hd
  busy := by simp [State.busy, hc, State.reset]
  err := by simp [hc, State.reset]
  vok := by simp [hc, State.reset]
  failed := by simp [hc, State.reset]
  outlen := by simp [ho]

/-- A command that completes with an error leaves a consistent state (60_exceptions.md R430, R432). -/
theorem failed_consistent {s : State} {w : Word} (e : ErrCode) (h : s.Consistent) (hp : s.ctl.pending = some w) :
    (failed s e.code).Consistent := by
  obtain ⟨-, hvok, -, houtlen⟩ := h.busy (by simp [State.busy, hp])
  exact ⟨h.dmem, nofun, (code_range e).2, fun hv => absurd (hvok.symm.trans hv) Bool.false_ne_true, fun _ => houtlen,
    h.outlen⟩

/-- A command that completes without error leaves a consistent state: ERR is still the 0 its start left, and OUTLEN is at
most the length of an output that lies inside DMEM (30_encoding.md R145, R146; 20_memory.md R107). -/
theorem completed_consistent {s u : State} {i : Instr} {w : Word} (h : s.Consistent) (hp : s.ctl.pending = some w)
    (hu : effectOf i s = .ok u) : (completed u).Consistent := by
  obtain ⟨-, -, herr, -⟩ := h.busy (by simp [State.busy, hp])
  obtain ⟨-, hctl, -, -, hout⟩ := ok_writes hu
  have herr' : (completed u).ctl.err = 0 := (congrArg ControlRegs.err hctl).trans herr
  have hmem : u.dmem.wf ∧ u.io.outlen.toNat ≤ Config.dmemSize := by
    rcases hout with ⟨ho, hd⟩ | ⟨out, hr, ho, hd⟩
    · rw [ho, hd]; exact ⟨h.dmem, h.outlen⟩
    · rw [ho, hd, BitVec.toNat_ofNat]
      have := Nat.mod_le out.length (2 ^ 32)
      exact ⟨write_wf h.dmem hr, by unfold Config.dmemSize; omega⟩
  exact ⟨hmem.1, nofun, by rw [herr']; decide, fun _ => herr', fun hne => absurd herr' hne, hmem.2⟩

/-- The completion of a due command, legal or not, keeps the state consistent (30_encoding.md R146, R147). -/
theorem exec_consistent {s t : State} {i : Instr} {w : Word} (h : s.Consistent) (hp : s.ctl.pending = some w)
    (ht : exec i s = .next t) : t.Consistent := by
  rcases exec_next ht with ⟨u, hu, rfl⟩ | ⟨e, -, rfl⟩
  · exact completed_consistent h hp hu
  · exact failed_consistent e h hp

theorem accept_consistent {s : State} (w : Word) (h : s.Consistent) : (s.accept w).Consistent where
  dmem := h.dmem
  busy := fun _ => ⟨rfl, rfl, rfl, rfl⟩
  err := by simp
  vok := by simp
  failed := by simp
  outlen := by simp

theorem writeCtrl_consistent {s : State} (v : Word) (h : s.Consistent) : (writeCtrl s v).Consistent := by
  unfold writeCtrl
  split
  · exact consistent_of_reset_fields rfl rfl h.dmem
  · exact ⟨h.dmem, h.busy, h.err, h.vok, h.failed, h.outlen⟩

/-- Clearing DONE keeps the state consistent: while BUSY = 1 it is 0 already (10_state.md R36). -/
theorem writeStatus_consistent {s : State} (v : Word) (h : s.Consistent) : (writeStatus s v).Consistent := by
  unfold writeStatus
  split
  · exact ⟨h.dmem, fun hb => ⟨rfl, (h.busy hb).2⟩, h.err, h.vok, h.failed, h.outlen⟩
  · exact h

/-- A host write keeps the state consistent (20_memory.md R100, R111; 30_encoding.md R145). -/
theorem hostWriteAccess_consistent {s : State} {off : Nat} (v : Word) (h : s.Consistent) (h4 : off % 4 = 0)
    (ho : off < 8192) : (hostWriteAccess s off v).Consistent := by
  rcases write_cases s off v h4 ho with
    hw | ⟨-, hw⟩ | ⟨-, ⟨-, hw⟩ | ⟨-, hw⟩ | ⟨hctl, hout, -, hmem⟩⟩
  · rw [hw]; exact h
  · rw [hw]; exact writeCtrl_consistent v h
  · rw [hw]; exact writeStatus_consistent v h
  · rw [hw]; exact accept_consistent v h
  · refine h.of_fields hctl hout ?_
    rcases hmem with hd | ⟨a, b, hr, hd⟩
    · rw [hd]; exact h.dmem
    · rw [hd]; exact write_wf h.dmem hr

/-- A host event that GCORE takes keeps the state consistent. -/
theorem hostEvent_consistent {s t : State} {ev : HostEvent} (h : s.Consistent) (ht : hostEvent s ev = .next t) :
    t.Consistent := by
  rcases event_cases ht with ⟨-, rfl⟩ | rfl | ⟨-, -, -, ht, -, -⟩ | ⟨off, v, -, ho, h4, rfl⟩
  · exact consistent_of_reset_fields rfl rfl ⟨.nil, nofun⟩
  · exact h
  · rw [ht]; exact h.of_fields rfl rfl h.dmem
  · exact hostWriteAccess_consistent v h h4 ho

/-- Settles O11, by what the step is: a command's completion, that of an illegal word, or the host's turn. -/
theorem stepKeepsConsistent : Obligations.StepKeepsConsistent := by
  intro s t h ht
  rcases step_cases s with ⟨w, i, hdue, -, hstep⟩ | ⟨w, e, hdue, -, hstep⟩ | ⟨hdue, -⟩
  · exact exec_consistent h (commandDue_some hdue).1 (hstep.symm.trans ht)
  · cases hstep.symm.trans ht
    exact failed_consistent .illegalCommand h (commandDue_some hdue).1
  · rcases hostTurn_next hdue ht with ⟨-, rfl⟩ | ⟨ev, rest, -, hev⟩
    · exact h
    · exact hostEvent_consistent (s := afterHost s rest) (h.of_fields rfl rfl h.dmem) hev

end Sys2Proof.Machine
end

section
/-! PROOF. What a host access does: outside the bus contract, on DMEM words, while BUSY = 1, and done twice
(20_memory.md R101-R103, R111, R112). -/

namespace Sys2Proof.Machine

/-! ## Accesses outside the bus contract -/

theorem apertureOffset_of_inAperture {addr : Nat} (h : InAperture addr) :
    apertureOffset addr = some (addr - Config.gcoreBase) := if_pos h

theorem apertureOffset_of_not_inAperture {addr : Nat} (h : ¬InAperture addr) : apertureOffset addr = none := if_neg h

/-- A width or an alignment the bus contract does not define (20_memory.md R102). -/
theorem busContract_eq_false {off width : Nat} (h : width ≠ 4 ∨ off % 4 ≠ 0) : busContract off width = false := by
  rw [Bool.eq_false_iff, Ne, busContract_iff]
  omega

/-- Settles O21: a host access is judged by the aperture, then by the bus contract, whichever way its word goes. -/
theorem accessesOutsideTheContract : Obligations.AccessesOutsideTheContract := by
  rintro s rest addr width v (h | h)
  all_goals
    rw [step_host h]
    refine ⟨fun hin hbad => ?_, fun hout => ?_⟩
    · rw [hostEvent, apertureOffset_of_inAperture hin]
      simp [busContract_eq_false hbad]
    · rw [hostEvent, apertureOffset_of_not_inAperture hout]
      rfl

/-! ## DMEM words -/

/-- A host write in the DMEM window while BUSY = 0 stores the word's bytes (20_memory.md R101). -/
theorem hostWriteAccess_dmem {s : State} {off : Nat} (v : Word) (hs : s.busy = false) (h : 0x1000 ≤ off) :
    hostWriteAccess s off v = { s with dmem := s.dmem.write (off - dmemWindow) (toLE32 v) } := by
  rw [hostWriteAccess, hs, if_neg (by simp), hostWriteWord, if_neg (by simpa [dmemWindow] using h)]

/-- Word `k` of the DMEM window is the bytes from 4k on (20_memory.md R101). -/
theorem dmemWindow_word (k : Nat) : 0x1000 + 4 * k - dmemWindow = 4 * k := by
  rw [dmemWindow]
  omega

theorem hostReadWord_dmem (s : State) {off : Nat} (h : 0x1000 ≤ off) : hostReadWord s off = hostReadDmem s off :=
  if_neg (by simpa [dmemWindow] using h)

theorem getElem?_toLE32 (v : Word) {i : Nat} (hi : i < 4) : (toLE32 v)[i]? = some (byteOf v i) := by
  rw [toLE32, leBytes_eq_map]
  simp [hi, byteOf]

/-- What a write of a word's bytes leaves at each address (20_memory.md R101, R105). -/
theorem byteAt_write_toLE32 (m : Memory) (off : Nat) (v : Word) (a : Nat) :
    (m.write off (toLE32 v)).byteAt a =
      if off ≤ a ∧ a < off + 4 then some (byteOf v (a - off)) else m.byteAt a := by
  rw [byteAt_write, length_toLE32]
  split
  · next h => exact getElem?_toLE32 v (by omega)
  · rfl

/-- A byte put in front of a string goes below the integer the string reads as (00_scope.md R10). -/
theorem leNat_cons_eq_toNat_append {n : Nat} {x : BitVec n} {b : Byte} {bs : Bytes} (h : leNat bs = x.toNat) :
    leNat (b :: bs) = (x ++ b).toNat := by
  rw [leNat, h, BitVec.toNat_append, ← Nat.shiftLeft_add_eq_or_of_lt b.isLt, Nat.shiftLeft_eq]
  omega

/-- The LE32 of four bytes is the word they make, the first one lowest (00_scope.md R10). -/
theorem le32_four (b0 b1 b2 b3 : Byte) : le32 [b0, b1, b2, b3] = b3 ++ b2 ++ b1 ++ b0 := by
  have hlast : leNat [b3] = b3.toNat := Nat.add_zero _
  have h : leNat [b0, b1, b2, b3] = (b3 ++ b2 ++ b1 ++ b0 : Word).toNat :=
    leNat_cons_eq_toNat_append (leNat_cons_eq_toNat_append (leNat_cons_eq_toNat_append hlast))
  rw [le32, h, BitVec.ofNat_toNat, BitVec.setWidth_eq]

/-- Settles O20: a write is the word's four bytes stored, a read the LE32 of the four bytes found. -/
theorem dmemWordsAreLittleEndian : Obligations.DmemWordsAreLittleEndian := by
  intro s k v hs hk
  have hwrite := hostWriteAccess_dmem (off := 0x1000 + 4 * k) v hs (by omega)
  refine ⟨⟨by rw [hwrite], fun a => ?_⟩, fun b0 b1 b2 b3 h0 h1 h2 h3 => ?_⟩
  · rw [hwrite, dmemWindow_word]
    exact byteAt_write_toLE32 s.dmem (4 * k) v a
  · have hread : s.dmem.read (4 * k) 4 = .ok [b0, b1, b2, b3] := by
      refine (read_ok_iff _ _ _ _).2 ⟨rfl, fun j hj => ?_⟩
      interval_cases j
      · exact h0
      · exact h1
      · exact h2
      · exact h3
    rw [hostReadWord_dmem s (by omega), hostReadDmem, dmemWindow_word, hread]
    exact congrArg _ (le32_four b0 b1 b2 b3)

/-! ## Accesses while BUSY = 1 -/

/-- A host read below the DMEM window returns a word: a register's, or 0 (10_state.md R32, R67). -/
theorem hostReadWord_below_dmem (s : State) {off : Nat} (h : off < dmemWindow) : ∃ x, hostReadWord s off = .ok x := by
  rw [hostReadWord, if_pos h]
  split
  · exact ⟨_, rfl⟩
  · exact ⟨_, rfl⟩

/-- What is read exactly while BUSY = 1 lies below the DMEM window (20_memory.md R112). -/
theorem lt_dmemWindow_of_readableWhileBusy {off : Nat} (h : readableWhileBusy off = true) : off < dmemWindow := by
  simp only [readableWhileBusy, reservedOffset, Bool.or_eq_true, beq_iff_eq, Bool.and_eq_true, decide_eq_true_eq] at h
  unfold dmemWindow at *
  omega

/-- A host read of a word that is exact now: the read while BUSY = 0, or that of an offset readable while BUSY
(20_memory.md R112). -/
theorem hostReadAccess_ok {s : State} {addr off : Nat} {x : Word} (h : s.busy = false ∨ readableWhileBusy off = true)
    (hx : hostReadWord s off = .ok x) : hostReadAccess s addr off = .next (s.noteRead addr x) := by
  rw [hostReadAccess, hx, if_neg (by rcases h with h | h <;> simp [h])]

/-- A host read while BUSY = 0 faults where the read of the word does (20_memory.md R118). -/
theorem hostReadAccess_error {s : State} {addr off : Nat} {f : Fault} (hs : s.busy = false)
    (hf : hostReadWord s off = .error f) : hostReadAccess s addr off = .fault f := by
  rw [hostReadAccess, hs, hf]
  rfl

/-- A write to CTRL with SRST = 1 is the soft reset, busy or not (10_state.md R35, 70_reset_and_hazards.md R471). -/
theorem hostWriteAccess_srst (s : State) {v : Word} (hv : v.getLsbD 1 = true) :
    hostWriteAccess s 0x008 v = s.softReset := by
  rw [hostWriteAccess_ctrl, writeCtrl, if_pos hv]

/-- A host read while BUSY = 1 returns a word, exact or free, and changes the model's own record alone (20_memory.md R112). -/
theorem hostReadAccess_busy {s : State} (addr off : Nat) (hs : s.busy = true) :
    ∃ (x : Word) (t : State), hostReadAccess s addr off = .next t ∧ t = { s with env := t.env } ∧
      t.env.todo = s.env.todo ∧ t.env.seen = ⟨addr, x⟩ :: s.env.seen := by
  cases hr : readableWhileBusy off with
  | false =>
    refine ⟨_, s.draw.noteRead addr (Config.busyRead s.env.draws), ?_, rfl, rfl, rfl⟩
    rw [hostReadAccess, if_pos (by simp [hs, hr])]
  | true =>
    obtain ⟨x, hx⟩ := hostReadWord_below_dmem s (lt_dmemWindow_of_readableWhileBusy hr)
    exact ⟨x, _, hostReadAccess_ok (.inr hr) hx, rfl, rfl, rfl⟩

/-- Settles O15: while BUSY = 1 a write reaches CTRL alone, and a read is exact or takes a free value. -/
theorem busyAccesses : Obligations.BusyAccesses := by
  intro s rest off v hs ho h4
  have hs' : (afterHost s rest).busy = true := hs
  refine ⟨fun h => ?_, fun h => ?_⟩
  · rw [step_write h ho h4]
    refine ⟨fun h8 => ?_, fun h8 hv => ?_⟩
    · rw [hostWriteAccess, if_pos (by simp [hs', writableWhileBusy, h8])]
    · rw [h8, hostWriteAccess_ctrl, writeCtrl, hv]
      rfl
  · rw [step_read h ho h4]
    refine ⟨?_, ?_, ?_, ?_, fun hres => (access_reserved hres _).2.1 _, fun _ _ _ _ => hostReadAccess_busy _ off hs'⟩
    · rintro rfl
      exact hostReadAccess_ok (.inr rfl) (hostReadWord_single _ .id)
    · rintro rfl
      exact hostReadAccess_ok (.inr rfl) (hostReadWord_single _ .version)
    · rintro rfl
      exact hostReadAccess_ok (.inr rfl) (hostReadWord_single _ .ctrl)
    · rintro rfl
      exact hostReadAccess_ok (.inr rfl) (hostReadWord_single _ .status)

/-! ## Side effects and idempotence -/

/-- Writing the same field twice is writing it once. -/
theorem setField_setField_self {n k : Nat} (v : BitVec n) (lo : Nat) (x : BitVec k) :
    setField (setField v lo x) lo x = setField v lo x := by
  apply BitVec.eq_of_getLsbD_eq
  intro i hi
  simp only [getLsbD_setField]
  split <;> simp

@[simp] theorem setWord_setWord_self {n : Nat} (v : BitVec n) (j : Nat) (w : Word) :
    setWord (setWord v j w) j w = setWord v j w := setField_setField_self v _ w

/-- The counter stores the same when the same word is written to it twice (10_state.md R48). -/
theorem counterBits_setWord_bitCount (c : HashContext) (j : Nat) (v : Word) :
    counterBits (setWord ({ c with hlen := counterBits (setWord c.bitCount j v) }.bitCount) j v) =
      counterBits (setWord c.bitCount j v) := by
  apply BitVec.eq_of_getLsbD_eq
  intro i hi
  simp only [counterBits, BitVec.getLsbD_extractLsb', setWord, getLsbD_setField]
  rw [← counterBits, ← setWord, getLsbD_bitCount_counterBits, setWord, getLsbD_setField]
  split <;> simp

theorem writeCtrl_writeCtrl (s : State) (v : Word) : writeCtrl (writeCtrl s v) v = writeCtrl s v := by
  unfold writeCtrl
  split <;> rfl

theorem writeStatus_writeStatus (s : State) (v : Word) : writeStatus (writeStatus s v) v = writeStatus s v := by
  unfold writeStatus
  split <;> rfl

/-- A register write done twice has the effect of one, but for CMD (20_memory.md R111). -/
theorem writeReg_writeReg (s : State) (v : Word) {n : RegName} (j : Nat) (h : n ≠ .cmd) :
    writeReg (writeReg s v n j) v n j = writeReg s v n j := by
  cases n with
  | cmd => exact absurd rfl h
  | ctrl => exact writeCtrl_writeCtrl s v
  | status => exact writeStatus_writeStatus s v
  | hlen => simp only [writeReg, counterBits_setWord_bitCount]
  | _ => simp only [writeReg, setWord_setWord_self]

theorem writeReg_busy {s : State} (v : Word) {n : RegName} (j : Nat) (h : n ≠ .cmd) (hs : s.busy = false) :
    (writeReg s v n j).busy = false := by
  cases n with
  | cmd => exact absurd rfl h
  | ctrl => rw [writeReg, writeCtrl]; split; exacts [rfl, hs]
  | status => rw [writeReg, writeStatus]; split; exacts [hs, hs]
  | _ => exact hs

/-- Writing the same word twice to DMEM leaves what writing it once leaves (20_memory.md R111). -/
theorem write_write_self {m : Memory} {off : Nat} {bs : Bytes} (h : m.wf) (hr : off + bs.length ≤ Config.dmemSize) :
    (m.write off bs).write off bs = m.write off bs := by
  refine eq_of_byteAt_eq (write_wf (write_wf h hr) hr) (write_wf h hr) fun a => ?_
  rw [byteAt_write]
  split
  · next ha => rw [byteAt_write, if_pos ha]
  · rfl

/-- An aligned offset below the DMEM window is that of a register word, or a host write there has no effect
(10_state.md R32, R67). -/
theorem register_word_or_no_effect (off : Nat) (h4 : off % 4 = 0) (h : off < 0x1000) :
    (∃ r ∈ regMap, ∃ j < r.words, off = r.base + 4 * j) ∨ ∀ s v, hostWriteAccess s off v = s := by
  cases hr : regRowAt off with
  | none =>
    refine .inr fun s v => ?_
    simp [hostWriteAccess, hostWriteWord, dmemWindow, h, hr]
  | some r =>
    obtain ⟨hm, h1, h2⟩ := regRowAt_some hr
    exact .inl ⟨r, hm, word_of_offset hm h4 h1 h2⟩

/-- A host write done twice has the effect of one, but for CMD (20_memory.md R111). -/
theorem hostWriteAccess_hostWriteAccess {s : State} {off : Nat} (v : Word) (hs : s.busy = false) (hcmd : off ≠ 0x010)
    (h4 : off % 4 = 0) (ho : off < 8192) (hwf : s.dmem.wf) :
    hostWriteAccess (hostWriteAccess s off v) off v = hostWriteAccess s off v := by
  by_cases hd : 0x1000 ≤ off
  · have hr : off - dmemWindow + (toLE32 v).length ≤ Config.dmemSize := by
      rw [length_toLE32, Config.dmemSize, dmemWindow]
      omega
    rw [hostWriteAccess_dmem v hs hd, hostWriteAccess_dmem v (by exact hs) hd, write_write_self hwf hr]
  · rcases register_word_or_no_effect off h4 (by omega) with ⟨r, hm, j, hj, rfl⟩ | hnone
    · have hn : r.name ≠ .cmd := fun hn => by
        have : r = ⟨.cmd, 0x010, 1⟩ := eq_of_name_eq hm (by decide) hn
        subst this
        simp at hj hcmd
        omega
      rw [hostWriteAccess_row v hs hm hj, hostWriteAccess_row v (writeReg_busy v j hn hs) hm hj,
        writeReg_writeReg s v j hn]
    · rw [hnone, hnone]

/-- A host read of any width, inside the aperture or not, changes the model's own record alone (20_memory.md R111). -/
theorem step_read_frame {s t : State} {rest : List HostEvent} {addr width : Nat} (h : HostMoves s (.read addr width) rest)
    (ht : step s = .next t) : t = { s with env := t.env } ∧ t.env.todo = rest := by
  rw [step_host h] at ht
  rcases event_cases ht with ⟨he, -⟩ | rfl | ⟨-, -, -, hframe, htodo, -⟩ | ⟨_, _, he, -⟩
  · cases he
  · exact ⟨rfl, rfl⟩
  · exact ⟨hframe, htodo⟩
  · cases he

/-- Settles O16: an access is its step, a read is its own frame, and every register write but CMD's is idempotent. -/
theorem sideEffectsOfAccesses : Obligations.SideEffectsOfAccesses := by
  refine ⟨fun s rest off v ho h4 => ⟨fun h => step_write h ho h4, fun h hs => ?_⟩,
    fun s t rest addr width h ht => step_read_frame h ht, fun s v hs => ⟨?_, fun hv => ⟨?_, ?_⟩, ?_⟩⟩
  · have hs' : (afterHost s rest).busy = false := hs
    rw [step_read h ho h4]
    exact ⟨fun x hx => hostReadAccess_ok (.inl hs') hx, fun f hf => hostReadAccess_error hs' hf⟩
  · rw [hostWriteAccess_single hs 0x010 .cmd]
    rfl
  · exact hostWriteAccess_srst s hv
  · rw [hostWriteAccess_single hs 0x00C .status, writeReg, writeStatus, if_pos hv]
  · exact fun off hcmd h4 ho hwf => hostWriteAccess_hostWriteAccess v hs hcmd h4 ho hwf

end Sys2Proof.Machine
end

section
/-! PROOF. Where a DMEM byte without a value faults, and that nothing else does (20_memory.md R107, R118). -/

namespace Sys2Proof.Machine

/-! ## Reading a region with an unwritten byte -/

/-- A read whose first byte without a value is the one at `off + j` names that byte (20_memory.md R118). -/
theorem read_first_unwritten {m : Memory} {off n j : Nat} (hj : j < n)
    (hbefore : ∀ a, off ≤ a → a < off + j → (m.byteAt a).isSome = true) (hnone : m.byteAt (off + j) = none) :
    m.read off n = .error (off + j) := by
  obtain ⟨a, ha⟩ := read_of_unreadable (n := n) (Nat.le_add_right off j) (by omega) hnone
  obtain ⟨hle, -, hane, hfirst⟩ := read_error ha
  rcases lt_trichotomy a (off + j) with hlt | rfl | hgt
  · have := hbefore a hle hlt
    rw [hane] at this
    cases this
  · exact ha
  · exact absurd hnone (hfirst _ (Nat.le_add_right off j) hgt)

/-- `readInput` on a region whose first byte without a value is the one at `off + j` (20_memory.md R118). -/
theorem readInput_first_unwritten {s : State} {off n j : Nat} (hj : j < n) (hbefore : Readable s off j)
    (hnone : s.dmem.byteAt (off + j) = none) (k : Bytes → Effect) :
    readInput s off n k = .fault (.dmemUnwritten (off + j)) := by
  rw [readInput, read_first_unwritten hj hbefore hnone]

/-! ## Which bytes a command can fault on -/

/-- The fault `f` names the first byte of the `n` bytes at SRC that holds no value, and the region lies inside DMEM
(20_memory.md R107, R118). -/
def InputFault (s : State) (n : Nat) (f : Fault) : Prop :=
  ∃ a, f = .dmemUnwritten a ∧ s.srcOff ≤ a ∧ a < s.srcOff + n ∧ a < 4096 ∧ s.dmem.byteAt a = none ∧
    Readable s s.srcOff (a - s.srcOff)

/-- A check that raises an error does not fault, so a fault past it is that of what follows. -/
theorem guard_fault {c : Prop} [Decidable c] {e : ErrCode} {x : Effect} {f : Fault}
    (h : (if c then .raise e else x) = .fault f) : ¬c ∧ x = .fault f := by
  split at h
  · cases h
  · next hc => exact ⟨hc, h⟩

/-- A region check that did not raise an error was passed (20_memory.md R106). -/
theorem le_of_not_not_inRange {base n : Nat} (h : ¬(!inRange base n) = true) : base + n ≤ 4096 := by
  simpa [Config.dmemSize] using h

theorem InputFault.of_readInput {s : State} {n : Nat} {k : Bytes → Effect} {f : Fault} (hr : s.srcOff + n ≤ 4096)
    (h : readInput s s.srcOff n k = .fault f) (hk : ∀ b, k b ≠ .fault f) : InputFault s n f := by
  rcases readInput_fault h with ⟨b, hb⟩ | ⟨a, hf, h1, h2, h3, h4⟩
  · exact absurd hb (hk b)
  · exact ⟨a, hf, h1, h2, by omega, h3, h4⟩

theorem InputFault.of_readFixed32 {s : State} {k : Bytes → Effect} {f : Fault} (h : readFixed32 s k = .fault f)
    (hk : ∀ b, k b ≠ .fault f) : InputFault s 32 f := by
  rcases readFixed32_cases s k with ⟨-, he⟩ | ⟨hr, he⟩ <;> rw [he] at h
  · cases h
  · exact .of_readInput hr h hk

theorem ecbEffect_fault {s : State} {g : Bytes → Bytes} {f : Fault} (h : ecbEffect g s = .fault f) :
    InputFault s s.lenBytes f := by
  obtain ⟨-, h⟩ := guard_fault h
  obtain ⟨hr, h⟩ := guard_fault h
  simp only [Bool.not_eq_true, Bool.not_eq_false', Bool.and_eq_true, inRange_iff] at hr
  exact .of_readInput hr.1 h fun _ => nofun

theorem gGammaEffect_fault {s : State} {first : Bool} {f : Fault} (h : gGammaEffect first s = .fault f) :
    InputFault s s.lenBytes f := by
  obtain ⟨hr, h⟩ := guard_fault h
  simp only [Bool.not_eq_true, Bool.not_eq_false', Bool.and_eq_true, inRange_iff] at hr
  exact .of_readInput hr.1 h fun _ => nofun

theorem hUpdateEffect_fault {s : State} {f : Fault} (h : hUpdateEffect s = .fault f) : InputFault s s.lenBytes f := by
  obtain ⟨-, h⟩ := guard_fault h
  obtain ⟨hr, h⟩ := guard_fault h
  exact .of_readInput (le_of_not_not_inRange hr) h fun _ => nofun

theorem tFrmencEffect_fault {s : State} {f : Fault} (h : tFrmencEffect s = .fault f) : InputFault s s.lenBytes f := by
  obtain ⟨hr, h⟩ := guard_fault h
  obtain ⟨-, h⟩ := guard_fault h
  refine .of_readInput (le_of_not_not_inRange hr) h fun P hP => ?_
  cases (guard_fault hP).2

theorem tFrmdecEffect_fault {s : State} {f : Fault} (h : tFrmdecEffect s = .fault f) : InputFault s s.lenBytes f := by
  obtain ⟨-, h⟩ := guard_fault h
  obtain ⟨hr, h⟩ := guard_fault h
  refine .of_readInput (le_of_not_not_inRange hr) h fun Y hY => ?_
  cases hu : unframe (cbcDecrypt s.keys Y) with
  | none => rw [hu] at hY; cases hY
  | some P => rw [hu] at hY; cases (guard_fault hY).2

/-- Where the commands have an input region: `LEN` bytes at SRC, 32 bytes at SRC, or none (30_encoding.md R144). -/
theorem effectOf_fault {i : Instr} {s : State} {f : Fault} (h : effectOf i s = .fault f) :
    (InputFault s s.lenBytes f ∧
      i ∈ [Instr.gEcbenc, .gEcbdec, .gGamma false, .gGamma true, .hUpdate, .tFrmenc, .tFrmdec]) ∨
    (InputFault s 32 f ∧ i ∈ [Instr.gKeyload, .hStep, .tKeyload]) := by
  cases i with
  | gKeyload | hStep | tKeyload => exact .inr ⟨.of_readFixed32 h fun _ => nofun, by decide⟩
  | gEcbenc | gEcbdec => exact .inl ⟨ecbEffect_fault h, by decide⟩
  | gGamma first => exact .inl ⟨gGammaEffect_fault h, by cases first <;> decide⟩
  | hUpdate => exact .inl ⟨hUpdateEffect_fault h, by decide⟩
  | tFrmenc => exact .inl ⟨tFrmencEffect_fault h, by decide⟩
  | tFrmdec => exact .inl ⟨tFrmdecEffect_fault h, by decide⟩
  | nop | gSboxdef | hInit => cases h
  | hFinal =>
    cases (guard_fault (guard_fault h).2).2
  | ePadd | ePmul | eKeygen | eSign | eVerify | mMod | mInv | mEgcd =>
    -- these read no DMEM: every branch of their pseudocode is OK or an error
    simp only [effectOf, ePaddEffect, ePmulEffect, eKeygenEffect, eSignEffect, eVerifyEffect, mModEffect, mInvEffect,
      mEgcdEffect] at h
    repeat' split at h
    all_goals cases h

/-- Settles O8: a completion answers a fault only where the command's pseudocode reads its input region. -/
theorem commandsFaultOnlyOnUnwrittenInput : Obligations.CommandsFaultOnlyOnUnwrittenInput := by
  intro i s
  rw [exec_complete]
  refine ⟨complete_ne_refused s _, fun f h => ?_⟩
  rcases effectOf_fault (complete_fault h) with ⟨⟨a, hf, h1, h2, h3, h4, h5⟩, hi⟩ | ⟨⟨a, hf, h1, h2, h3, h4, h5⟩, hi⟩
  · exact ⟨a, _, hf, h1, h2, h3, .inl ⟨rfl, hi⟩, h4, h5⟩
  · exact ⟨a, _, hf, h1, h2, h3, .inr ⟨rfl, hi⟩, h4, h5⟩

/-! ## Faults of a host read and of each input region -/

/-- A region that ends inside DMEM passes its check (20_memory.md R106). -/
theorem inRange_of_le {base n : Nat} (h : base + n ≤ 4096) : inRange base n = true := (inRange_iff base n).2 h

/-- A host read of DMEM word `k` while BUSY = 0 faults at the word's first byte without a value (20_memory.md R118). -/
theorem hostReadAccess_first_unwritten {s : State} {k j : Nat} (addr : Nat) (hs : s.busy = false) (hj : j < 4)
    (hbefore : Readable s (4 * k) j) (hnone : s.dmem.byteAt (4 * k + j) = none) :
    hostReadAccess s addr (0x1000 + 4 * k) = .fault (.dmemUnwritten (4 * k + j)) := by
  have hread : hostReadWord s (0x1000 + 4 * k) = .error (.dmemUnwritten (4 * k + j)) := by
    rw [hostReadWord_dmem s (by omega), hostReadDmem, dmemWindow_word, read_first_unwritten hj hbefore hnone]
  exact hostReadAccess_error hs hread

section

variable {s : State} {j : Nat} (hbefore : Readable s s.srcOff j) (hnone : s.dmem.byteAt (s.srcOff + j) = none)

include hbefore hnone

theorem readFixed32_first_unwritten (hj : j < 32) (hr : s.srcOff + 32 ≤ 4096) (k : Bytes → Effect) :
    readFixed32 s k = .fault (.dmemUnwritten (s.srcOff + j)) := by
  rw [readFixed32, if_pos (inRange_of_le hr), readInput_first_unwritten hj hbefore hnone]

theorem ecbEffect_first_unwritten (g : Bytes → Bytes) (hj : j < s.lenBytes) (hsrc : s.srcOff + s.lenBytes ≤ 4096)
    (h8 : s.lenBytes % 8 = 0) (hdst : s.dstOff + s.lenBytes ≤ 4096) :
    ecbEffect g s = .fault (.dmemUnwritten (s.srcOff + j)) := by
  rw [ecbEffect, if_neg (by simpa using h8), if_neg (by simp [inRange_of_le hsrc, inRange_of_le hdst]),
    readInput_first_unwritten hj hbefore hnone]

theorem gGammaEffect_first_unwritten (first : Bool) (hj : j < s.lenBytes) (hsrc : s.srcOff + s.lenBytes ≤ 4096)
    (hdst : s.dstOff + s.lenBytes ≤ 4096) : gGammaEffect first s = .fault (.dmemUnwritten (s.srcOff + j)) := by
  rw [gGammaEffect, if_neg (by simp [inRange_of_le hsrc, inRange_of_le hdst]),
    readInput_first_unwritten hj hbefore hnone]

theorem hUpdateEffect_first_unwritten (hj : j < s.lenBytes) (hsrc : s.srcOff + s.lenBytes ≤ 4096)
    (hfin : s.hash.fin = false) : hUpdateEffect s = .fault (.dmemUnwritten (s.srcOff + j)) := by
  rw [hUpdateEffect, if_neg (by simp [hfin]), if_neg (by simp [inRange_of_le hsrc]),
    readInput_first_unwritten hj hbefore hnone]

theorem tFrmencEffect_first_unwritten (hj : j < s.lenBytes) (hsrc : s.srcOff + s.lenBytes ≤ 4096)
    (hdst : s.dstOff + frameLength s.lenBytes ≤ 4096) :
    tFrmencEffect s = .fault (.dmemUnwritten (s.srcOff + j)) := by
  rw [tFrmencEffect, if_neg (by simp [inRange_of_le hsrc]), if_neg (by simp [inRange_of_le hdst]),
    readInput_first_unwritten hj hbefore hnone]

theorem tFrmdecEffect_first_unwritten (hj : j < s.lenBytes) (hsrc : s.srcOff + s.lenBytes ≤ 4096)
    (h8 : s.lenBytes % 8 = 0) : tFrmdecEffect s = .fault (.dmemUnwritten (s.srcOff + j)) := by
  rw [tFrmdecEffect, if_neg (by simpa using h8), if_neg (by simp [inRange_of_le hsrc]),
    readInput_first_unwritten hj hbefore hnone]

end

/-- A command whose pseudocode faults, faults (30_encoding.md R146). -/
theorem exec_fault {i : Instr} {s : State} {f : Fault} (h : effectOf i s = .fault f) : exec i s = .fault f := by
  rw [exec_complete, h]
  rfl

/-- Settles O9: past its checks, an access or a command reads its region, whose first byte without a value it names. -/
theorem unwrittenDmemFaults : Obligations.UnwrittenDmemFaults := by
  refine ⟨fun _ => rfl, fun s rest h => ⟨_, step_host h, fun _ => rfl⟩, fun s v rest h hv => ?_,
    fun s rest k j hp hk hj h hbefore hnone => ?_, fun s j hbefore hnone => ⟨fun hj hr i hi => ?_, fun hj hr => ?_⟩⟩
  · refine ⟨_, step_write h (by norm_num) (by norm_num), ?_⟩
    rw [hostWriteAccess_srst _ hv]
    rfl
  · rw [step_read h (by omega) (by omega)]
    exact hostReadAccess_first_unwritten (s := afterHost s rest) _ (by simp [State.busy, afterHost, hp]) hj hbefore hnone
  · have hfixed := readFixed32_first_unwritten hbefore hnone hj hr
    fin_cases hi <;> exact exec_fault (hfixed _)
  · refine ⟨fun h8 hdst i hi => ?_, fun hdst first => ?_, fun hfin => ?_, fun hdst => ?_, fun h8 => ?_⟩
    · have hecb := fun g => ecbEffect_first_unwritten hbefore hnone g hj hr h8 hdst
      fin_cases hi <;> exact exec_fault (hecb _)
    · exact exec_fault (i := .gGamma first) (gGammaEffect_first_unwritten hbefore hnone first hj hr hdst)
    · exact exec_fault (i := .hUpdate) (hUpdateEffect_first_unwritten hbefore hnone hj hr hfin)
    · exact exec_fault (i := .tFrmenc) (tFrmencEffect_first_unwritten hbefore hnone hj hr hdst)
    · exact exec_fault (i := .tFrmdec) (tFrmdecEffect_first_unwritten hbefore hnone hj hr h8)

end Sys2Proof.Machine
end

section
/-! PROOF. The decoder, the encoder and the fields of a command word agree (30_encoding.md R140-R143). -/

namespace Sys2Proof.Machine

/-! ## The rows of the opcode map -/

/-- A row leaves at most bit 8 of a word open (30_encoding.md R141). -/
theorem encodingTable_open_bits : ∀ r ∈ encodingTable, ~~~r.mask = 0x100 &&& ~~~r.mask := by decide

/-- The word of a row's command is the row's pattern, with F in the bit the mask leaves open (30_encoding.md R142). -/
theorem encode_row : ∀ r ∈ encodingTable, ∀ f : Bool,
    encode (r.instr f) = r.pattern ||| ((if f then 0x100 else 0) &&& ~~~r.mask) := by decide

/-- Bit 8 of a word, as the field F in its place (30_encoding.md R140). -/
theorem and_flag_bit (w : Word) : w &&& 0x100 = if w.getLsbD 8 then 0x100 else 0 := BitVec.and_twoPow w 8

/-- A word is the bits a mask fixes and those it leaves open. -/
theorem and_mask_or_and_not_mask (w m : Word) : (w &&& m) ||| (w &&& ~~~m) = w := by
  rw [← BitVec.and_or_distrib_left, BitVec.or_not_self, BitVec.and_allOnes]

/-- A word that a row of the opcode map matches is the word of the row's command (30_encoding.md R142). -/
theorem eq_encode_of_row {r : EncodingRow} {w : Word} (hr : r ∈ encodingTable) (h : w &&& r.mask = r.pattern) :
    w = encode (r.instr (w.getLsbD 8)) := by
  calc w = (w &&& r.mask) ||| (w &&& ~~~r.mask) := (and_mask_or_and_not_mask w r.mask).symm
    _ = r.pattern ||| ((w &&& 0x100) &&& ~~~r.mask) := by
      rw [h, BitVec.and_assoc, ← encodingTable_open_bits r hr]
    _ = encode (r.instr (w.getLsbD 8)) := by rw [and_flag_bit, encode_row r hr]

/-! ## Decoding and encoding -/

/-- Every command comes back from its word (30_encoding.md R142). -/
theorem decode_encode (i : Instr) : decode (encode i) = .ok i := by
  cases i with
  | gGamma first => cases first <;> decide
  | hInit copy => cases copy <;> decide
  | _ => decide

/-- A word that decodes is its command's word: the decoder found a row that the word matches (30_encoding.md R142). -/
theorem eq_encode_of_decode {w : Word} {i : Instr} (h : decode w = .ok i) : w = encode i := by
  unfold decode at h
  split at h
  · next r hfind =>
    cases h
    exact eq_encode_of_row (List.mem_of_find?_eq_some hfind) (eq_of_beq (List.find?_some hfind :))
  · cases h

/-- Settles O2: a matching row fixes every bit of the word but F, which is the command's own operand. -/
theorem decodeInvertsEncode : Obligations.DecodeInvertsEncode :=
  ⟨fun i _ => decode_encode i, fun _ _ => eq_encode_of_decode⟩

/-- Settles O1: each is the word its command is written with. -/
theorem knownWordsDecode : Obligations.KnownWordsDecode :=
  ⟨decode_encode .nop, decode_encode .gKeyload, decode_encode (.gGamma false), decode_encode (.gGamma true),
    decode_encode (.hInit true), decode_encode .hStep, decode_encode .ePmul, decode_encode .eVerify,
    decode_encode .mEgcd, decode_encode .tFrmdec⟩

/-! ## The fields of a word as numbers (30_encoding.md R140) -/

theorem toNat_fieldsOf_op (w : Word) : (fieldsOf w).op.toNat = w.toNat % 256 := by
  simp [fieldsOf]

theorem fieldsOf_f_iff (w : Word) : (fieldsOf w).f = true ↔ w.toNat / 256 % 2 = 1 := by
  simp [fieldsOf, BitVec.getLsbD, Nat.testBit_eq_decide_div_mod_eq]

theorem toNat_fieldsOf_res (w : Word) : (fieldsOf w).res.toNat = w.toNat / 512 := by
  simp only [fieldsOf, BitVec.extractLsb'_toNat, Nat.shiftRight_eq_div_pow]
  omega

/-- A word is made of its fields and nothing else (30_encoding.md R140). -/
theorem fieldsOf_injective {v w : Word} (h : fieldsOf v = fieldsOf w) : v = w := by
  have hop := congrArg (fun c => c.op.toNat) h
  have hf : v.toNat / 256 % 2 = 1 ↔ w.toNat / 256 % 2 = 1 := by rw [← fieldsOf_f_iff, h, fieldsOf_f_iff]
  have hres := congrArg (fun c => c.res.toNat) h
  simp only [toNat_fieldsOf_op, toNat_fieldsOf_res] at hop hres
  exact BitVec.eq_of_toNat_eq (by omega)

/-! ## Legal words -/

/-- Every command is well formed, and its word carries its fields (30_encoding.md R140, R142). -/
theorem wf_and_fieldsOf_encode (i : Instr) : Laws.FieldsOfWord.Statement i := by
  cases i with
  | nop => exact Laws.FieldsOfWord.nop
  | gKeyload => exact Laws.FieldsOfWord.gKeyload
  | gSboxdef => exact Laws.FieldsOfWord.gSboxdef
  | gEcbenc => exact Laws.FieldsOfWord.gEcbenc
  | gEcbdec => exact Laws.FieldsOfWord.gEcbdec
  | gGamma first => exact Laws.FieldsOfWord.gGamma first
  | hInit copy => exact Laws.FieldsOfWord.hInit copy
  | hUpdate => exact Laws.FieldsOfWord.hUpdate
  | hFinal => exact Laws.FieldsOfWord.hFinal
  | hStep => exact Laws.FieldsOfWord.hStep
  | ePadd => exact Laws.FieldsOfWord.ePadd
  | ePmul => exact Laws.FieldsOfWord.ePmul
  | eKeygen => exact Laws.FieldsOfWord.eKeygen
  | eSign => exact Laws.FieldsOfWord.eSign
  | eVerify => exact Laws.FieldsOfWord.eVerify
  | mMod => exact Laws.FieldsOfWord.mMod
  | mInv => exact Laws.FieldsOfWord.mInv
  | mEgcd => exact Laws.FieldsOfWord.mEgcd
  | tKeyload => exact Laws.FieldsOfWord.tKeyload
  | tFrmenc => exact Laws.FieldsOfWord.tFrmenc
  | tFrmdec => exact Laws.FieldsOfWord.tFrmdec

/-- The opcode map has a row for every assigned operation, and for F = 1 where the operation defines F
(30_encoding.md R141, R142). -/
theorem exists_row_of_op : ∀ op ∈ assignedOps, ∀ f : Bool, (!f || flaggedOps.contains op) = true →
    ∃ r ∈ encodingTable, (r.instr f).fields = ⟨op, f, 0⟩ := by decide

/-- Legal fields are those of a command (30_encoding.md R142, R143). -/
theorem exists_instr_of_wf {c : CommandFields} (h : c.wf = true) : ∃ i : Instr, i.fields = c := by
  obtain ⟨op, f, res⟩ := c
  simp only [CommandFields.wf, Bool.and_eq_true, CommandFields.opAssigned, CommandFields.resZero, beq_iff_eq,
    List.contains_iff_mem] at h
  obtain ⟨⟨hop, rfl⟩, hf⟩ := h
  obtain ⟨r, -, hr⟩ := exists_row_of_op op hop f hf
  exact ⟨_, hr⟩

/-- A word decodes exactly when its fields are legal (30_encoding.md R143). -/
theorem decode_ok_iff_wf (w : Word) : (∃ i, decode w = .ok i) ↔ (fieldsOf w).wf = true := by
  constructor
  · rintro ⟨i, hi⟩
    obtain ⟨hwf, hfields⟩ := wf_and_fieldsOf_encode i
    rw [eq_encode_of_decode hi, hfields]
    exact hwf
  · intro h
    obtain ⟨i, hi⟩ := exists_instr_of_wf h
    have hw : encode i = w := fieldsOf_injective ((wf_and_fieldsOf_encode i).2.trans hi)
    exact ⟨i, hw ▸ decode_encode i⟩

/-- The assigned operations are what the unassigned ranges leave (30_encoding.md R142, R143). -/
theorem mem_assignedOps_iff (op : BitVec 8) : op ∈ assignedOps ↔
    ¬((0x01 ≤ op.toNat ∧ op.toNat ≤ 0x0F) ∨ (0x15 ≤ op.toNat ∧ op.toNat ≤ 0x1F) ∨
      (0x24 ≤ op.toNat ∧ op.toNat ≤ 0x2F) ∨ (0x35 ≤ op.toNat ∧ op.toNat ≤ 0x3F) ∨
      (0x43 ≤ op.toNat ∧ op.toNat ≤ 0x4F) ∨ 0x53 ≤ op.toNat) := by
  simp only [assignedOps, List.mem_cons, List.not_mem_nil, or_false, ← BitVec.toNat_inj, BitVec.ofNat_eq_ofNat,
    BitVec.toNat_ofNat, Nat.reducePow, Nat.reduceMod]
  omega

/-- F defined by the operation, as a number (30_encoding.md R141). -/
theorem mem_flaggedOps_iff (op : BitVec 8) : op ∈ flaggedOps ↔ op.toNat = 0x14 ∨ op.toNat = 0x20 := by
  simp [flaggedOps, ← BitVec.toNat_inj]

/-- A word's fields are legal exactly when none of R143's conditions holds of it (30_encoding.md R143). -/
theorem fieldsOf_wf_iff (w : Word) : (fieldsOf w).wf = true ↔
    (fieldsOf w).op ∈ assignedOps ∧ w.toNat / 512 = 0 ∧
      (w.toNat / 256 % 2 = 1 → w.toNat % 256 = 0x14 ∨ w.toNat % 256 = 0x20) := by
  have hres : (fieldsOf w).res = 0 ↔ w.toNat / 512 = 0 := by rw [← toNat_fieldsOf_res, ← BitVec.toNat_inj]; rfl
  have hflag : (fieldsOf w).flagAllowed = true ↔
      (w.toNat / 256 % 2 = 1 → w.toNat % 256 = 0x14 ∨ w.toNat % 256 = 0x20) := by
    rw [← fieldsOf_f_iff, ← toNat_fieldsOf_op, ← mem_flaggedOps_iff]
    cases hf : (fieldsOf w).f <;> simp [CommandFields.flagAllowed, hf]
  simp only [CommandFields.wf, CommandFields.opAssigned, CommandFields.resZero, Bool.and_eq_true, beq_iff_eq,
    List.contains_iff_mem, hres, hflag, and_assoc]

/-! ## The completion of a due word -/

/-- A due word that decodes completes as its command (30_encoding.md R146, R147). -/
theorem step_of_due_ok {s : State} {w : Word} {i : Instr} (h : CompletionDue s w) (hw : decode w = .ok i) :
    step s = exec i s := by
  obtain ⟨hpending, hdue⟩ := h
  simp [step, commandDue_of hpending hdue, hw]

/-- A due word that does not decode completes with IllegalCommand and no other change (30_encoding.md R143, R147). -/
theorem step_of_due_illegal {s : State} {w : Word} {e : DecodeError} (h : CompletionDue s w)
    (hw : decode w = .error e) : step s = .next (failed s 5) := by
  obtain ⟨hpending, hdue⟩ := h
  simp only [step, commandDue_of hpending hdue, hw]
  rfl

/-- Settles O4: the step decodes the due word. -/
theorem stepRunsTheDecodedCommand : Obligations.StepRunsTheDecodedCommand := fun _ _ _ => step_of_due_ok

/-- Settles O3: a word decodes exactly when its fields are legal, and any other word completes as an illegal one. -/
theorem illegalWordsRaise : Obligations.IllegalWordsRaise := by
  refine ⟨fun w => ?_, fun s w hdue hnone => ?_⟩
  · rw [decode_ok_iff_wf, fieldsOf_wf_iff, mem_assignedOps_iff, toNat_fieldsOf_op]
    omega
  · cases hw : decode w with
    | ok i => exact absurd ⟨i, hw⟩ hnone
    | error e => exact step_of_due_illegal hdue hw

end Sys2Proof.Machine
end

section
/-! PROOF. The life of a command: the CMD write that starts it, and what its completion can write
(30_encoding.md R144-R146). -/

namespace Sys2Proof.Machine

/-! ## The start -/

/-- A write to CMD while BUSY = 0 is the start of a command (30_encoding.md R145). -/
theorem hostWriteAccess_cmd {s : State} (w : Word) (hs : s.busy = false) : hostWriteAccess s 0x010 w = s.accept w :=
  hostWriteAccess_single hs 0x010 .cmd w

/-- A write to CMD while BUSY = 1 has no effect (20_memory.md R112, 30_encoding.md R145). -/
theorem hostWriteAccess_cmd_busy {s : State} (w : Word) (hs : s.busy = true) : hostWriteAccess s 0x010 w = s :=
  if_pos (by rw [hs]; rfl)

/-- Settles O5: the host's write reaches CMD, which starts the command or ignores the write. -/
theorem cmdWriteStarts : Obligations.CmdWriteStarts := by
  intro s w rest h
  rw [step_write h (by norm_num) (by norm_num)]
  refine ⟨fun hidle => ?_, fun hbusy => ?_⟩
  · have hs : (afterHost s rest).busy = false := by simp [State.busy, afterHost, hidle]
    rw [hostWriteAccess_cmd w hs]
    exact ⟨_, rfl, rfl, rfl, rfl⟩
  · have hs : (afterHost s rest).busy = true := Option.isSome_iff_ne_none.2 hbusy
    rw [hostWriteAccess_cmd_busy w hs]

/-! ## The writes column of the operand table -/

/-- `s` with STATUS and what the command may write taken from `t`: the writes column of the operand table
(30_encoding.md R144). -/
def withTargets (i : Instr) (s t : State) : State :=
  match i with
  | .nop | .eVerify => { s with ctl := t.ctl }
  | .gKeyload => { s with ctl := t.ctl, cipher := { s.cipher with gkey := t.cipher.gkey } }
  | .gSboxdef => { s with ctl := t.ctl, cipher := { s.cipher with sbox := t.cipher.sbox } }
  | .gEcbenc | .gEcbdec | .tFrmenc | .tFrmdec =>
    { s with ctl := t.ctl, io := { s.io with outlen := t.io.outlen }, dmem := t.dmem }
  | .gGamma _ =>
    { s with ctl := t.ctl, io := { s.io with outlen := t.io.outlen }, dmem := t.dmem
             cipher := { s.cipher with giv := t.cipher.giv } }
  | .hInit _ => { s with ctl := t.ctl, hash := t.hash }
  | .hUpdate => { s with ctl := t.ctl, hash := { t.hash with hsbox := s.hash.hsbox, fin := s.hash.fin } }
  | .hFinal =>
    { s with ctl := t.ctl, io := { s.io with outlen := t.io.outlen }, dmem := t.dmem
             hash := { t.hash with hsbox := s.hash.hsbox, hlen := s.hash.hlen }
             sign := { s.sign with eH := t.sign.eH } }
  | .hStep => { s with ctl := t.ctl, hash := { s.hash with hh := t.hash.hh } }
  | .ePadd | .ePmul =>
    { s with ctl := t.ctl, point := { s.point with paX := t.point.paX, paY := t.point.paY, paInf := t.point.paInf } }
  | .eKeygen => { s with ctl := t.ctl, sign := { s.sign with eQX := t.sign.eQX, eQY := t.sign.eQY } }
  | .eSign => { s with ctl := t.ctl, sign := { s.sign with eR := t.sign.eR, eS := t.sign.eS } }
  | .mMod | .mInv => { s with ctl := t.ctl, modu := { s.modu with mR := t.modu.mR } }
  | .mEgcd => { s with ctl := t.ctl, modu := { s.modu with mR := t.modu.mR, mGX := t.modu.mGX, mGY := t.modu.mGY } }
  | .tKeyload => { s with ctl := t.ctl, keys := t.keys }

/-- A completion with an error stays inside every row: STATUS alone changes (60_exceptions.md R432). -/
theorem failed_withTargets (i : Instr) (s : State) (code : BitVec 4) :
    failed s code = withTargets i s (failed s code) := by
  cases i <;> rfl

/-- A completion writes STATUS alone, which every row leaves open. -/
theorem completed_withTargets (i : Instr) (s u : State) :
    withTargets i s (completed u) = completed (withTargets i s u) := by
  cases i <;> rfl

/-! ## What a command's pseudocode writes -/

/-- An OK effect past a check is that of what follows. -/
theorem guard_ok {c : Prop} [Decidable c] {e : ErrCode} {x : Effect} {u : State}
    (h : (if c then .raise e else x) = .ok u) : x = .ok u := by
  split at h
  · cases h
  · exact h

theorem ePaddEffect_ok {s u : State} (h : ePaddEffect s = .ok u) : ∃ p, u = s.setPointA p := by
  unfold ePaddEffect at h
  split at h
  · cases h
  · cases h; exact ⟨_, rfl⟩

theorem ePmulEffect_ok {s u : State} (h : ePmulEffect s = .ok u) : ∃ p, u = s.setPointA p := by
  unfold ePmulEffect at h
  split at h
  · cases h
  · cases h; exact ⟨_, rfl⟩

theorem eKeygenEffect_ok {s u : State} (h : eKeygenEffect s = .ok u) :
    ∃ x y, u = { s with sign := { s.sign with eQX := x, eQY := y } } := by
  have h := guard_ok h
  split at h
  · cases h; exact ⟨_, _, rfl⟩
  · cases h

theorem eSignEffect_ok {s u : State} (h : eSignEffect s = .ok u) :
    ∃ r sg, u = { s with sign := { s.sign with eR := r, eS := sg } } := by
  have h := guard_ok h
  split at h
  · cases h; exact ⟨_, _, rfl⟩
  · cases h

theorem mModEffect_ok {s u : State} (h : mModEffect s = .ok u) :
    ∃ r, u = { s with modu := { s.modu with mR := r } } := by
  cases guard_ok h
  exact ⟨_, rfl⟩

theorem mInvEffect_ok {s u : State} (h : mInvEffect s = .ok u) :
    ∃ r, u = { s with modu := { s.modu with mR := r } } := by
  have h := guard_ok h
  split at h
  · cases h
  · cases h; exact ⟨_, rfl⟩

theorem mEgcdEffect_ok {s u : State} (h : mEgcdEffect s = .ok u) :
    ∃ d x y, u = { s with modu := { s.modu with mR := d, mGX := x, mGY := y } } := by
  cases guard_ok h
  exact ⟨_, _, _, rfl⟩

/-- A point result changes PA and its tag alone, the row of both point commands (41_ecpoint.md R232). -/
theorem setPointA_withTargets (s : State) (p : Point) : s.setPointA p = withTargets .ePadd s (s.setPointA p) := by
  cases p <;> rfl

/-- A command's writes stay inside its row of the operand table (30_encoding.md R144). -/
theorem ok_withTargets {i : Instr} {s u : State} (h : effectOf i s = .ok u) : u = withTargets i s u := by
  cases i with
  | nop | gSboxdef | hInit copy => cases h; rfl
  | gKeyload | hStep | tKeyload => obtain ⟨b, rfl⟩ := fixed_ok h; rfl
  | gEcbenc => obtain ⟨out, -, -, rfl⟩ := ecb_ok (length_gostEncrypt _ _) h; rfl
  | gEcbdec => obtain ⟨out, -, -, rfl⟩ := ecb_ok (length_gostDecrypt _ _) h; rfl
  | gGamma first => obtain ⟨out, v, -, -, rfl⟩ := gamma_ok h; rfl
  | hUpdate =>
    obtain ⟨msg, -, -, rfl⟩ := hupdate_ok h
    obtain ⟨hsbox, hfin⟩ := absorb_keep msg s.hash
    simp only [withTargets, ← hsbox, ← hfin]
  | hFinal =>
    obtain ⟨-, out, -, rfl⟩ := hfinal_ok h
    obtain ⟨hsbox, hlen⟩ := flush_keep s.hash
    simp only [withTargets, ← hsbox, ← hlen]
    rfl
  | ePadd => obtain ⟨p, rfl⟩ := ePaddEffect_ok h; exact setPointA_withTargets s p
  | ePmul => obtain ⟨p, rfl⟩ := ePmulEffect_ok h; exact setPointA_withTargets s p
  | eKeygen => obtain ⟨x, y, rfl⟩ := eKeygenEffect_ok h; rfl
  | eSign => obtain ⟨r, sg, rfl⟩ := eSignEffect_ok h; rfl
  | eVerify => rw [everify_ok h]; rfl
  | mMod => obtain ⟨r, rfl⟩ := mModEffect_ok h; rfl
  | mInv => obtain ⟨r, rfl⟩ := mInvEffect_ok h; rfl
  | mEgcd => obtain ⟨d, x, y, rfl⟩ := mEgcdEffect_ok h; rfl
  | tFrmenc => obtain ⟨out, -, rfl⟩ := frmenc_ok h; rfl
  | tFrmdec => obtain ⟨out, -, rfl⟩ := frmdec_ok h; rfl

/-! ## What a completion leaves -/

section

variable {i : Instr} {s t : State} (h : exec i s = .next t)

include h

/-- A completion stays inside its command's row of the operand table (30_encoding.md R144). -/
theorem exec_withTargets : t = withTargets i s t := by
  rcases exec_next h with ⟨u, hu, rfl⟩ | ⟨c, -, rfl⟩
  · rw [completed_withTargets, ← ok_withTargets hu]
  · exact failed_withTargets i s c.code

/-- Every completion leaves nothing pending and DONE = 1, and keeps IE (30_encoding.md R146). -/
theorem exec_ctl : t.ctl = { s.ctl with vok := t.ctl.vok, err := t.ctl.err, pending := none, done := true } := by
  rcases exec_next h with ⟨u, hu, rfl⟩ | ⟨c, -, rfl⟩
  · obtain ⟨-, hctl, -⟩ := ok_writes hu
    have hie : u.ctl.ie = s.ctl.ie := by rw [hctl]
    simp only [completed, hie]
  · rfl

/-- VOK is written by E_VERIFY alone (30_encoding.md R144). -/
theorem exec_keeps_vok (hi : i ≠ .eVerify) : t.ctl.vok = s.ctl.vok := by
  rcases exec_next h with ⟨u, hu, rfl⟩ | ⟨c, -, rfl⟩
  · obtain ⟨-, -, hvok, -⟩ := ok_writes hu
    exact hvok hi
  · rfl

/-- DMEM changes only in the OUTLEN bytes at DST (30_encoding.md R144). -/
theorem exec_byteAt_outside {a : Nat} (ha : ¬(s.dstOff ≤ a ∧ a < s.dstOff + t.io.outlen.toNat)) :
    t.dmem.byteAt a = s.dmem.byteAt a := by
  rcases exec_next h with ⟨u, hu, rfl⟩ | ⟨c, -, rfl⟩
  · obtain ⟨-, -, -, -, ⟨-, hdmem⟩ | ⟨out, hr, houtlen, hdmem⟩⟩ := ok_writes hu
    · exact congrArg (Memory.byteAt · a) hdmem
    · have hlen : (completed u).io.outlen.toNat = out.length := by
        rw [show (completed u).io.outlen = _ from houtlen, BitVec.toNat_ofNat]
        omega
      rw [hlen] at ha
      rw [show (completed u).dmem = _ from hdmem, byteAt_write]
      exact if_neg ha
  · rfl

end

/-- Settles O7: the first clauses are the rows of `withTargets`; those about STATUS and DMEM hold of every completion. -/
theorem commandsWriteOnlyTheirTargets : Obligations.CommandsWriteOnlyTheirTargets := by
  intro s t
  refine ⟨exec_withTargets, exec_withTargets, exec_withTargets, fun i hi => ?_, fun _ => exec_withTargets,
    fun _ => exec_withTargets, exec_withTargets, exec_withTargets, exec_withTargets, fun i hi => ?_, exec_withTargets,
    exec_withTargets, exec_withTargets, fun i hi => ?_, exec_withTargets, exec_withTargets,
    fun i h => ⟨exec_ctl h, exec_keeps_vok h⟩, fun i h a => exec_byteAt_outside h⟩
  all_goals fin_cases hi <;> exact exec_withTargets

end Sys2Proof.Machine
end

section
/-! PROOF. The commands of the modular unit: reduction, inverse and extended gcd (40_modarith.md R201-R206). -/

namespace Sys2Proof.Machine

/-! ## The completion of a known effect -/

/-- A command whose pseudocode ends with OK completes with its writes applied (30_encoding.md R146). -/
theorem exec_of_ok {i : Instr} {s u : State} (h : effectOf i s = .ok u) : exec i s = .next (completed u) := by
  rw [exec_complete, h]
  rfl

/-- A command whose pseudocode raises an error completes with that error's code and no other write
(60_exceptions.md R432). -/
theorem exec_of_raise {i : Instr} {s : State} {e : ErrCode} (h : effectOf i s = .raise e) :
    exec i s = .next (failed s e.code) := by
  rw [exec_complete, h]
  rfl

theorem exec_of_invalidParameter {i : Instr} {s : State} (h : effectOf i s = .raise .invalidParameter) :
    exec i s = .next (failed s 1) := exec_of_raise h

/-! ## Reduction -/

theorem exec_mMod_zero {s : State} (h : s.modu.mM = 0) : exec .mMod s = .next (failed s 1) :=
  exec_of_invalidParameter (if_pos h)

theorem exec_mMod_of_ne_zero {s : State} (h : s.modu.mM ≠ 0) : exec .mMod s = .next (completed
    { s with modu := { s.modu with mR := BitVec.ofNat 256 (smod s.modu.mX.toInt s.modu.mM.toNat) } }) :=
  exec_of_ok (if_neg h)

/-- Settles O25: M_MOD writes `smod`, the only residue there is. -/
theorem modReduces : Obligations.ModReduces := by
  refine fun s => ⟨exec_mMod_zero, fun hm r hr hdvd => ?_, fun hm => ?_⟩
  · have hres : smod s.modu.mX.toInt s.modu.mM.toNat = r := smod_unique hr (Int.modEq_iff_dvd.2 hdvd).symm
    rw [← hres]
    exact exec_mMod_of_ne_zero hm
  · obtain ⟨hlt, hmod⟩ := smod_spec s.modu.mX.toInt (BitVec.toNat_pos_of_ne_zero hm)
    exact ⟨_, hlt, hmod.symm.dvd⟩

/-! ## Inverse -/

/-- Two numbers below n that both invert a modulo n are the same (40_modarith.md R203). -/
theorem inverse_unique {a : Int} {n r q : Nat} (hr : r < n) (hq : q < n) (har : a * r ≡ 1 [ZMOD n])
    (haq : a * q ≡ 1 [ZMOD n]) : r = q := by
  have h : (r : Int) ≡ q [ZMOD n] :=
    calc (r : Int) = r * 1 := (mul_one _).symm
      _ ≡ r * (a * q) [ZMOD n] := haq.symm.mul_left _
      _ = a * r * q := by ring
      _ ≡ 1 * q [ZMOD n] := har.mul_right _
      _ = q := one_mul _
  exact (Int.natCast_modEq_iff.1 h).eq_of_lt_of_lt hr hq

/-- `modinv` finds the inverse below n (40_modarith.md R203). -/
theorem modinv_unique {a : Int} {n r : Nat} (h : Nat.gcd a.natAbs n = 1) (hr : r < n) (har : a * r ≡ 1 [ZMOD n]) :
    modinv a n = some r := by
  obtain ⟨q, hq, hlt, haq⟩ := modinv_some (by omega) h
  rw [hq, inverse_unique hlt hr haq har]

theorem exec_mInv_zero {s : State} (h : s.modu.mM = 0) : exec .mInv s = .next (failed s 1) :=
  exec_of_invalidParameter (if_pos h)

theorem exec_mInv_none {s : State} (h : modinv s.modu.mX.toInt s.modu.mM.toNat = none) :
    exec .mInv s = .next (failed s 1) :=
  exec_of_invalidParameter (by rw [effectOf, mInvEffect, h, ite_self])

theorem exec_mInv_some {s : State} {r : Nat} (hm : s.modu.mM ≠ 0)
    (h : modinv s.modu.mX.toInt s.modu.mM.toNat = some r) :
    exec .mInv s = .next (completed { s with modu := { s.modu with mR := BitVec.ofNat 256 r } }) :=
  exec_of_ok (by rw [effectOf, mInvEffect, if_neg hm, h])

/-- Settles O26: M_INV writes `modinv`, the only inverse there is, and raises where `modinv` is undefined. -/
theorem invInverts : Obligations.InvInverts := by
  refine fun s => ⟨fun h => ?_, fun hm hgcd => ⟨?_, fun r hr hdvd => ?_⟩⟩
  · rcases h with hm | hgcd
    · exact exec_mInv_zero hm
    · exact exec_mInv_none (modinv_none hgcd)
  · obtain ⟨r, -, hlt, hinv⟩ := modinv_some (BitVec.toNat_pos_of_ne_zero hm) hgcd
    exact ⟨r, hlt, hinv.symm.dvd⟩
  · exact exec_mInv_some hm (modinv_unique hgcd hr (Int.modEq_iff_dvd.2 hdvd).symm)

/-! ## Extended gcd -/

/-- `egcd(a, b)` is what R205's loop returns: the gcd and a Bezout pair within its bounds (40_modarith.md R205). -/
theorem egcd_result (a b : Nat) : ∃ x y, egcd a b = (Nat.gcd a b, x, y) ∧ Euclid a b 1 0 0 1 (Nat.gcd a b) x y ∧
    a * x + b * y = Nat.gcd a b ∧ |x| ≤ max 1 (b : Int) ∧ |y| ≤ max 1 (a : Int) := by
  obtain ⟨d, x, y, hloop, heuclid⟩ := egcdLoop_euclid b a b 1 0 0 1 le_rfl
  obtain ⟨_, _, _, hspec, hgcd, hbezout⟩ := egcd_spec a b
  obtain ⟨_, _, _, hbound, hx, hy⟩ :=
    egcdLoop_bound a b b a b 1 0 0 1 (by simp) (by simp) (by simp) (by simp) (by simp) (by simp) (by simp) (by simp)
  cases hloop.symm.trans hspec
  cases hloop.symm.trans hbound
  subst hgcd
  exact ⟨x, y, hloop, heuclid, hbezout, hx, hy⟩

/-- The loop is over when r1 is 0, whatever the bound on its rounds (40_modarith.md R205). -/
theorem egcdLoop_done (k r0 : Nat) (s0 s1 t0 t1 : Int) : egcdLoop k r0 0 s0 s1 t0 t1 = (r0, s0, t0) := by
  cases k <;> rfl

theorem egcd_zero_right (a : Nat) : egcd a 0 = (a, 1, 0) := rfl

/-- When b divides a, and so for a = 0 and for a = b, the loop ends after one round (40_modarith.md R205). -/
theorem egcd_of_dvd {a b : Nat} (hb : b ≠ 0) (h : b ∣ a) : egcd a b = (b, 0, 1) := by
  obtain ⟨k, rfl⟩ := Nat.exists_eq_succ_of_ne_zero hb
  rw [egcd, egcdLoop, if_neg hb, Nat.div_mul_cancel h, Nat.sub_self, egcdLoop_done]

/-- A coefficient within the bound of R205 for a 256-bit operand fits its 512-bit register (40_modarith.md R206). -/
theorem toInt_ofInt_coefficient {x : Int} {n : Nat} (hn : n < 2 ^ 256) (hx : |x| ≤ max 1 (n : Int)) :
    (BitVec.ofInt 512 x).toInt = x := by
  have hlt : |x| < 2 ^ (512 - 1) := by omega
  obtain ⟨hlow, hhigh⟩ := abs_lt.1 hlt
  exact BitVec.toInt_ofInt_eq_self (by norm_num) hlow.le hhigh

theorem exec_mEgcd_out_of_range {s : State} (h : s.modu.mX.toInt < 0 ∨ 2 ^ 256 ≤ s.modu.mX.toInt) :
    exec .mEgcd s = .next (failed s 1) :=
  exec_of_invalidParameter (by rw [effectOf, mEgcdEffect, if_pos h])

theorem exec_mEgcd_in_range {s : State} {d : Nat} {x y : Int}
    (h : ¬(s.modu.mX.toInt < 0 ∨ 2 ^ 256 ≤ s.modu.mX.toInt))
    (he : egcd s.modu.mX.toInt.toNat s.modu.mM.toNat = (d, x, y)) :
    exec .mEgcd s = .next (completed { s with modu := { s.modu with
      mR := BitVec.ofNat 256 d, mGX := BitVec.ofInt 512 x, mGY := BitVec.ofInt 512 y } }) :=
  exec_of_ok (by rw [effectOf, mEgcdEffect, if_neg h, he])

/-- Settles O27: what M_EGCD writes is the result of R205's loop, whose coefficients fit their registers. -/
theorem egcdGivesBezout : Obligations.EgcdGivesBezout := by
  refine fun s => ⟨exec_mEgcd_out_of_range, fun hnonneg hfits a b ha hb => ?_⟩
  obtain ⟨x, y, he, heuclid, hbezout, hx, hy⟩ := egcd_result a b
  have hgx := toInt_ofInt_coefficient (hb ▸ s.modu.mM.isLt) hx
  have hgy := toInt_ofInt_coefficient (show a < 2 ^ 256 by omega) hy
  refine ⟨BitVec.ofInt 512 x, BitVec.ofInt 512 y, ?_⟩
  rw [hgx, hgy]
  refine ⟨heuclid, hbezout, hx, hy, ?_, ?_, exec_mEgcd_in_range (by omega) (by rw [← ha, ← hb, he])⟩
  · rintro rfl
    exact Prod.mk.inj (Prod.mk.inj (he.symm.trans (egcd_zero_right a))).2
  · intro hfixed
    have hone : egcd a b = (b, 0, 1) := by
      rcases hfixed with ⟨rfl, hb0⟩ | ⟨rfl, ha0⟩
      · exact egcd_of_dvd hb0 (dvd_zero b)
      · exact egcd_of_dvd ha0 dvd_rfl
    exact Prod.mk.inj (Prod.mk.inj (he.symm.trans hone)).2

end Sys2Proof.Machine
end


section
/-! PROOF. The point addition seen in the field of p elements: `padd` and the cases of 41_ecpoint.md R233 are both the sum
`fieldSum`, and E_PADD (41_ecpoint.md R231-R233). -/

namespace Sys2Proof.Machine

/-! ## The residues as a field -/

/-- The field of p elements, in which every coordinate is calculated (41_ecpoint.md R231). -/
abbrev Fp := ZMod curveP

theorem fact_curveP_prime : Fact curveP.Prime := ⟨curveP_prime⟩

theorem smod_eq_val (x : Int) : smod x curveP = (x : Fp).val := by
  have := fact_curveP_prime
  rw [smod, ← ZMod.val_intCast, Int.toNat_natCast]

theorem cast_val (z : Fp) : (z.val : Fp) = z := by
  have := fact_curveP_prime
  exact ZMod.natCast_zmod_val z

theorem val_lt_curveP (z : Fp) : z.val < curveP := by
  have := fact_curveP_prime
  exact ZMod.val_lt z

theorem mod_curveP_lt (n : Nat) : n % curveP < curveP := Nat.mod_lt n curveP_prime.pos

/-- A coordinate below p is the residue of its own class. -/
theorem eq_val_of_cast_eq {n : Nat} {z : Fp} (hn : n < curveP) (h : (n : Fp) = z) : n = z.val := by
  rw [← h, ZMod.val_natCast, Nat.mod_eq_of_lt hn]

theorem cast_add_eq_zero_iff (m n : Nat) : (m : Fp) + n = 0 ↔ (m + n) % curveP = 0 := by
  rw [← Nat.cast_add, ZMod.natCast_eq_zero_iff, Nat.dvd_iff_mod_eq_zero]

theorem two_mul_cast_eq_zero_iff (n : Nat) : 2 * (n : Fp) = 0 ↔ 2 * n % curveP = 0 := by
  rw [two_mul, two_mul, cast_add_eq_zero_iff]

/-- `modinv(·, p)` is the inverse of the field, which only 0 does not have (40_modarith.md R203). -/
theorem modinv_curveP (a : Int) : modinv a curveP = if (a : Fp) = 0 then none else some (a : Fp)⁻¹.val := by
  have := fact_curveP_prime
  have hgcd : Nat.gcd a.natAbs curveP = 1 ↔ (a : Fp) ≠ 0 := by
    rw [Nat.gcd_comm, ← Nat.coprime_iff_gcd_eq_one, curveP_prime.coprime_iff_not_dvd, ← Int.natCast_dvd,
      ne_eq, ZMod.intCast_zmod_eq_zero_iff_dvd]
  split_ifs with ha
  · exact modinv_none (mt hgcd.1 (not_not.2 ha))
  · refine modinv_unique (hgcd.2 ha) (val_lt_curveP _) ((ZMod.intCast_eq_intCast_iff _ _ _).1 ?_)
    push_cast [cast_val]
    exact mul_inv_cancel₀ ha

/-! ## The sum -/

/-- The third point of R233 for the slope `l` at (x1, y1), the other point having first coordinate `x2`. -/
def linePoint (l x1 y1 x2 : Fp) : Point :=
  .affine (l ^ 2 - x1 - x2).val (l * (x1 - (l ^ 2 - x1 - x2)) - y1).val

/-- The sum of two affine points in the field, by the cases of R233; `none` where R233 raises. -/
def fieldSum (x1 y1 x2 y2 : Fp) : Option Point :=
  if y1 + y2 = 0 then some .infinity
  else if x1 ≠ x2 then some (linePoint ((y2 - y1) * (x2 - x1)⁻¹) x1 y1 x2)
  else if 2 * y1 = 0 then none
  else some (linePoint ((3 * x1 ^ 2 + 7) * (2 * y1)⁻¹) x1 y1 x2)

/-- `l` is the slope λ of R233: that of the chord, or that of the tangent. -/
def IsSlope (x1 y1 x2 y2 l : Fp) : Prop :=
  (x1 ≠ x2 ∧ l * (x2 - x1) = y2 - y1) ∨ (x1 = x2 ∧ 2 * y1 ≠ 0 ∧ l * (2 * y1) = 3 * x1 ^ 2 + 7)

/-- Where the sum is not ∞ it is the third point for the slope, of which there is just one. -/
theorem fieldSum_eq_some_iff (x1 y1 x2 y2 : Fp) (R : Point) :
    fieldSum x1 y1 x2 y2 = some R ↔
      (y1 + y2 = 0 ∧ R = .infinity) ∨ (y1 + y2 ≠ 0 ∧ ∃ l, IsSlope x1 y1 x2 y2 l ∧ R = linePoint l x1 y1 x2) := by
  have := fact_curveP_prime
  unfold fieldSum IsSlope
  by_cases hy : y1 + y2 = 0
  · simp [hy, eq_comm]
  by_cases hx : x1 = x2
  · by_cases h2 : 2 * y1 = 0
    · simp [hy, hx, h2]
    · rw [if_neg hy, if_neg (not_not.2 hx), if_neg h2, ← div_eq_mul_inv]
      simp [hy, hx, h2, ← eq_div_iff h2, eq_comm]
  · simp [hy, hx, ← div_eq_mul_inv, ← eq_div_iff (sub_ne_zero.2 (Ne.symm hx)), eq_comm]

theorem fieldSum_eq_none_iff (x1 y1 x2 y2 : Fp) :
    fieldSum x1 y1 x2 y2 = none ↔ y1 + y2 ≠ 0 ∧ x1 = x2 ∧ 2 * y1 = 0 := by
  unfold fieldSum
  split_ifs <;> simp_all

/-! ## The machine's addition is the sum -/

theorem chord_eq (x1 y1 x2 y2 : Nat) : chord x1 y1 x2 y2 =
    if (x2 : Fp) - x1 = 0 then none else some (linePoint (((y2 : Fp) - y1) * ((x2 : Fp) - x1)⁻¹) x1 y1 x2) := by
  rw [chord, modinv_curveP]
  push_cast
  split_ifs
  · rfl
  · simp [smod_eq_val, cast_val, linePoint]

theorem tangent_eq (x1 y1 : Nat) : tangent x1 y1 =
    if 2 * (y1 : Fp) = 0 then none else some (linePoint ((3 * (x1 : Fp) ^ 2 + 7) * (2 * (y1 : Fp))⁻¹) x1 y1 x1) := by
  rw [tangent, modinv_curveP]
  push_cast
  split_ifs
  · rfl
  · simp [smod_eq_val, cast_val, linePoint, curveA, two_mul, sub_sub]

theorem padd_affine (x1 y1 x2 y2 : Nat) : padd (.affine x1 y1) (.affine x2 y2) = fieldSum x1 y1 x2 y2 := by
  have hx : x1 % curveP = x2 % curveP ↔ (x1 : Fp) = x2 := (ZMod.natCast_eq_natCast_iff' _ _ _).symm
  have hy : smod ((y1 % curveP : Nat) + (y2 % curveP : Nat)) curveP = 0 ↔ (y1 : Fp) + y2 = 0 := by
    rw [cast_add_eq_zero_iff, ← Nat.cast_add, smod_natCast, ← Nat.add_mod]
  simp only [padd, addReduced, fieldSum, smod_natCast, hy, ne_eq, hx, chord_eq, tangent_eq, ZMod.natCast_mod,
    sub_eq_zero]
  by_cases h : (x1 : Fp) = x2
  · simp [h]
  · simp [h, Ne.symm h]

theorem reduced_eq_fieldPoint (P : Point) : P.reduced = fieldPoint P := by
  cases P with
  | infinity => rfl
  | affine x y => exact reduced_affine x y

@[simp] theorem padd_infinity_left (P : Point) : padd .infinity P = some (fieldPoint P) :=
  congrArg some (reduced_eq_fieldPoint P)

@[simp] theorem padd_infinity_right (P : Point) : padd P .infinity = some (fieldPoint P) := by
  cases P with
  | infinity => rfl
  | affine x y => exact congrArg some (reduced_affine x y)

/-! ## The cases of R233 are the sum -/

/-- The congruences of R233 for x3 and y3 determine the third point. -/
theorem linePoint_of_modEq {x1 y1 x2 x3 y3 : Nat} {l : Int} (h3 : (x3 : Int) ≡ l ^ 2 - x1 - x2 [ZMOD curveP])
    (b3 : x3 < curveP) (k3 : (y3 : Int) ≡ l * ((x1 : Int) - x3) - y1 [ZMOD curveP]) (c3 : y3 < curveP) :
    Point.affine x3 y3 = linePoint l x1 y1 x2 := by
  have hx : (x3 : Fp) = (l : Fp) ^ 2 - x1 - x2 := by exact_mod_cast (ZMod.intCast_eq_intCast_iff _ _ _).2 h3
  have hy : (y3 : Fp) = (l : Fp) * (x1 - x3) - y1 := by exact_mod_cast (ZMod.intCast_eq_intCast_iff _ _ _).2 k3
  rw [linePoint, ← hx, ← hy, ← eq_val_of_cast_eq b3 rfl, ← eq_val_of_cast_eq c3 rfl]

/-- The rule's cases for two affine points are those of the sum in the field (41_ecpoint.md R233). -/
theorem pointSum_affine_iff (x1 y1 x2 y2 : Nat) (R : Point) :
    PointSum (.affine x1 y1) (.affine x2 y2) R ↔ fieldSum x1 y1 x2 y2 = some R := by
  have hx : x1 % curveP = x2 % curveP ↔ (x1 : Fp) = x2 := (ZMod.natCast_eq_natCast_iff' _ _ _).symm
  rw [fieldSum_eq_some_iff, cast_add_eq_zero_iff, ne_eq, cast_add_eq_zero_iff]
  constructor
  · intro h
    cases h with
    | opposite _ _ _ _ h => exact .inl ⟨h, rfl⟩
    | chord _ _ _ _ x3 y3 l hy hne hl h3 b3 k3 c3 =>
      refine .inr ⟨hy, l, .inl ⟨mt hx.2 hne, ?_⟩, linePoint_of_modEq h3 b3 k3 c3⟩
      exact_mod_cast (ZMod.intCast_eq_intCast_iff _ _ _).2 hl
    | tangent _ _ _ _ x3 y3 l hy heq hl h3 b3 k3 c3 hinv =>
      have heq := hx.1 heq
      refine .inr ⟨hy, l, .inr ⟨heq, mt (two_mul_cast_eq_zero_iff y1).1 hinv, ?_⟩, ?_⟩
      · exact_mod_cast (ZMod.intCast_eq_intCast_iff _ _ _).2 hl
      · rw [two_mul, ← sub_sub] at h3
        rw [← heq]
        exact linePoint_of_modEq h3 b3 k3 c3
  · rintro (⟨h, rfl⟩ | ⟨hy, l, hl, rfl⟩)
    · exact .opposite _ _ _ _ h
    · rcases hl with ⟨hne, hl⟩ | ⟨heq, hinv, hl⟩
      · refine .chord _ _ _ _ _ _ l.val hy (mt hx.1 hne) ?_ ?_ (val_lt_curveP _) ?_ (val_lt_curveP _) <;>
          rw [← ZMod.intCast_eq_intCast_iff] <;> push_cast [cast_val]
        · exact hl
        · rfl
        · rfl
      · refine .tangent _ _ _ _ _ _ l.val hy (hx.2 heq) ?_ ?_ (val_lt_curveP _) ?_ (val_lt_curveP _)
          (mt (two_mul_cast_eq_zero_iff y1).2 hinv) <;>
          rw [← ZMod.intCast_eq_intCast_iff] <;> push_cast [cast_val]
        · exact hl
        · rw [← heq, two_mul, ← sub_sub]
        · rfl

theorem padd_eq_some_iff (P Q R : Point) : padd P Q = some R ↔ PointSum P Q R := by
  cases P with
  | infinity =>
    rw [padd_infinity_left, Option.some_inj]
    exact ⟨fun h => h ▸ .infinityLeft Q, fun h => by cases h; rfl⟩
  | affine x1 y1 =>
    cases Q with
    | infinity =>
      rw [padd_infinity_right, Option.some_inj]
      exact ⟨fun h => h ▸ .infinityRight x1 y1, fun h => by cases h; rfl⟩
    | affine x2 y2 => rw [padd_affine, pointSum_affine_iff]

theorem padd_eq_none_iff (P Q : Point) : padd P Q = none ↔ SumRaises P Q := by
  unfold SumRaises
  cases P with
  | infinity => simp
  | affine x1 y1 =>
    cases Q with
    | infinity => simp
    | affine x2 y2 =>
      rw [padd_affine, fieldSum_eq_none_iff, ne_eq, cast_add_eq_zero_iff, ZMod.natCast_eq_natCast_iff',
        two_mul_cast_eq_zero_iff]
      constructor
      · exact fun h => ⟨x1, y1, x2, y2, rfl, rfl, h⟩
      · rintro ⟨_, _, _, _, ⟨⟩, ⟨⟩, h⟩
        exact h

/-- Every sum has its coordinates below p (41_ecpoint.md R231). -/
theorem pointSum_lt {P Q : Point} {x y : Nat} (h : PointSum P Q (.affine x y)) : x < curveP ∧ y < curveP := by
  generalize hR : Point.affine x y = R at h
  cases h with
  | infinityLeft =>
    cases Q with
    | infinity => cases hR
    | affine => cases hR; exact ⟨mod_curveP_lt _, mod_curveP_lt _⟩
  | infinityRight => cases hR; exact ⟨mod_curveP_lt _, mod_curveP_lt _⟩
  | opposite => cases hR
  | chord | tangent => cases hR; exact ⟨‹_›, ‹_›⟩

/-- Settles O28: `padd` and the cases of R233 are the same sum in the field. -/
theorem pointAddition : Obligations.PointAddition :=
  fun P Q => ⟨padd_eq_some_iff P Q, padd_eq_none_iff P Q, fun _ _ => pointSum_lt⟩

/-! ## E_PADD -/

theorem setPointA_eq_withPointA (s : State) (R : Point) : s.setPointA R = withPointA s R := by
  cases R <;> rfl

theorem exec_ePadd_some {s : State} {R : Point} (h : padd s.pointA s.pointB = some R) :
    exec .ePadd s = .next (completed (withPointA s R)) := by
  rw [← setPointA_eq_withPointA]
  exact exec_of_ok (by rw [effectOf, ePaddEffect, h])

theorem exec_ePadd_none {s : State} (h : padd s.pointA s.pointB = none) : exec .ePadd s = .next (failed s 1) :=
  exec_of_invalidParameter (by rw [effectOf, ePaddEffect, h])

/-- Settles O29: E_PADD completes as `padd` of its operands answers. -/
theorem paddAddsPoints : Obligations.PaddAddsPoints := fun _ =>
  ⟨fun _ h => exec_ePadd_some ((padd_eq_some_iff _ _ _).2 h), fun h => exec_ePadd_none ((padd_eq_none_iff _ _).2 h)⟩

end Sys2Proof.Machine
end

section
/-! PROOF. The scalar multiplication: why it never raises, its short runs, and E_PMUL (41_ecpoint.md R234, R235). -/

namespace Sys2Proof.Machine

/-! ## Points on one curve

The sum never uses the curve's b, so every affine point lies on the curve y² = x³ + 7x + c for a c of its own, and the sums
of points on that curve stay on it (41_ecpoint.md R234). -/

/-- ∞, or a reduced point on the curve y² = x³ + 7x + c. -/
def OnCubic (c : Fp) : Point → Prop
  | .infinity => True
  | .affine x y => x < curveP ∧ y < curveP ∧ (y : Fp) ^ 2 = (x : Fp) ^ 3 + 7 * x + c

theorem fieldPoint_fieldPoint (P : Point) : fieldPoint (fieldPoint P) = fieldPoint P := by
  cases P <;> simp [fieldPoint]

theorem fieldPoint_of_onCubic {c : Fp} {P : Point} (h : OnCubic c P) : fieldPoint P = P := by
  cases P with
  | infinity => rfl
  | affine x y =>
    obtain ⟨hx, hy, -⟩ := h
    rw [fieldPoint, Nat.mod_eq_of_lt hx, Nat.mod_eq_of_lt hy]

theorem exists_onCubic (P : Point) : ∃ c, OnCubic c (fieldPoint P) := by
  cases P with
  | infinity => exact ⟨0, trivial⟩
  | affine x y =>
    refine ⟨(y : Fp) ^ 2 - (x : Fp) ^ 3 - 7 * x, mod_curveP_lt _, mod_curveP_lt _, ?_⟩
    rw [ZMod.natCast_mod, ZMod.natCast_mod]
    ring

theorem two_ne_zero_Fp : (2 : Fp) ≠ 0 := by decide +kernel

/-- The line of slope l through (x1, y1) meets the curve again at x2, doubly at x1 = x2 for the tangent: the quadratic that
is left when the root x1 is divided out has x2 as a root. -/
theorem root_of_isSlope {c x1 y1 x2 y2 l : Fp} (hl : IsSlope x1 y1 x2 y2 l) (h1 : y1 ^ 2 = x1 ^ 3 + 7 * x1 + c)
    (h2 : y2 ^ 2 = x2 ^ 3 + 7 * x2 + c) : x2 ^ 2 + x1 * x2 + x1 ^ 2 + 7 = l * (2 * y1 + l * (x2 - x1)) := by
  have := fact_curveP_prime
  rcases hl with ⟨hne, hl⟩ | ⟨rfl, -, hl⟩
  · refine mul_left_cancel₀ (sub_ne_zero.2 hne.symm) ?_
    linear_combination h1 - h2 - (l * (x2 - x1) + y1 + y2) * hl
  · linear_combination -hl

theorem linePoint_onCubic {c x1 y1 x2 y2 l : Fp} (hl : IsSlope x1 y1 x2 y2 l) (h1 : y1 ^ 2 = x1 ^ 3 + 7 * x1 + c)
    (h2 : y2 ^ 2 = x2 ^ 3 + 7 * x2 + c) : OnCubic c (linePoint l x1 y1 x2) := by
  refine ⟨val_lt_curveP _, val_lt_curveP _, ?_⟩
  rw [cast_val, cast_val]
  linear_combination h1 - (l ^ 2 - x1 - x2 - x1) * root_of_isSlope hl h1 h2

/-- On one curve equal x coordinates have y coordinates equal up to the sign, so the doubling of R233 has its inverse. -/
theorem fieldSum_ne_none {c x1 y1 x2 y2 : Fp} (h1 : y1 ^ 2 = x1 ^ 3 + 7 * x1 + c)
    (h2 : y2 ^ 2 = x2 ^ 3 + 7 * x2 + c) : fieldSum x1 y1 x2 y2 ≠ none := by
  have := fact_curveP_prime
  rw [Ne, fieldSum_eq_none_iff]
  rintro ⟨hy, rfl, hdouble⟩
  obtain rfl : y1 = 0 := (mul_eq_zero.1 hdouble).resolve_left two_ne_zero_Fp
  obtain rfl : y2 = 0 := by rw [← sq_eq_zero_iff, h2, ← h1, sq, zero_mul]
  exact hy (zero_add 0)

theorem padd_onCubic {c : Fp} {P Q : Point} (hP : OnCubic c P) (hQ : OnCubic c Q) :
    ∃ R, padd P Q = some R ∧ OnCubic c R := by
  cases P with
  | infinity => exact ⟨Q, by rw [padd_infinity_left, fieldPoint_of_onCubic hQ], hQ⟩
  | affine x1 y1 =>
    cases Q with
    | infinity => exact ⟨_, by rw [padd_infinity_right, fieldPoint_of_onCubic hP], hP⟩
    | affine x2 y2 =>
      obtain ⟨-, -, h1⟩ := hP
      obtain ⟨-, -, h2⟩ := hQ
      obtain ⟨R, hR⟩ := Option.ne_none_iff_exists'.1 (fieldSum_ne_none h1 h2)
      refine ⟨R, by rw [padd_affine, hR], ?_⟩
      rcases (fieldSum_eq_some_iff _ _ _ _ _).1 hR with ⟨-, rfl⟩ | ⟨-, l, hl, rfl⟩
      · trivial
      · exact linePoint_onCubic hl h1 h2

/-! ## The loop -/

/-- From two points on one curve the machine's loop is that of R234, ends, and stays on the curve. -/
theorem pmulLoop_doubleAndAdd {c : Fp} {n k : Nat} {R A : Point} (hk : k < 2 ^ n) (hR : OnCubic c R)
    (hA : OnCubic c A) : ∃ S, pmulLoop n k R A = some S ∧ DoubleAndAdd k R A S ∧ OnCubic c S := by
  induction n generalizing k R A with
  | zero =>
    obtain rfl : k = 0 := by omega
    exact ⟨R, rfl, .stop R A, hR⟩
  | succ n ih =>
    obtain rfl | hpos := Nat.eq_zero_or_pos k
    · exact ⟨R, rfl, .stop R A, hR⟩
    have hhalf : k / 2 < 2 ^ n := by omega
    obtain ⟨A', hAA, hA'⟩ := padd_onCubic hA hA
    have hdouble := (padd_eq_some_iff _ _ _).1 hAA
    rw [pmulLoop, if_neg hpos.ne', hAA]
    rcases Nat.mod_two_eq_zero_or_one k with heven | hodd
    · obtain ⟨S, hloop, hrest, hS⟩ := ih hhalf hR hA'
      exact ⟨S, by rw [if_neg (by omega)]; exact hloop, .skip k R A A' S hpos heven hdouble hrest, hS⟩
    · obtain ⟨R', hRA, hR'⟩ := padd_onCubic hR hA
      obtain ⟨S, hloop, hrest, hS⟩ := ih hhalf hR' hA'
      have hsum := (padd_eq_some_iff _ _ _).1 hRA
      exact ⟨S, by rw [if_pos hodd, hRA]; exact hloop, .add k R A R' A' S hodd hsum hdouble hrest, hS⟩

/-- `pmul` never raises: it ends where R234's loop ends, at a reduced point. -/
theorem pmul_spec (k : Nat) (P : Point) :
    ∃ R, pmul k P = some R ∧ DoubleAndAdd k .infinity (fieldPoint P) R ∧ fieldPoint R = R := by
  obtain ⟨c, hc⟩ := exists_onCubic P
  obtain ⟨R, hloop, hR, hon⟩ := pmulLoop_doubleAndAdd Nat.lt_log2_self (R := .infinity) trivial hc
  exact ⟨R, by rw [pmul, reduced_eq_fieldPoint, hloop], hR, fieldPoint_of_onCubic hon⟩

theorem doubleAndAdd_zero {R A S : Point} (h : DoubleAndAdd 0 R A S) : S = R := by
  cases h with
  | stop => rfl
  | add _ _ _ _ _ _ hodd => cases hodd
  | skip _ _ _ _ _ hpos => cases hpos

theorem doubleAndAdd_one {A S : Point} (h : DoubleAndAdd 1 .infinity A S) : S = fieldPoint A := by
  cases h with
  | add _ _ _ R' _ _ _ hsum _ hrest =>
    cases hsum
    exact doubleAndAdd_zero hrest
  | skip _ _ _ _ _ _ heven => cases heven

theorem pmul_one (P : Point) : pmul 1 P = some (fieldPoint P) := by
  obtain ⟨R, hR, hloop, -⟩ := pmul_spec 1 P
  rw [hR, doubleAndAdd_one hloop, fieldPoint_fieldPoint]

theorem pmulLoop_infinity (n k : Nat) : pmulLoop n k .infinity .infinity = some .infinity := by
  induction n generalizing k with
  | zero => rfl
  | succ n ih => simp [pmulLoop, fieldPoint, ih]

/-! ## E_PMUL -/

theorem exec_ePmul_some {s : State} {R : Point} (h : pmul s.sign.eK.toNat s.pointA = some R) :
    exec .ePmul s = .next (completed (withPointA s R)) := by
  rw [← setPointA_eq_withPointA]
  exact exec_of_ok (by rw [effectOf, ePmulEffect, h])

/-- Settles O31: `pmul` always answers, and E_PMUL completes with its answer in PA. -/
theorem pmulMultipliesPoint : Obligations.PmulMultipliesPoint := by
  intro s
  obtain ⟨R, hR, -⟩ := pmul_spec s.sign.eK.toNat s.pointA
  exact ⟨R, hR, exec_ePmul_some hR⟩

end Sys2Proof.Machine
end

section
/-! PROOF. The multiples of G, evaluated without inverses: R234's loop on the fractions of projective coordinates. -/

namespace Sys2Proof.Machine

/-- Projective coordinates: the affine point (X/Z, Y/Z), or ∞ when Z = 0. -/
structure Proj where
  X : Fp
  Y : Fp
  Z : Fp

/-- The third point for the slope u/v. -/
def Proj.line (u v : Fp) (a b : Proj) : Proj :=
  let A := u * u * (a.Z * b.Z) - v * v * (a.X * b.Z + b.X * a.Z)
  ⟨v * A, u * (v * v * (a.X * b.Z) - A) - v * v * v * (a.Y * b.Z), v * v * v * (a.Z * b.Z)⟩

/-- The sum by the cases of R233. -/
def Proj.add (a b : Proj) : Proj :=
  if a.Z = 0 then b
  else if b.Z = 0 then a
  else if a.Y * b.Z + b.Y * a.Z = 0 then ⟨0, 1, 0⟩
  else if a.X * b.Z ≠ b.X * a.Z then line (b.Y * a.Z - a.Y * b.Z) (b.X * a.Z - a.X * b.Z) a b
  else line (3 * (a.X * a.X) + 7 * (a.Z * a.Z)) (2 * (a.Y * a.Z)) a b

/-- `n` rounds of the loop of R234. -/
def Proj.mul : Nat → Nat → Proj → Proj → Proj
  | 0, _, r, _ => r
  | n + 1, k, r, a => Proj.mul n (k / 2) (if k % 2 = 1 then r.add a else r) (a.add a)

/-- `a` holds projective coordinates of the point. -/
def Proj.Represents (a : Proj) : Point → Prop
  | .infinity => a.Z = 0
  | .affine x y => a.Z ≠ 0 ∧ a.X = x * a.Z ∧ a.Y = y * a.Z

theorem Proj.Represents.reduce {a : Proj} {P : Point} (h : a.Represents P) : a.Represents (fieldPoint P) := by
  cases P with
  | infinity => exact h
  | affine x y =>
    rw [fieldPoint, Represents, ZMod.natCast_mod, ZMod.natCast_mod]
    exact h

/-- The coordinates fix the point up to the reduction modulo p. -/
theorem Proj.Represents.unique {a : Proj} {P Q : Point} (hP : a.Represents P) (hQ : a.Represents Q) :
    fieldPoint P = fieldPoint Q := by
  have := fact_curveP_prime
  cases P with
  | infinity =>
    cases Q with
    | infinity => rfl
    | affine x2 y2 => exact absurd hP hQ.1
  | affine x1 y1 =>
    obtain ⟨hZ, hX1, hY1⟩ := hP
    cases Q with
    | infinity => exact absurd hQ hZ
    | affine x2 y2 =>
      obtain ⟨-, hX2, hY2⟩ := hQ
      rw [fieldPoint, fieldPoint,
        (ZMod.natCast_eq_natCast_iff' _ _ _).1 (mul_right_cancel₀ hZ (hX1.symm.trans hX2)),
        (ZMod.natCast_eq_natCast_iff' _ _ _).1 (mul_right_cancel₀ hZ (hY1.symm.trans hY2))]

theorem Proj.line_represents {u v l x1 y1 x2 : Fp} {a b : Proj} (hv : v ≠ 0) (hu : u = l * v) (ha : a.Z ≠ 0)
    (hb : b.Z ≠ 0) (hX1 : a.X = x1 * a.Z) (hY1 : a.Y = y1 * a.Z) (hX2 : b.X = x2 * b.Z) :
    (line u v a b).Represents (linePoint l x1 y1 x2) := by
  have := fact_curveP_prime
  refine ⟨by simp [line, hv, ha, hb], ?_, ?_⟩ <;> simp only [line, cast_val, hu, hX1, hY1, hX2] <;> ring

theorem Proj.Represents.add_affine {a b : Proj} {x1 y1 x2 y2 : Nat} {R : Point} (ha : a.Represents (.affine x1 y1))
    (hb : b.Represents (.affine x2 y2)) (h : fieldSum x1 y1 x2 y2 = some R) : (a.add b).Represents R := by
  have := fact_curveP_prime
  obtain ⟨hZ1, hX1, hY1⟩ := ha
  obtain ⟨hZ2, hX2, hY2⟩ := hb
  have hZ : a.Z * b.Z ≠ 0 := mul_ne_zero hZ1 hZ2
  have hy : a.Y * b.Z + b.Y * a.Z = (y1 + y2) * (a.Z * b.Z) := by rw [hY1, hY2]; ring
  have hx : b.X * a.Z - a.X * b.Z = (x2 - x1) * (a.Z * b.Z) := by rw [hX1, hX2]; ring
  have hsame : a.X * b.Z = b.X * a.Z ↔ (x1 : Fp) = x2 := by
    rw [eq_comm, ← sub_eq_zero, hx, mul_eq_zero, or_iff_left hZ, sub_eq_zero, eq_comm]
  rw [Proj.add, if_neg hZ1, if_neg hZ2, hy]
  rcases (fieldSum_eq_some_iff _ _ _ _ _).1 h with ⟨h0, rfl⟩ | ⟨h0, l, ⟨hne, hl⟩ | ⟨heq, h2, hl⟩, rfl⟩
  · rw [h0, zero_mul, if_pos rfl]
    rfl
  · rw [if_neg (mul_ne_zero h0 hZ), if_pos (mt hsame.1 hne), hx]
    refine line_represents (mul_ne_zero (sub_ne_zero.2 hne.symm) hZ) ?_ hZ1 hZ2 hX1 hY1 hX2
    rw [← mul_assoc, hl, hY1, hY2]
    ring
  · rw [if_neg (mul_ne_zero h0 hZ), if_neg (not_not.2 (hsame.2 heq))]
    have hv : 2 * (a.Y * a.Z) = 2 * y1 * (a.Z * a.Z) := by rw [hY1]; ring
    rw [hv]
    refine line_represents (mul_ne_zero h2 (mul_ne_zero hZ1 hZ1)) ?_ hZ1 hZ2 hX1 hY1 hX2
    rw [← mul_assoc l, hl, hX1]
    ring

/-- The projective sum holds the sum of R233. -/
theorem Proj.Represents.add {a b : Proj} {P Q R : Point} (ha : a.Represents P) (hb : b.Represents Q)
    (h : PointSum P Q R) : (a.add b).Represents R := by
  cases P with
  | infinity =>
    have hZ : a.Z = 0 := ha
    cases h
    rw [Proj.add, if_pos hZ]
    exact hb.reduce
  | affine x1 y1 =>
    cases Q with
    | infinity =>
      have hZ : b.Z = 0 := hb
      cases h
      rw [Proj.add, if_neg ha.1, if_pos hZ]
      exact ha.reduce
    | affine x2 y2 => exact ha.add_affine hb ((pointSum_affine_iff _ _ _ _ _).1 h)

@[simp] theorem Proj.mul_zero (n : Nat) (r a : Proj) : Proj.mul n 0 r a = r := by
  induction n generalizing a with
  | zero => rfl
  | succ n ih => exact ih (a.add a)

/-- The projective loop holds the result of R234's loop. -/
theorem Proj.Represents.mul {k : Nat} {R A S : Point} (h : DoubleAndAdd k R A S) {n : Nat} (hk : k < 2 ^ n)
    {r a : Proj} (hr : r.Represents R) (ha : a.Represents A) : (Proj.mul n k r a).Represents S := by
  induction h generalizing n r a with
  | stop R A => rwa [Proj.mul_zero]
  | add k R A R' A' S hodd hR hA hrest ih =>
    cases n with
    | zero => omega
    | succ n =>
      rw [Proj.mul, if_pos hodd]
      exact ih (by omega) (hr.add ha hR) (ha.add ha hA)
  | skip k R A A' S hpos heven hA hrest ih =>
    cases n with
    | zero => omega
    | succ n =>
      rw [Proj.mul, if_neg (by omega)]
      exact ih (by omega) hr (ha.add ha hA)

/-- A multiple of G is the reduced point that the projective loop's result represents. -/
theorem pmul_baseG {k : Nat} (hk : k < 2 ^ 256) {S : Point}
    (h : (Proj.mul 256 k ⟨0, 1, 0⟩ ⟨2, baseY, 1⟩).Represents S) : pmul k (.affine baseX baseY) = some (fieldPoint S) := by
  obtain ⟨R, hR, hloop, hreduced⟩ := pmul_spec k (.affine baseX baseY)
  have hG : Proj.Represents ⟨2, baseY, 1⟩ (.affine baseX baseY) := by unfold Proj.Represents; decide +kernel
  have hmul := Proj.Represents.mul hloop hk (r := ⟨0, 1, 0⟩) rfl hG.reduce
  rw [hR, ← hreduced, hmul.unique h]

theorem pmul_curveQ_baseG : pmul curveQ (.affine baseX baseY) = some .infinity :=
  pmul_baseG (S := .infinity) (by decide +kernel) (by unfold Proj.Represents; decide +kernel)

theorem pmul_curveQ_sub_one_baseG :
    pmul (curveQ - 1) (.affine baseX baseY) = some (.affine baseX (curveP - baseY)) :=
  pmul_baseG (S := .affine baseX (curveP - baseY)) (by decide +kernel) (by unfold Proj.Represents; decide +kernel)

/-- Settles O30: the loop on one curve, its short runs, and the two evaluated multiples of G. -/
theorem scalarMultiplication : Obligations.ScalarMultiplication := by
  refine ⟨fun k P => ?_, fun _ => rfl, fun k => pmulLoop_infinity _ k, pmul_one, pmul_curveQ_baseG,
    pmul_curveQ_sub_one_baseG⟩
  obtain ⟨R, hR, hloop, -⟩ := pmul_spec k P
  exact ⟨R, hR, hloop⟩

end Sys2Proof.Machine
end


section
/-! PROOF. DMEM regions as byte strings, and the parts of byte strings: what a command with an input and an output region
reads and stores (00_scope.md R9; 20_memory.md R104-R107). -/

namespace Sys2Proof.Machine

/-! ## Parts of byte strings -/

theorem slice_append_left {b c : Bytes} {n : Nat} (h : b.length = n) : slice (b ++ c) 0 n = b := List.take_left' h

theorem slice_append_right {b c : Bytes} {n m : Nat} (hb : b.length = n) (hc : c.length = m - n) :
    slice (b ++ c) n m = c := by
  rw [slice, List.drop_left' hb, List.take_of_length_le hc.le]

/-- A byte of an XOR with a string that is long enough (00_scope.md R9). -/
theorem getElem?_xorBytes {b c : Bytes} (h : b.length ≤ c.length) (i : Nat) :
    (xorBytes b c)[i]? = b[i]?.map (· ^^^ c.getD i 0) := by
  rw [xorBytes, List.getElem?_zipWith]
  by_cases hi : i < b.length
  · simp [List.getElem?_eq_getElem hi, List.getElem?_eq_getElem (hi.trans_le h)]
  · simp [List.getElem?_eq_none (not_lt.1 hi)]

/-! ## Regions -/

@[simp] theorem length_regionBytes (s : State) (off n : Nat) : (regionBytes s off n).length = n := by simp [regionBytes]

/-- A part of a region is the region at its own offset (20_memory.md R105). -/
theorem slice_regionBytes (s : State) (off : Nat) {n i j : Nat} (h : j ≤ n) :
    slice (regionBytes s off n) i j = regionBytes s (off + i) (j - i) := by
  apply List.ext_getElem
  · simp; omega
  · intro k _ _
    simp [slice, regionBytes, Nat.add_assoc]

/-- The blocks of a region (20_memory.md R105). -/
theorem blocks8_regionBytes (s : State) (off k : Nat) :
    blocks8 k (regionBytes s off (8 * k)) = (List.range k).map fun c => regionBytes s (off + 8 * c) 8 := by
  induction k generalizing off with
  | zero => rfl
  | succ k ih =>
    have hfirst : (regionBytes s off (8 * (k + 1))).take 8 = regionBytes s off 8 :=
      slice_regionBytes s off (i := 0) (j := 8) (by omega)
    have hrest : (regionBytes s off (8 * (k + 1))).drop 8 = regionBytes s (off + 8) (8 * k) := by
      have hslice := slice_regionBytes s off (i := 8) (le_refl (8 * (k + 1)))
      rwa [slice, List.take_of_length_le (by simp), show 8 * (k + 1) - 8 = 8 * k by omega] at hslice
    rw [blocks8, hfirst, hrest, ih, List.range_succ_eq_map, List.map_cons, List.map_map]
    simp [Function.comp_def, Nat.mul_add, Nat.add_assoc, Nat.add_comm]

/-- A region whose bytes all hold a value reads as its byte string (20_memory.md R105). -/
theorem Readable.read {s : State} {off n : Nat} (h : Readable s off n) : s.dmem.read off n = .ok (regionBytes s off n) :=
  read_of_readable fun a h1 h2 => Option.isSome_iff_ne_none.1 (h a h1 h2)

/-- A region just written reads as what was written there (20_memory.md R105). -/
theorem read_write (m : Memory) (off : Nat) {out : Bytes} {n : Nat} (h : out.length = n) :
    (m.write off out).read off n = .ok out := by
  refine (read_ok_iff _ _ _ _).2 ⟨h, fun j hj => ?_⟩
  rw [byteAt_write, if_pos (by omega), Nat.add_sub_cancel_left]

/-- A byte of an output (20_memory.md R105). -/
theorem byteAt_writeOutput_add (s : State) {out : Bytes} {j : Nat} (hj : j < out.length) :
    (s.writeOutput out).dmem.byteAt (s.dstOff + j) = out[j]? := by
  rw [byteAt_writeOutput, if_pos (by omega), Nat.add_sub_cancel_left]

/-- An output of LEN bytes sets OUTLEN to LEN (10_state.md R41). -/
theorem writeOutput_of_length {s : State} {out : Bytes} (h : out.length = s.lenBytes) :
    s.writeOutput out =
      { s with io := { s.io with outlen := s.io.len }, dmem := s.dmem.write s.dstOff out } := by
  have hlen : BitVec.ofNat 32 out.length = s.io.len := by rw [h, State.lenBytes, BitVec.ofNat_toNat, BitVec.setWidth_eq]
  rw [State.writeOutput, hlen]
  rfl

/-- A state with an output written to DMEM holds the output there (20_memory.md R105). -/
theorem storedFrom_write (base : State) (off : Nat) (out : Bytes) :
    StoredFrom base { base with dmem := base.dmem.write off out } off out := ⟨rfl, byteAt_write _ _ _⟩

end Sys2Proof.Machine
end


section
/-! PROOF. The block cipher: the two forms of its round function, its 32 Feistel rounds and their inverse
(42_gost89.md R264-R267). -/

namespace Sys2Proof.Machine

/-! ## The round function -/

/-- Nibbles put side by side by OR, bit by bit. -/
theorem getLsbD_foldl_nibbles (f : Nat → BitVec 4) (n i : Nat) :
    ((List.range n).foldl (fun acc j => acc ||| ((f j).setWidth 32 <<< (4 * j))) (0 : Word)).getLsbD i =
      (decide (i < 32 ∧ i < 4 * n) && (f (i / 4)).getLsbD (i % 4)) := by
  induction n with
  | zero => simp
  | succ n ih =>
    rw [List.range_succ, List.foldl_append, List.foldl_cons, List.foldl_nil, BitVec.getLsbD_or, ih,
      BitVec.getLsbD_shiftLeft, BitVec.getLsbD_setWidth]
    rcases lt_trichotomy (i / 4) n with hlow | heq | hhigh
    · simp [show i < 4 * n by omega, show i < 4 * (n + 1) by omega]
    · subst heq
      have hmod : i - 4 * (i / 4) = i % 4 := by omega
      simp [hmod, show ¬ i < 4 * (i / 4) by omega, show i < 4 * (i / 4 + 1) by omega, show i % 4 < 32 by omega]
    · have hout : (f n).getLsbD (i - 4 * n) = false := BitVec.getLsbD_of_ge _ _ (by omega)
      simp [hout, show ¬ i < 4 * n by omega, show ¬ i < 4 * (n + 1) by omega]

/-- Nibble j of the substitution is entry x[4j+3:4j] of S-box j+1 (42_gost89.md R264). -/
theorem nibble_substitute (S : SboxSet) (x : Word) {j : Nat} (hj : j < 8) :
    (substitute S x).extractLsb' (4 * j) 4 = sboxEntry S j (x.extractLsb' (4 * j) 4).toNat := by
  refine extractLsb'_eq_of_bits fun i hi => ?_
  rw [substitute, getLsbD_foldl_nibbles fun j => sboxEntry S j (x.extractLsb' (4 * j) 4).toNat,
    show (4 * j + i) / 4 = j by omega, show (4 * j + i) % 4 = i by omega]
  simp [show 4 * j + i < 32 by omega]

/-- `rotl32` is the rotation of 32-bit words (00_scope.md R11). -/
theorem rotl32_eq_rotateLeft (x : Word) {k : Nat} (hk : k < 32) : rotl32 x k = x.rotateLeft k := by
  rw [BitVec.rotateLeft_def, Nat.mod_eq_of_lt hk, rotl32]

theorem rotateRight_rotl32 (x : Word) {k : Nat} (hk : k < 32) : (rotl32 x k).rotateRight k = x := by
  apply BitVec.eq_of_getLsbD_eq
  intro i hi
  rw [rotl32_eq_rotateLeft x hk, BitVec.getLsbD_rotateRight, BitVec.getLsbD_rotateLeft, BitVec.getLsbD_rotateLeft,
    Nat.mod_eq_of_lt hk]
  by_cases h : i < 32 - k
  · simp [h, show k + i < 32 by omega]
  · simp [h, hi, show i - (32 - k) < k by omega, show 32 - k + (i - (32 - k)) = i by omega]

/-- Nibble j of x through S-box j+1, in its place (42_gost89.md R264). -/
def placedNibble (S : SboxSet) (x : Word) (j : Nat) : Word :=
  (sboxEntry S j (x.extractLsb' (4 * j) 4).toNat).setWidth 32 <<< (4 * j)

/-- The substitution by its eight nibbles (42_gost89.md R264). -/
theorem substitute_eq_placedNibbles (S : SboxSet) (x : Word) :
    substitute S x = placedNibble S x 0 ||| placedNibble S x 1 ||| placedNibble S x 2 ||| placedNibble S x 3 |||
      placedNibble S x 4 ||| placedNibble S x 5 ||| placedNibble S x 6 ||| placedNibble S x 7 := by
  rw [← BitVec.zero_or (x := placedNibble S x 0)]
  rfl

/-- A fused table places nibbles 2b+1 and 2b of byte b of x (42_gost89.md R264). -/
theorem fusedTable_byte (S : SboxSet) (x : Word) (b : Nat) :
    fusedTable S (2 * b + 1) (2 * b) (8 * b) (x.extractLsb' (8 * b) 8) =
      placedNibble S x (2 * b + 1) ||| placedNibble S x (2 * b) := by
  have hhigh : (x.extractLsb' (8 * b) 8).toNat / 16 = (x.extractLsb' (4 * (2 * b + 1)) 4).toNat := by
    rw [BitVec.extractLsb'_toNat, BitVec.extractLsb'_toNat, show 4 * (2 * b + 1) = 8 * b + 4 by ring,
      Nat.shiftRight_add, Nat.shiftRight_eq_div_pow _ 4]
    omega
  have hlow : (x.extractLsb' (8 * b) 8).toNat % 16 = (x.extractLsb' (4 * (2 * b)) 4).toNat := by
    rw [BitVec.extractLsb'_toNat, BitVec.extractLsb'_toNat, show 4 * (2 * b) = 8 * b by ring]
    omega
  rw [fusedTable, hhigh, hlow, BitVec.shiftLeft_or_distrib, ← BitVec.shiftLeft_add, placedNibble, placedNibble,
    show 4 + 8 * b = 4 * (2 * b + 1) by ring, show 8 * b = 4 * (2 * b) by ring]

/-- The substitution by the four fused tables of the source (42_gost89.md R264). -/
theorem substitute_eq_fusedTables (S : SboxSet) (x : Word) :
    substitute S x =
      fusedTable S 7 6 24 (x.extractLsb' 24 8) ||| fusedTable S 5 4 16 (x.extractLsb' 16 8) |||
       fusedTable S 3 2 8 (x.extractLsb' 8 8) ||| fusedTable S 1 0 0 (x.extractLsb' 0 8) := by
  have hbyte3 : fusedTable S 7 6 24 _ = placedNibble S x 7 ||| placedNibble S x 6 := fusedTable_byte S x 3
  have hbyte2 : fusedTable S 5 4 16 _ = placedNibble S x 5 ||| placedNibble S x 4 := fusedTable_byte S x 2
  have hbyte1 : fusedTable S 3 2 8 _ = placedNibble S x 3 ||| placedNibble S x 2 := fusedTable_byte S x 1
  have hbyte0 : fusedTable S 1 0 0 _ = placedNibble S x 1 ||| placedNibble S x 0 := fusedTable_byte S x 0
  rw [substitute_eq_placedNibbles, hbyte3, hbyte2, hbyte1, hbyte0]
  generalize placedNibble S x = nibble
  ac_rfl

/-- Settles O38: both forms put the eight substituted nibbles in their places before the rotation. -/
theorem roundFunctionForms : Obligations.RoundFunctionForms := by
  intro S x
  have hrot : (11 : Nat) < 32 := by norm_num
  refine ⟨fun j hj => ?_, ?_⟩
  · rw [roundF, rotateRight_rotl32 _ hrot, nibble_substitute S x hj]
  · rw [roundF, rotl32_eq_rotateLeft _ hrot, substitute_eq_fusedTables]

/-! ## The rounds -/

/-- The block with halves n1 and n2 (42_gost89.md R265). -/
def blockOf (p : Word × Word) : Bytes := toLE32 p.1 ++ toLE32 p.2

/-- The halves of a block (42_gost89.md R265). -/
theorem halves_append {b c : Bytes} (hb : b.length = 4) (hc : c.length = 4) :
    slice (b ++ c) 0 4 = b ∧ slice (b ++ c) 4 8 = c := ⟨slice_append_left hb, slice_append_right hb hc⟩

/-- Every string of eight bytes is the block of its halves. -/
theorem exists_blockOf {b : Bytes} (h : b.length = 8) : ∃ p, blockOf p = b := by
  refine ⟨(le32 (b.take 4), le32 (b.drop 4)), ?_⟩
  rw [blockOf, toLE32_le32 (by simp [h]), toLE32_le32 (by simp [h]), List.take_append_drop]

/-- The round pairs of the machine are Feistel rounds, two each (42_gost89.md R265). -/
theorem foldl_roundPair (S : SboxSet) (K : U256) (order : Nat → Nat) (p : Word × Word) (n : Nat) :
    (List.range n).foldl (roundPair S K order) p = ((List.range (2 * n)).map order).foldl (feistelRound S K) p := by
  induction n with
  | zero => rfl
  | succ n ih =>
    rw [List.range_succ, List.foldl_append, ih, show 2 * (n + 1) = 2 * n + 1 + 1 by ring, List.range_succ,
      List.range_succ, List.map_append, List.map_append, List.foldl_append, List.foldl_append]
    rfl

/-- A block function is 32 Feistel rounds and the exchange of the halves (42_gost89.md R265). -/
theorem gostBlock_blockOf (S : SboxSet) (K : U256) (order : Nat → Nat) (p : Word × Word) :
    gostBlock S K order (blockOf p) = blockOf (((List.range 32).map order).foldl (feistelRound S K) p).swap := by
  obtain ⟨hn1, hn2⟩ := halves_append (length_toLE32 p.1) (length_toLE32 p.2)
  rw [gostBlock, blockOf, hn1, hn2, le32_toLE32, le32_toLE32, foldl_roundPair]
  rfl

/-- Settles O39: the 16 round pairs are 32 Feistel rounds, and the key orders are the two lists. -/
theorem gostBlockKeyOrder : Obligations.GostBlockKeyOrder :=
  fun S K n1 n2 => ⟨⟨_, rfl, gostBlock_blockOf S K encOrder (n1, n2)⟩, ⟨_, rfl, gostBlock_blockOf S K decOrder (n1, n2)⟩⟩

/-! ## Decryption -/

/-- A round on the exchanged halves undoes the round (42_gost89.md R267). -/
theorem feistelRound_swap (S : SboxSet) (K : U256) (p : Word × Word) (j : Nat) :
    feistelRound S K (feistelRound S K p j).swap j = p.swap := by
  simp [feistelRound, Prod.swap]

/-- Rounds in reverse order on the exchanged halves undo the rounds (42_gost89.md R267). -/
theorem foldl_feistelRound_reverse (S : SboxSet) (K : U256) (keys : List Nat) (p : Word × Word) :
    keys.reverse.foldl (feistelRound S K) (keys.foldl (feistelRound S K) p).swap = p.swap := by
  induction keys generalizing p with
  | nil => rfl
  | cons j keys ih =>
    rw [List.foldl_cons, List.reverse_cons, List.foldl_append, ih]
    exact feistelRound_swap S K p j

/-- A block function undoes the one with the reverse key order (42_gost89.md R267). -/
theorem gostBlock_reverse (S : SboxSet) (K : U256) {order order' : Nat → Nat} {b : Bytes}
    (hrev : (List.range 32).map order' = ((List.range 32).map order).reverse) (hb : b.length = 8) :
    gostBlock S K order' (gostBlock S K order b) = b := by
  obtain ⟨p, rfl⟩ := exists_blockOf hb
  rw [gostBlock_blockOf, gostBlock_blockOf, hrev, foldl_feistelRound_reverse, Prod.swap_swap]

/-- Decryption undoes encryption (42_gost89.md R267). -/
theorem gostDecrypt_gostEncrypt (S : SboxSet) (K : U256) {b : Bytes} (hb : b.length = 8) :
    gostDecrypt S K (gostEncrypt S K b) = b := gostBlock_reverse S K (by decide) hb

/-- Encryption undoes decryption (42_gost89.md R267). -/
theorem gostEncrypt_gostDecrypt (S : SboxSet) (K : U256) {b : Bytes} (hb : b.length = 8) :
    gostEncrypt S K (gostDecrypt S K b) = b := gostBlock_reverse S K (by decide) hb

end Sys2Proof.Machine
end


section
/-! PROOF. The gamma transform by its keystream bytes: what it writes, that it is its own inverse, and how it continues
(42_gost89.md R268-R270). -/

namespace Sys2Proof.Machine

/-! ## The advance -/

/-- The end-around addition of GC2 as a number (42_gost89.md R268). -/
theorem toNat_advanceHigh (hi : Word) :
    (advanceHigh hi).toNat =
      if hi.toNat + 0x01010104 < 2 ^ 32 then hi.toNat + 0x01010104 else hi.toNat + 0x01010104 - 2 ^ 32 + 1 := by
  have hlt := hi.isLt
  have hconst : gammaC2.toNat = 0x01010104 := rfl
  rw [advanceHigh, hconst]
  split <;> rw [BitVec.toNat_ofNat] <;> omega

/-- Settles O42: the halves of the block are advanced apart, the high one by the end-around addition. -/
theorem gammaAdvances : Obligations.GammaAdvances := by
  intro lo hi
  obtain ⟨hlo, hhi⟩ := halves_append (length_toLE32 lo) (length_toLE32 hi)
  refine ⟨advanceHigh hi, ?_, toNat_advanceHigh hi⟩
  rw [gammaAdvance, hlo, hhi, le32_toLE32, le32_toLE32]
  rfl

/-! ## The keystream -/

/-- The block the advances start from: `gamma_0`, encrypted first when FIRST = 1 (42_gost89.md R269). -/
def gammaStart (S : SboxSet) (K : U256) (g : Bytes) (first : Bool) : Bytes := if first then gostEncrypt S K g else g

/-- Byte i of the keystream from a start block: byte i mod 8 of the encryption of the (i/8 + 1)-th advance
(42_gost89.md R269). -/
def keystreamByte (S : SboxSet) (K : U256) (start : Bytes) (i : Nat) : Byte :=
  (gostEncrypt S K (gammaAdvance^[i / 8 + 1] start)).getD (i % 8) 0

/-- After c chunks the keystream goes on from the c-th advance (42_gost89.md R270). -/
theorem keystreamByte_add (S : SboxSet) (K : U256) (start : Bytes) (c i : Nat) :
    keystreamByte S K start (8 * c + i) = keystreamByte S K (gammaAdvance^[c] start) i := by
  rw [keystreamByte, keystreamByte, ← Function.iterate_add_apply, show (8 * c + i) / 8 + 1 = i / 8 + 1 + c by omega,
    show (8 * c + i) % 8 = i % 8 by omega]

/-- The chunks leave the last advance (42_gost89.md R269). -/
theorem gammaChunks_block (S : SboxSet) (K : U256) (c : Nat) (g data : Bytes) :
    (gammaChunks S K c g data).2 = gammaAdvance^[c] g := by
  induction c generalizing g data with
  | zero => rfl
  | succ c ih => exact ih (gammaAdvance g) (data.drop 8)

/-- Each byte of the chunks is a data byte XOR its keystream byte (42_gost89.md R269). -/
theorem getElem?_gammaChunks (S : SboxSet) (K : U256) {c i : Nat} (g data : Bytes) (hi : i < 8 * c) :
    (gammaChunks S K c g data).1[i]? = data[i]?.map (· ^^^ keystreamByte S K g i) := by
  induction c generalizing g data i with
  | zero => omega
  | succ c ih =>
    by_cases hdata : i < data.length
    · have hchunk : (xorBytes (data.take 8) (gostEncrypt S K (gammaAdvance g))).length = min 8 data.length := by simp
      rw [gammaChunks, List.getElem?_append, hchunk]
      by_cases h8 : i < 8
      · rw [if_pos (by omega), getElem?_xorBytes (by simp), List.getElem?_take_of_lt h8, keystreamByte,
          Nat.div_eq_of_lt h8, Nat.mod_eq_of_lt h8]
        rfl
      · obtain ⟨j, rfl⟩ : ∃ j, i = 8 * 1 + j := ⟨i - 8, by omega⟩
        rw [if_neg (by omega), show 8 * 1 + j - min 8 data.length = j by omega, ih _ _ (by omega), List.getElem?_drop,
          keystreamByte_add]
        rfl
    · rw [List.getElem?_eq_none, List.getElem?_eq_none (by omega), Option.map_none]
      rw [length_gammaChunks]
      omega

section

variable (S : SboxSet) (K : U256) (g data : Bytes) (first : Bool)

/-- Each byte of the gamma transform's output (42_gost89.md R269). -/
theorem getElem?_gammaTransform (i : Nat) :
    (gammaTransform S K g data first).1[i]? = data[i]?.map (· ^^^ keystreamByte S K (gammaStart S K g first) i) := by
  by_cases hi : i < data.length
  · exact getElem?_gammaChunks S K _ data (by omega)
  · rw [List.getElem?_eq_none (by simpa using hi), List.getElem?_eq_none (by omega), Option.map_none]

/-- The gamma transform's output by its bytes (42_gost89.md R269). -/
theorem gammaTransform_bytes :
    (gammaTransform S K g data first).1 =
      (List.range data.length).map fun i => data.getD i 0 ^^^ keystreamByte S K (gammaStart S K g first) i := by
  apply List.ext_getElem?
  intro i
  rw [getElem?_gammaTransform]
  by_cases hi : i < data.length <;> simp [hi]

/-- The block the gamma transform leaves (42_gost89.md R269). -/
theorem gammaTransform_block :
    (gammaTransform S K g data first).2 = gammaAdvance^[(data.length + 7) / 8] (gammaStart S K g first) :=
  gammaChunks_block S K _ _ _

/-- The gamma transform is its own inverse (42_gost89.md R269). -/
theorem gammaTransform_involutive :
    (gammaTransform S K g (gammaTransform S K g data first).1 first).1 = data := by
  apply List.ext_getElem?
  intro i
  rw [getElem?_gammaTransform, getElem?_gammaTransform, Option.map_map]
  simp [Function.comp_def]

end

/-- The gamma transform of a message goes on after whole chunks from the block they leave (42_gost89.md R270). -/
theorem gammaTransform_append (S : SboxSet) (K : U256) (g : Bytes) {d1 : Bytes} (d2 : Bytes) (first : Bool)
    (h8 : d1.length % 8 = 0) {g1 : Bytes} (hg1 : (gammaTransform S K g d1 first).2 = g1) :
    gammaTransform S K g (d1 ++ d2) first =
      ((gammaTransform S K g d1 first).1 ++ (gammaTransform S K g1 d2 false).1, (gammaTransform S K g1 d2 false).2) := by
  obtain ⟨c, hc⟩ : ∃ c, d1.length = 8 * c := ⟨d1.length / 8, by omega⟩
  have hstart : gammaStart S K g1 false = gammaAdvance^[c] (gammaStart S K g first) := by
    rw [← hg1, gammaTransform_block, show (d1.length + 7) / 8 = c by omega]
    rfl
  refine Prod.ext (List.ext_getElem? fun i => ?_) ?_
  · rw [getElem?_gammaTransform, List.getElem?_append, List.getElem?_append, length_gammaTransform]
    by_cases hi : i < d1.length
    · rw [if_pos hi, if_pos hi, getElem?_gammaTransform]
    · obtain ⟨j, rfl⟩ : ∃ j, i = 8 * c + j := ⟨i - 8 * c, by omega⟩
      rw [if_neg hi, if_neg hi, getElem?_gammaTransform, hstart, keystreamByte_add, hc, Nat.add_sub_cancel_left]
  · rw [gammaTransform_block, gammaTransform_block, hstart, ← Function.iterate_add_apply, List.length_append,
      show (d1.length + d2.length + 7) / 8 = (d2.length + 7) / 8 + c by omega]

/-- Settles O44: a second XOR with the same keystream gives the data back, and whole chunks use up whole keystream blocks. -/
theorem gammaTransformLaws : Obligations.GammaTransformLaws := fun S K g d1 d2 first =>
  ⟨gammaTransform_involutive S K g d1 first, fun h8 => gammaTransform_append S K g d2 first h8 rfl⟩

end Sys2Proof.Machine
end


section
/-! PROOF. The cipher commands: the key and the S-box set they load, ECB block by block, and the gamma
(42_gost89.md R262, R263, R267, R271-R275). -/

namespace Sys2Proof.Machine

/-! ## G_KEYLOAD and G_SBOXDEF -/

/-- Word i of the subkeys is LE32 of the key's bytes 4i..4i+3 (42_gost89.md R263). -/
theorem wordOf_keySchedule (key : Bytes) {i : Nat} (hi : i < 8) :
    wordOf (keySchedule key) i = le32 (slice key (4 * i) (4 * i + 4)) := by
  rw [keySchedule, wordOf_packWords _ (by simpa using hi) (by omega)]
  simp

/-- The word at four bytes of DMEM (20_memory.md R101, R105). -/
theorem le32_regionBytes {s : State} {a : Nat} {b0 b1 b2 b3 : Byte} (h0 : s.dmem.byteAt a = some b0)
    (h1 : s.dmem.byteAt (a + 1) = some b1) (h2 : s.dmem.byteAt (a + 2) = some b2) (h3 : s.dmem.byteAt (a + 3) = some b3) :
    le32 (regionBytes s a 4) = b3 ++ b2 ++ b1 ++ b0 := by
  have hbytes : regionBytes s a 4 = [b0, b1, b2, b3] := by simp [regionBytes, List.range_succ, h0, h1, h2, h3]
  rw [hbytes, le32_four]

theorem exec_gKeyload_addressRange {s : State} (h : 4096 < s.srcOff + 32) : exec .gKeyload s = .next (failed s 6) :=
  exec_of_raise (e := .addressRange) (by
    rw [effectOf, gKeyloadEffect, readFixed32, if_neg (by rw [inRange_iff]; exact not_le.2 h)])

theorem exec_gKeyload_of_readable {s : State} (h : s.srcOff + 32 ≤ 4096) (hread : Readable s s.srcOff 32) :
    exec .gKeyload s = .next (completed
      { s with cipher := { s.cipher with gkey := keySchedule (regionBytes s s.srcOff 32) } }) :=
  exec_of_ok (by rw [effectOf, gKeyloadEffect, readFixed32, if_pos (inRange_of_le h), readInput_of_read hread.read])

/-- Settles O36: GKEY becomes the key schedule of the bytes at SRC, word by word. -/
theorem keyloadLoadsWords : Obligations.KeyloadLoadsWords := by
  refine fun s => ⟨exec_gKeyload_addressRange, fun h hread => ⟨_, exec_gKeyload_of_readable h hread, ?_⟩⟩
  intro i hi b0 b1 b2 b3 h0 h1 h2 h3
  rw [wordOf_keySchedule _ hi, slice_regionBytes s _ (by omega), Nat.add_sub_cancel_left]
  exact le32_regionBytes h0 h1 h2 h3

/-- The words of the default set hold the rows of R262, entry i of S_j in bits 4i+3:4i of its two words
(42_gost89.md R262, 10_state.md R44). -/
theorem sboxEntry_defaultSbox :
    ∀ j < 8, ∀ i < 16, sboxEntry defaultSbox j i = (defaultRows.getD j []).getD i 0 := by decide +kernel

/-- Settles O37: G_SBOXDEF writes the default set, which is the table of R262. -/
theorem sboxdefLoadsDefault : Obligations.SboxdefLoadsDefault :=
  fun _ => ⟨defaultSbox, exec_of_ok rfl, sboxEntry_defaultSbox⟩

/-! ## The ECB commands -/

/-- Two regions of which one leaves DMEM do not pass their check (20_memory.md R106). -/
theorem not_inRange_and {a b n : Nat} (h : 4096 < a + n ∨ 4096 < b + n) : (!(inRange a n && inRange b n)) = true := by
  simpa [Config.dmemSize, imp_iff_not_or] using h

/-- Two regions inside DMEM pass their check (20_memory.md R106). -/
theorem inRange_and {a b n : Nat} (ha : a + n ≤ 4096) (hb : b + n ≤ 4096) : ¬(!(inRange a n && inRange b n)) = true := by
  simp [inRange_of_le ha, inRange_of_le hb]

section

variable {s : State} {block : Bytes → Bytes}

theorem ecbEffect_bufferShape (h8 : s.lenBytes % 8 ≠ 0) : ecbEffect block s = .raise .bufferShape := if_pos h8

theorem ecbEffect_addressRange (h8 : s.lenBytes % 8 = 0)
    (h : 4096 < s.srcOff + s.lenBytes ∨ 4096 < s.dstOff + s.lenBytes) : ecbEffect block s = .raise .addressRange := by
  rw [ecbEffect, if_neg (not_not.2 h8), if_pos (not_inRange_and h)]

theorem ecbEffect_in_range (h8 : s.lenBytes % 8 = 0) (hsrc : s.srcOff + s.lenBytes ≤ 4096)
    (hdst : s.dstOff + s.lenBytes ≤ 4096) :
    ecbEffect block s = readInput s s.srcOff s.lenBytes fun input =>
      .ok (s.writeOutput ((blocks8 (s.lenBytes / 8) input).flatMap block)) :=
  (if_neg (not_not.2 h8)).trans (if_neg (inRange_and hsrc hdst))

/-- The ECB output of a region, block by block (42_gost89.md R273). -/
theorem flatMap_blocks8_regionBytes (off : Nat) {n : Nat} (h8 : n % 8 = 0) :
    (blocks8 (n / 8) (regionBytes s off n)).flatMap block =
      (List.range (n / 8)).flatMap fun c => block (regionBytes s (off + 8 * c) 8) := by
  obtain ⟨k, rfl⟩ := Nat.dvd_of_mod_eq_zero h8
  rw [Nat.mul_div_cancel_left k (by norm_num), blocks8_regionBytes, List.flatMap_map]

end

section

variable {s : State} {i : Instr} {block : Bytes → Bytes} (hi : effectOf i s = ecbEffect block s)

include hi

/-- An ECB command on regions inside DMEM, given the input and its blocks' images (42_gost89.md R273, R274). -/
theorem exec_ecb_of_read (h8 : s.lenBytes % 8 = 0) (hsrc : s.srcOff + s.lenBytes ≤ 4096)
    (hdst : s.dstOff + s.lenBytes ≤ 4096) {input out : Bytes} (hread : s.dmem.read s.srcOff s.lenBytes = .ok input)
    (hout : (blocks8 (s.lenBytes / 8) input).flatMap block = out) : exec i s = .next (completed (s.writeOutput out)) :=
  exec_of_ok (by rw [hi, ecbEffect_in_range h8 hsrc hdst, readInput_of_read hread, hout])

/-- Everything an ECB command on regions inside DMEM can leave (42_gost89.md R273, R274). -/
theorem exec_ecb_next (h8 : s.lenBytes % 8 = 0) (hsrc : s.srcOff + s.lenBytes ≤ 4096)
    (hdst : s.dstOff + s.lenBytes ≤ 4096) {t : State} (h : exec i s = .next t) :
    ∃ input, s.dmem.read s.srcOff s.lenBytes = .ok input ∧
      t = completed (s.writeOutput ((blocks8 (s.lenBytes / 8) input).flatMap block)) := by
  cases hread : s.dmem.read s.srcOff s.lenBytes with
  | ok input =>
    rw [exec_ecb_of_read hi h8 hsrc hdst hread rfl] at h
    cases h
    exact ⟨input, rfl, rfl⟩
  | error a =>
    rw [exec_fault (by rw [hi, ecbEffect_in_range h8 hsrc hdst, readInput, hread])] at h
    cases h

/-- What an ECB command does, for its block function: BufferShape, then AddressRange, then the blocks
(42_gost89.md R273, R274). -/
theorem exec_ecb (hlen : ∀ b, (block b).length = 8) :
    (s.lenBytes % 8 ≠ 0 → exec i s = .next (failed s 2)) ∧
    (s.lenBytes % 8 = 0 → 4096 < s.srcOff + s.lenBytes ∨ 4096 < s.dstOff + s.lenBytes →
      exec i s = .next (failed s 6)) ∧
    (s.lenBytes % 8 = 0 → s.srcOff + s.lenBytes ≤ 4096 → s.dstOff + s.lenBytes ≤ 4096 →
      Readable s s.srcOff s.lenBytes →
      ∃ t, exec i s = .next t ∧
        StoredFrom (completed { s with io := { s.io with outlen := s.io.len } }) t s.dstOff
          ((List.range (s.lenBytes / 8)).flatMap fun c => block (regionBytes s (s.srcOff + 8 * c) 8))) := by
  refine ⟨fun h8 => exec_of_raise (e := .bufferShape) (hi.trans (ecbEffect_bufferShape h8)),
    fun h8 h => exec_of_raise (e := .addressRange) (hi.trans (ecbEffect_addressRange h8 h)),
    fun h8 hsrc hdst hread => ⟨_, exec_ecb_of_read hi h8 hsrc hdst hread.read rfl, ?_⟩⟩
  rw [writeOutput_of_length (length_ecb hlen h8 _), flatMap_blocks8_regionBytes _ h8]
  exact storedFrom_write _ _ _

end

/-- Settles O40: both commands are `exec_ecb` for their block functions. -/
theorem ecbCommands : Obligations.EcbCommands := by
  rintro s i f (⟨rfl, rfl⟩ | ⟨rfl, rfl⟩)
  · exact exec_ecb rfl (length_gostEncrypt _ _)
  · exact exec_ecb rfl (length_gostDecrypt _ _)

/-- A block function applied to every block is undone by its inverse applied to every block (42_gost89.md R267). -/
theorem flatMap_blocks8_inverse {f g : Bytes → Bytes} (hlen : ∀ b, (f b).length = 8)
    (hinv : ∀ b, b.length = 8 → g (f b) = b) {k : Nat} {b : Bytes} (hb : b.length = 8 * k) :
    (blocks8 k ((blocks8 k b).flatMap f)).flatMap g = b := by
  have houtput : blocks8 k ((blocks8 k b).flatMap f) = (blocks8 k b).map f := by
    have hblocks := blocks8_flatten (bs := (blocks8 k b).map f) (by simp [hlen])
    rwa [List.length_map, length_blocks8, ← List.flatMap_def] at hblocks
  calc (blocks8 k ((blocks8 k b).flatMap f)).flatMap g
      = ((blocks8 k b).map fun x => g (f x)).flatten := by rw [houtput, List.flatMap_map, List.flatMap_def]
    _ = (blocks8 k b).flatten := by
        rw [List.map_congr_left fun x hx => hinv x (length_of_mem_blocks8 hb.ge hx), List.map_id']
    _ = b := by rw [flatten_blocks8, List.take_of_length_le hb.le]

/-- The state when the host has set SRC and DST and nothing else has happened (10_state.md R38, R39). -/
def withRegions (t : State) (src dst : Word) : State := { t with io := { t.io with src := src, dst := dst } }

/-- Settles O41: the Feistel rounds in reverse order undo each block, and the two commands map blocks. -/
theorem ecbRoundTrip : Obligations.EcbRoundTrip := by
  refine ⟨fun S K b hb => ⟨gostDecrypt_gostEncrypt S K hb, gostEncrypt_gostDecrypt S K hb⟩, ?_⟩
  intro s t back hexec h8 hsrc hdst hback
  obtain ⟨input, hinput, rfl⟩ := exec_ecb_next rfl h8 hsrc hdst hexec
  have hlength : input.length = 8 * (s.lenBytes / 8) := by rw [read_length hinput]; omega
  have houtput := length_ecb (length_gostEncrypt s.cipher.sbox s.cipher.gkey) h8 input
  refine ⟨_, exec_ecb_of_read (i := .gEcbdec) (s := withRegions (completed (s.writeOutput _)) s.io.dst back) rfl
    h8 hdst hback (read_write s.dmem s.dstOff houtput)
    (flatMap_blocks8_inverse (length_gostEncrypt _ _) (fun _ => gostDecrypt_gostEncrypt _ _) hlength), fun j hj => ?_⟩
  obtain ⟨hlen, hbytes⟩ := (read_ok_iff _ _ _ _).1 hinput
  rw [hbytes j hj]
  exact byteAt_writeOutput_add _ (hlen ▸ hj)

/-! ## G_GAMMA -/

theorem exec_gGamma_addressRange {s : State} (first : Bool)
    (h : 4096 < s.srcOff + s.lenBytes ∨ 4096 < s.dstOff + s.lenBytes) :
    exec (.gGamma first) s = .next (failed s 6) :=
  exec_of_raise (e := .addressRange) (by rw [effectOf, gGammaEffect, if_pos (not_inRange_and h)])

theorem gGammaEffect_in_range {s : State} (first : Bool) (hsrc : s.srcOff + s.lenBytes ≤ 4096)
    (hdst : s.dstOff + s.lenBytes ≤ 4096) :
    gGammaEffect first s = readInput s s.srcOff s.lenBytes fun input =>
      .ok { s.writeOutput (gammaTransform s.cipher.sbox s.cipher.gkey (dwordBytes s.cipher.giv) input first).1 with
        cipher := { s.cipher with
          giv := le64 (gammaTransform s.cipher.sbox s.cipher.gkey (dwordBytes s.cipher.giv) input first).2 } } :=
  if_neg (inRange_and hsrc hdst)

/-- What G_GAMMA writes from a region whose bytes all hold a value (42_gost89.md R275). -/
theorem gGammaEffect_of_readable {s : State} (first : Bool) (hsrc : s.srcOff + s.lenBytes ≤ 4096)
    (hdst : s.dstOff + s.lenBytes ≤ 4096) (hread : Readable s s.srcOff s.lenBytes) {start : Bytes}
    (hstart : gammaStart s.cipher.sbox s.cipher.gkey (toLE64 s.cipher.giv) first = start) :
    gGammaEffect first s = .ok { s with
      io := { s.io with outlen := s.io.len }
      cipher := { s.cipher with giv := le64 (gammaAdvance^[(s.lenBytes + 7) / 8] start) }
      dmem := s.dmem.write s.dstOff ((List.range s.lenBytes).map fun i =>
        (regionBytes s s.srcOff s.lenBytes).getD i 0 ^^^ keystreamByte s.cipher.sbox s.cipher.gkey start i) } := by
  rw [gGammaEffect_in_range first hsrc hdst, readInput_of_read hread.read,
    writeOutput_of_length (by rw [length_gammaTransform, length_regionBytes]), gammaTransform_block, gammaTransform_bytes,
    length_regionBytes, dwordBytes, hstart]

/-- Settles O43: G_GAMMA is the gamma transform of the bytes at SRC from the block in GIV. -/
theorem gammaCommand : Obligations.GammaCommand :=
  fun _ first => ⟨exec_gGamma_addressRange first, fun hsrc hdst hread =>
    ⟨_, _, rfl, exec_of_ok (i := .gGamma first) (gGammaEffect_of_readable first hsrc hdst hread rfl),
      storedFrom_write _ _ _⟩⟩

end Sys2Proof.Machine
end


section
/-! PROOF. The byte functions A, P and ψ of the hash, and the step transformation with its four keys
(43_gost3411.md R301-R305). -/

namespace Sys2Proof.Machine

/-! ## Bytes of parts of strings -/

/-- A byte of a slice (00_scope.md R9). -/
theorem getD_slice (b : Bytes) {i j k : Nat} (h : k < j - i) : (slice b i j).getD k 0 = b.getD (i + k) 0 := by
  rw [slice, List.getD_eq_getElem?_getD, List.getD_eq_getElem?_getD, List.getElem?_take_of_lt h, List.getElem?_drop]

/-- A byte of an XOR of two strings of equal length (00_scope.md R9). -/
theorem getD_xorBytes {b c : Bytes} (h : b.length = c.length) (i : Nat) :
    (xorBytes b c).getD i 0 = b.getD i 0 ^^^ c.getD i 0 := by
  rw [List.getD_eq_getElem?_getD, getElem?_xorBytes h.le]
  by_cases hi : i < b.length
  · simp [hi]
  · simp [not_lt.1 hi, h ▸ not_lt.1 hi]

/-- XOR with the constants C1 and C3 changes nothing (43_gost3411.md R303). -/
theorem xorBytes_zeros {b : Bytes} {n : Nat} (h : b.length ≤ n) : xorBytes b (zeros n) = b := by
  apply List.ext_getElem?
  intro i
  rw [getElem?_xorBytes (by simpa using h)]
  rw [zeros, List.getD_eq_getElem?_getD, List.getElem?_getD_replicate_default_eq]
  simp

/-! ## The function A -/

theorem length_hashA {X : Bytes} (h : X.length = 32) : (hashA X).length = 32 := by simp [hashA, h]

/-- A moves bytes 8..31 down (43_gost3411.md R301). -/
theorem getD_hashA_low {X : Bytes} (h : X.length = 32) {i : Nat} (hi : i < 24) :
    (hashA X).getD i 0 = X.getD (i + 8) 0 := by
  rw [hashA, List.getD_append _ _ _ _ (by simp [h, hi]), getD_slice _ (by omega), Nat.add_comm]

/-- A puts X1 ⊕ X2 on top (43_gost3411.md R301). -/
theorem getD_hashA_high {X : Bytes} (h : X.length = 32) {i : Nat} (hi : i < 8) :
    (hashA X).getD (24 + i) 0 = X.getD i 0 ^^^ X.getD (8 + i) 0 := by
  have hlength : (slice X 8 32).length = 24 := by simp [h]
  rw [hashA, List.getD_append_right _ _ _ _ (by omega), hlength, Nat.add_sub_cancel_left,
    getD_xorBytes (by simp [h]), getD_slice _ (by omega), getD_slice _ (by omega), Nat.zero_add]

/-! ## The function P -/

/-- P is the transpose of the 4 × 8 matrix of bytes (43_gost3411.md R302). -/
theorem getD_hashP (X : Bytes) {i k : Nat} (hi : i < 8) (hk : k < 4) :
    (hashP X).getD (4 * i + k) 0 = X.getD (8 * k + i) 0 := by
  simp [hashP, List.getD_eq_getElem?_getD, show 4 * i + k < 32 by omega, show (4 * i + k) % 4 = k by omega,
    show (4 * i + k) / 4 = i by omega]

/-! ## The function ψ -/

/-- Byte e of word i of a string of 16-bit words (43_gost3411.md R304). -/
theorem getD_psiBytes (w : List (BitVec 16)) (i : Nat) {e : Nat} (he : e < 2) :
    (psiBytes w).getD (2 * i + e) 0 = (w.getD i 0).extractLsb' (8 * e) 8 := by
  induction w generalizing i with
  | nil => simp [psiBytes]
  | cons x w ih =>
    have hcons : psiBytes (x :: w) = x.extractLsb' 0 8 :: x.extractLsb' 8 8 :: psiBytes w := rfl
    rw [hcons]
    cases i with
    | zero => interval_cases e <;> rfl
    | succ i =>
      rw [show 2 * (i + 1) + e = 2 * i + e + 1 + 1 by omega, List.getD_cons_succ, List.getD_cons_succ,
        List.getD_cons_succ, ih]

/-- Byte e of word i of the string ψ reads is byte 2i + e of the string (43_gost3411.md R304). -/
theorem byte_psiWords (X : Bytes) {i e : Nat} (hi : i < 16) (he : e < 2) :
    ((psiWords X).getD i 0).extractLsb' (8 * e) 8 = X.getD (2 * i + e) 0 := by
  have hword : (psiWords X).getD i 0 = X.getD (2 * i + 1) 0 ++ X.getD (2 * i) 0 := by
    simp [psiWords, List.getD_eq_getElem?_getD, hi]
  rw [hword]
  interval_cases e
  · exact BitVec.extractLsb'_append_eq_right
  · exact BitVec.extractLsb'_append_eq_left

@[simp] theorem length_psiWords (X : Bytes) : (psiWords X).length = 16 := by simp [psiWords]

/-- ψ shifts the words down (43_gost3411.md R304). -/
theorem getD_psi_low (X : Bytes) {i : Nat} (hi : i < 30) : (psi X).getD i 0 = X.getD (i + 2) 0 := by
  have he : i % 2 < 2 := Nat.mod_lt _ (by norm_num)
  have hword : ((psiWords X).drop 1 ++ [psiFeedback (psiWords X)]).getD (i / 2) 0 = (psiWords X).getD (1 + i / 2) 0 := by
    rw [List.getD_append _ _ _ _ (by simp; omega), List.getD_eq_getElem?_getD, List.getElem?_drop,
      List.getD_eq_getElem?_getD]
  calc (psi X).getD i 0
    _ = (psi X).getD (2 * (i / 2) + i % 2) 0 := by rw [Nat.div_add_mod]
    _ = ((psiWords X).getD (1 + i / 2) 0).extractLsb' (8 * (i % 2)) 8 := by rw [psi, getD_psiBytes _ _ he, hword]
    _ = X.getD (2 * (1 + i / 2) + i % 2) 0 := byte_psiWords X (by omega) he
    _ = X.getD (i + 2) 0 := by rw [show 2 * (1 + i / 2) + i % 2 = i + 2 by omega]

/-- ψ puts the feedback word on top (43_gost3411.md R304). -/
theorem getD_psi_high (X : Bytes) {e : Nat} (he : e < 2) :
    (psi X).getD (30 + e) 0 =
      X.getD e 0 ^^^ X.getD (2 + e) 0 ^^^ X.getD (4 + e) 0 ^^^ X.getD (6 + e) 0 ^^^ X.getD (24 + e) 0 ^^^
        X.getD (30 + e) 0 := by
  have hword : ((psiWords X).drop 1 ++ [psiFeedback (psiWords X)]).getD 15 0 = psiFeedback (psiWords X) := by
    rw [List.getD_append_right _ _ _ _ (by simp)]
    simp
  have hbyte : ∀ i < 16, ((psiWords X).getD i 0).extractLsb' (8 * e) 8 = X.getD (2 * i + e) 0 :=
    fun i hi => byte_psiWords X hi he
  rw [psi, show 30 + e = 2 * 15 + e by rfl, getD_psiBytes _ _ he, hword, psiFeedback]
  simp only [BitVec.extractLsb'_xor]
  rw [hbyte 0, hbyte 1, hbyte 2, hbyte 3, hbyte 12, hbyte 15] <;> norm_num

/-- Settles O46: each function byte by byte. -/
theorem hashByteFunctions : Obligations.HashByteFunctions := fun X h =>
  ⟨⟨length_hashA h, fun _ => getD_hashA_low h, fun _ => getD_hashA_high h⟩,
    ⟨by simp [hashP], fun _ hi _ hk => getD_hashP X hi hk⟩,
    ⟨length_psi X, fun _ => getD_psi_low X, fun _ => getD_psi_high X⟩⟩

/-! ## The step transformation -/

/-- The bytes of C2 are those of its words (43_gost3411.md R303). -/
theorem hashC2_eq_constantC2 : hashC2 = constantC2 := by decide

/-- The keys of a step without the zero constants (43_gost3411.md R303, R305). -/
theorem stepKeys_eq {H M U3 : Bytes} (hH : H.length = 32) (hU3 : xorBytes (hashA (hashA H)) constantC2 = U3) :
    stepKeys H M =
      [hashP (xorBytes H M), hashP (xorBytes (hashA H) (hashA (hashA M))),
        hashP (xorBytes U3 (hashA (hashA (hashA (hashA M))))),
        hashP (xorBytes (hashA U3) (hashA (hashA (hashA (hashA (hashA (hashA M)))))))] := by
  have hA : (hashA H).length = 32 := length_hashA hH
  have hlength : U3.length = 32 := by
    rw [← hU3, length_xorBytes, length_hashA hA]
    rfl
  rw [stepKeys, hashC2_eq_constantC2, xorBytes_zeros hA.le, hU3, xorBytes_zeros (length_hashA hlength).le]

/-- The four slices of eight bytes (43_gost3411.md R305). -/
theorem blocks8_four (H : Bytes) : blocks8 4 H = [slice H 0 8, slice H 8 16, slice H 16 24, slice H 24 32] := by
  simp [blocks8, slice]

/-- Settles O47: the zero constants drop out of the keys, and the blocks of H are its slices. -/
theorem stepTransformation : Obligations.StepTransformation := by
  rintro S H M U2 U3 U4 V2 V3 V4 Sx hH - rfl rfl hU3 rfl rfl rfl hSx
  have hencrypt : stepEncrypt S H M = Sx := by
    rw [stepEncrypt, stepKeys_eq hH hU3.symm, blocks8_four, hSx]
    simp
  rw [hashStep, hencrypt]

end Sys2Proof.Machine
end


section
/-! PROOF. The hash context: the block buffer and the bit counter, the absorption of a byte, and the flush of the partial
block (43_gost3411.md R306, R308, R310; 10_state.md R48, R52). -/

namespace Sys2Proof.Machine

/-! ## The block buffer and the bit counter -/

/-- What the bytes of a register are after one of them is written (10_state.md R52). -/
theorem byteOf_setByte {n : Nat} (v : BitVec n) (k : Nat) (b : Byte) {j : Nat} (hj : 8 * j + 8 ≤ n) :
    byteOf (setByte v k b) j = if j = k then b else byteOf v j := by
  apply BitVec.eq_of_getLsbD_eq
  intro i hi
  rw [byteOf, BitVec.getLsbD_extractLsb', setByte, getLsbD_setField]
  by_cases hjk : j = k
  · subst hjk
    simp [hi, show 8 * j + i < n by omega]
  · rw [if_neg hjk, if_neg (by omega), byteOf, BitVec.getLsbD_extractLsb']
    simp [show 8 * j + i < n by omega]

/-- The bit counter counts eight times the value of its bits 63:3 (10_state.md R48). -/
theorem toNat_bitCount (c : HashContext) : c.bitCount.toNat = 8 * c.hlen.toNat := by
  rw [HashContext.bitCount, BitVec.toNat_append, Nat.shiftLeft_eq]
  simp [Nat.mul_comm]

/-- The counter keeps every multiple of 8 (10_state.md R48). -/
theorem bitCount_counterBits (c : HashContext) {L : BitVec 64} (h : L.toNat % 8 = 0) :
    { c with hlen := counterBits L }.bitCount = L := by
  have hlt := L.isLt
  apply BitVec.eq_of_toNat_eq
  rw [toNat_bitCount, counterBits, BitVec.extractLsb'_toNat, Nat.shiftRight_eq_div_pow]
  omega

/-- The bytes waiting in the buffer are bits 7:3 of the counter (10_state.md R48). -/
theorem buffered_eq (c : HashContext) : c.buffered = c.bitCount.toNat / 8 % 32 := by
  rw [HashContext.buffered, BitVec.extractLsb'_toNat, Nat.shiftRight_eq_div_pow]

/-! ## The block transform -/

/-- The block transform adds the block to Z modulo 2^256 (43_gost3411.md R306). -/
theorem toNat_blockTransform_hz (c : HashContext) (M : Bytes) :
    (c.blockTransform M).hz.toNat = (c.hz.toNat + leNat M) % 2 ^ 256 := by
  rw [HashContext.blockTransform, BitVec.toNat_add, le256, BitVec.toNat_ofNat, Nat.add_mod_mod]

/-- The block transform steps the chaining value (43_gost3411.md R306). -/
theorem toLE256_blockTransform_hh (c : HashContext) (M : Bytes) :
    toLE256 (c.blockTransform M).hh = hashStep c.hsbox (toLE256 c.hh) M :=
  toLE256_le256 (length_hashStep _ _ _)

/-- The register that holds the 32 bytes of a number holds the number modulo 2^256 (00_scope.md R10). -/
theorem le256_leBytes (v : Nat) : le256 (leBytes 32 v) = BitVec.ofNat 256 v := by
  apply BitVec.eq_of_toNat_eq
  rw [le256, leNat_leBytes, BitVec.toNat_ofNat, BitVec.toNat_ofNat]
  exact Nat.mod_mod v (256 ^ 32)

/-- The block transform writes the Z-sum as a byte string (43_gost3411.md R306). -/
theorem blockTransform_eq (c : HashContext) (M : Bytes) :
    c.blockTransform M =
      { c with hh := le256 (hashStep c.hsbox (toLE256 c.hh) M), hz := le256 (leBytes 32 (c.hz.toNat + leNat M)) } := by
  have hz : c.hz + le256 M = le256 (leBytes 32 (c.hz.toNat + leNat M)) := by
    rw [le256_leBytes, BitVec.ofNat_add, BitVec.ofNat_toNat, BitVec.setWidth_eq]
    rfl
  rw [HashContext.blockTransform, hz]

/-! ## Absorption -/

/-- The context when a byte is put in the buffer and counted, and no block is transformed yet (43_gost3411.md R308). -/
def HashContext.put (c : HashContext) (x : Byte) : HashContext :=
  { c with hbuf := setByte c.hbuf c.buffered x, hlen := counterBits (c.bitCount + 8) }

theorem absorb_eq_put {c : HashContext} (h : c.buffered ≠ 31) (x : Byte) : c.absorb x = c.put x := if_neg h

theorem absorb_eq_blockTransform {c : HashContext} (h : c.buffered = 31) (x : Byte) :
    c.absorb x = (c.put x).blockTransform (toLE256 (c.put x).hbuf) := if_pos h

/-- The buffer and the counter are as `put` leaves them, also when a block is transformed (43_gost3411.md R308). -/
theorem absorb_hbuf_hlen (c : HashContext) (x : Byte) :
    (c.absorb x).hbuf = (c.put x).hbuf ∧ (c.absorb x).hlen = (c.put x).hlen := by
  by_cases h : c.buffered = 31
  · rw [absorb_eq_blockTransform h, blockTransform_hbuf, blockTransform_hlen]
    exact ⟨rfl, rfl⟩
  · rw [absorb_eq_put h]
    exact ⟨rfl, rfl⟩

/-- Absorbing a byte counts eight bits modulo 2^64 (43_gost3411.md R308). -/
theorem absorb_bitCount (c : HashContext) (x : Byte) : (c.absorb x).bitCount = c.bitCount + 8 := by
  obtain ⟨-, hhlen⟩ := absorb_hbuf_hlen c x
  have hmod : (c.bitCount + 8).toNat % 8 = 0 := by
    have hcount := toNat_bitCount c
    rw [BitVec.toNat_add, show (8 : BitVec 64).toNat = 8 from rfl]
    omega
  rw [HashContext.bitCount, hhlen]
  exact bitCount_counterBits c hmod

/-- Settles O49: the byte is put in the buffer and counted, and a full block is transformed. -/
theorem absorbsOneByte : Obligations.AbsorbsOneByte := by
  intro c x n hn
  rw [← buffered_eq] at hn
  obtain ⟨hhbuf, -⟩ := absorb_hbuf_hlen c x
  obtain ⟨hhsbox, hfin⟩ := absorb_keep [x] c
  refine ⟨absorb_bitCount c x, hhsbox, hfin, fun j hj => ?_, fun h31 => ?_, fun h31 => ?_⟩
  · rw [hhbuf, hn]
    exact byteOf_setByte _ _ _ (by omega)
  · rw [absorb_eq_put (hn ▸ h31)]
    exact ⟨rfl, rfl⟩
  · rw [hhbuf, absorb_eq_blockTransform (hn ▸ h31)]
    exact ⟨toNat_blockTransform_hz _ _, toLE256_blockTransform_hh _ _⟩

/-! ## The flush and the digest -/

section

variable {c : HashContext} {n : Nat} {B H1 Z1 : Bytes} (hn : n = c.bitCount.toNat / 8 % 32)
  (hB : B = if n = 0 then toLE256 c.hbuf else (toLE256 c.hbuf).take n ++ zeros (32 - n))
  (hH1 : H1 = if n = 0 then toLE256 c.hh else hashStep c.hsbox (toLE256 c.hh) B)
  (hZ1 : Z1 = if n = 0 then toLE256 c.hz else leBytes 32 (c.hz.toNat + leNat B))

include hn hB in
theorem length_flushBlock : B.length = 32 := by
  rw [hB]
  split
  · exact length_toLE256 _
  · simp
    omega

include hH1 in
theorem length_flushChain : H1.length = 32 := by
  rw [hH1]
  split <;> simp

include hZ1 in
theorem length_flushSum : Z1.length = 32 := by
  rw [hZ1]
  split <;> simp

include hn hB hH1 hZ1 in
/-- What the flush of the partial block leaves (43_gost3411.md R306, R310). -/
theorem flush_eq : c.flush = { c with hh := le256 H1, hz := le256 Z1, hbuf := le256 B } := by
  rw [← buffered_eq] at hn
  by_cases h0 : n = 0
  · rw [if_pos h0] at hB hH1 hZ1
    rw [HashContext.flush, if_pos (hn ▸ h0), hB, hH1, hZ1, le256_toLE256, le256_toLE256, le256_toLE256]
  · rw [if_neg h0] at hB hH1 hZ1
    rw [HashContext.flush, if_neg (hn ▸ h0), ← hn, ← hB, blockTransform_eq, hH1, hZ1]

include hn hB hH1 hZ1 in
/-- The digest by the chaining value and the Z-sum the flush leaves (43_gost3411.md R310). -/
theorem digest_flush :
    c.flush.digest = hashStep c.hsbox (hashStep c.hsbox H1 (toLE64 c.bitCount ++ zeros 24)) Z1 := by
  rw [flush_eq hn hB hH1 hZ1, HashContext.digest, toLE256_le256 (length_flushChain hH1),
    toLE256_le256 (length_flushSum hZ1)]
  rfl

end

end Sys2Proof.Machine
end


section
/-! PROOF. The hash commands: H_INIT, H_STEP, H_UPDATE and the splitting of its message, and H_FINAL
(43_gost3411.md R307, R309-R312). -/

namespace Sys2Proof.Machine

/-! ## H_INIT and H_STEP -/

/-- Settles O45: HSBOX is SBOX or the default set, which is the table of R262. -/
theorem hInitStartsContext : Obligations.HInitStartsContext := by
  intro s copy
  refine ⟨if copy then s.cipher.sbox else defaultSbox, exec_of_ok rfl, fun hcopy => if_pos hcopy, fun hcopy => ?_⟩
  rw [hcopy]
  exact sboxEntry_defaultSbox

theorem readFixed32_addressRange {s : State} (h : 4096 < s.srcOff + 32) (k : Bytes → Effect) :
    readFixed32 s k = .raise .addressRange := if_neg (by rw [inRange_iff]; exact not_le.2 h)

theorem readFixed32_of_readable {s : State} (h : s.srcOff + 32 ≤ 4096) (hread : Readable s s.srcOff 32)
    (k : Bytes → Effect) : readFixed32 s k = k (regionBytes s s.srcOff 32) := by
  rw [readFixed32, if_pos (inRange_of_le h), readInput_of_read hread.read]

/-- Settles O48: H_STEP is the step transformation of HH and the bytes at SRC. -/
theorem hStepTransformsChain : Obligations.HStepTransformsChain :=
  fun _ => ⟨fun h => exec_of_raise (e := .addressRange) (readFixed32_addressRange h _),
    fun h hread => exec_of_ok (readFixed32_of_readable h hread _)⟩

/-! ## H_UPDATE -/

/-- The state when a message has been absorbed and nothing else has happened (43_gost3411.md R309). -/
def absorbed (s : State) (msg : Bytes) : State := { s with hash := msg.foldl HashContext.absorb s.hash }

theorem hUpdateEffect_in_range {s : State} (hfin : s.hash.fin = false) (hsrc : s.srcOff + s.lenBytes ≤ 4096) :
    hUpdateEffect s = readInput s s.srcOff s.lenBytes fun msg => .ok (absorbed s msg) := by
  rw [hUpdateEffect, if_neg (by simp [hfin]), if_neg (by simp [inRange_of_le hsrc])]
  rfl

/-- H_UPDATE on a region inside DMEM, given the message (43_gost3411.md R309). -/
theorem exec_hUpdate_of_read {s : State} (hfin : s.hash.fin = false) (hsrc : s.srcOff + s.lenBytes ≤ 4096) {msg : Bytes}
    (hread : s.dmem.read s.srcOff s.lenBytes = .ok msg) : exec .hUpdate s = .next (completed (absorbed s msg)) :=
  exec_of_ok (by rw [effectOf, hUpdateEffect_in_range hfin hsrc, readInput_of_read hread])

/-- Everything H_UPDATE on a region inside DMEM can leave (43_gost3411.md R309). -/
theorem exec_hUpdate_next {s t : State} (hfin : s.hash.fin = false) (hsrc : s.srcOff + s.lenBytes ≤ 4096)
    (h : exec .hUpdate s = .next t) :
    ∃ msg, s.dmem.read s.srcOff s.lenBytes = .ok msg ∧ t = completed (absorbed s msg) := by
  cases hread : s.dmem.read s.srcOff s.lenBytes with
  | ok msg =>
    rw [exec_hUpdate_of_read hfin hsrc hread] at h
    cases h
    exact ⟨msg, rfl, rfl⟩
  | error a =>
    rw [exec_fault (by rw [effectOf, hUpdateEffect_in_range hfin hsrc, readInput, hread])] at h
    cases h

/-- Settles O50: the checks in order, then the absorption of the bytes at SRC. -/
theorem hUpdateAbsorbs : Obligations.HUpdateAbsorbs :=
  fun _ => ⟨fun hfin => exec_of_raise (e := .bufferShape) (if_pos hfin),
    fun hfin hsrc => exec_of_raise (e := .addressRange) (by
      rw [effectOf, hUpdateEffect, if_neg (by simp [hfin]), if_pos (by simpa [Config.dmemSize] using hsrc)]),
    fun hfin hsrc hread => exec_hUpdate_of_read hfin hsrc hread.read⟩

/-! ## The splitting of a message -/

/-- The two parts of a region read as the two parts of its string (20_memory.md R105). -/
theorem read_parts {m : Memory} {off n1 n2 : Nat} {b : Bytes} (h : m.read off (n1 + n2) = .ok b) :
    m.read off n1 = .ok (b.take n1) ∧ m.read (off + n1) n2 = .ok (b.drop n1) := by
  obtain ⟨hlen, hbytes⟩ := (read_ok_iff _ _ _ _).1 h
  refine ⟨(read_ok_iff _ _ _ _).2 ⟨by simp [hlen], fun j hj => ?_⟩,
    (read_ok_iff _ _ _ _).2 ⟨by simp [hlen], fun j hj => ?_⟩⟩
  · rw [hbytes j (by omega), List.getElem?_take_of_lt hj]
  · rw [Nat.add_assoc, hbytes (n1 + j) (by omega), List.getElem?_drop]

/-- The state when the host has set LEN and nothing else has happened (10_state.md R40). -/
def withLen (s : State) (n : Word) : State := { s with io := { s.io with len := n } }

/-- Settles O51: the two parts of the message are absorbed one after the other. -/
theorem hUpdateSplits : Obligations.HUpdateSplits := by
  intro s t n1 n2 hfin hlen hexec hsrc
  have hlenBytes : s.lenBytes = n1.toNat + n2.toNat := hlen
  obtain ⟨msg, hread, rfl⟩ := exec_hUpdate_next hfin hsrc hexec
  rw [hlenBytes] at hsrc hread
  obtain ⟨hread1, hread2⟩ := read_parts hread
  have hsrc2 : (s.io.src + n1).toNat = s.srcOff + n1.toNat :=
    BitVec.toNat_add_of_lt (show s.srcOff + n1.toNat < 2 ^ 32 by omega)
  obtain ⟨-, hkeep⟩ := absorb_keep (msg.take n1.toNat) s.hash
  have hfirst := exec_hUpdate_of_read (s := withLen s n1) hfin (show s.srcOff + n1.toNat ≤ 4096 by omega) hread1
  have hsecond := exec_hUpdate_of_read (msg := msg.drop n1.toNat)
    (s := withLen (withRegions (completed (absorbed (withLen s n1) (msg.take n1.toNat))) (s.io.src + n1) s.io.dst) n2)
    (hkeep.trans hfin) (show (s.io.src + n1).toNat + n2.toNat ≤ 4096 by omega)
    (show s.dmem.read (s.io.src + n1).toNat n2.toNat = _ by rw [hsrc2, hread2])
  refine ⟨_, _, hfirst, hsecond, ?_⟩
  calc (msg.drop n1.toNat).foldl HashContext.absorb ((msg.take n1.toNat).foldl HashContext.absorb s.hash)
    _ = (msg.take n1.toNat ++ msg.drop n1.toNat).foldl HashContext.absorb s.hash := List.foldl_append.symm
    _ = msg.foldl HashContext.absorb s.hash := by rw [List.take_append_drop]

/-! ## H_FINAL -/

theorem hFinalEffect_in_range {s : State} (hfin : s.hash.fin = false) (hdst : s.dstOff + 32 ≤ 4096) :
    hFinalEffect s = .ok { s.writeOutput s.hash.flush.digest with
      hash := { s.hash.flush with hh := le256 s.hash.flush.digest, fin := true }
      sign := { s.sign with eH := be256 s.hash.flush.digest } } := by
  rw [hFinalEffect, if_neg (by simp [hfin]), if_neg (by simp [inRange_of_le hdst])]

/-- Settles O52: the checks in order, then the flush, the length block, the Z block and the digest's copies. -/
theorem hFinalEmitsDigest : Obligations.HFinalEmitsDigest := by
  refine fun s => ⟨fun hfin => exec_of_raise (e := .bufferShape) (if_pos hfin),
    fun hfin hdst => exec_of_raise (e := .addressRange) (by
      rw [effectOf, hFinalEffect, if_neg (by simp [hfin]), if_pos (by simpa [Config.dmemSize] using hdst)]), ?_⟩
  intro hfin hdst c B H1 Z1 digest hc hB hH1 hZ1 hdigest
  have hlength : digest.length = 32 := hdigest ▸ length_hashStep _ _ _
  have hexec := exec_of_ok (i := .hFinal) (hFinalEffect_in_range hfin hdst)
  rw [digest_flush hc hB hH1 hZ1, ← hdigest, flush_eq hc hB hH1 hZ1, State.writeOutput, hlength] at hexec
  exact ⟨_, hexec, storedFrom_write _ _ _, fun k hk => ⟨byte_be256 hlength hk, byte_le256 hlength hk,
    byte_le256 (length_flushBlock hc hB) hk, byte_le256 (length_flushSum hZ1) hk⟩⟩

end Sys2Proof.Machine
end


section
/-! PROOF. The signer: E_KEYGEN, E_SIGN and E_VERIFY (44_signer.md R341-R343). -/

namespace Sys2Proof.Machine

/-! ## Scalars and multiples of G -/

theorem scalarInRange_iff (v : U256) : scalarInRange v = true ↔ 1 ≤ v.toNat ∧ v.toNat < curveQ := decide_eq_true_iff

theorem not_scalarInRange {v : U256} (h : v.toNat < 1 ∨ curveQ ≤ v.toNat) : (!scalarInRange v) = true := by
  rw [Bool.not_eq_true', ← Bool.not_eq_true, scalarInRange_iff]
  omega

theorem scalarInRange_of_bounds {v : U256} (h1 : 1 ≤ v.toNat) (hq : v.toNat < curveQ) : ¬(!scalarInRange v) = true := by
  simp [(scalarInRange_iff v).2 ⟨h1, hq⟩]

/-- On its curve a multiple of a point is defined and is a point of that curve (41_ecpoint.md R234). -/
theorem pmul_onCubic {c : Fp} {P : Point} (k : Nat) (h : OnCubic c P) : ∃ R, pmul k P = some R ∧ OnCubic c R := by
  obtain ⟨R, hloop, -, hR⟩ := pmulLoop_doubleAndAdd (Nat.lt_log2_self (n := k)) (R := .infinity) trivial h
  exact ⟨R, by rw [pmul, reduced_eq_fieldPoint, fieldPoint_of_onCubic h, hloop], hR⟩

/-- G is a point of the signer's curve (41_ecpoint.md R230). -/
theorem onCubic_pointG : OnCubic curveB pointG :=
  ⟨by decide, by decide, by decide +kernel⟩

/-! ## E_KEYGEN -/

theorem exec_eKeygen_out_of_range {s : State} (h : s.sign.eD.toNat < 1 ∨ curveQ ≤ s.sign.eD.toNat) :
    exec .eKeygen s = .next (failed s 1) := exec_of_invalidParameter (if_pos (not_scalarInRange h))

section

variable {s : State} (h1 : 1 ≤ s.sign.eD.toNat) (hq : s.sign.eD.toNat < curveQ)

include h1 hq

theorem exec_eKeygen_affine {x y : Nat} (h : pmul s.sign.eD.toNat baseG = some (.affine x y)) :
    exec .eKeygen s = .next (completed
      { s with sign := { s.sign with eQX := BitVec.ofNat 256 x, eQY := BitVec.ofNat 256 y } }) :=
  exec_of_ok (by rw [effectOf, eKeygenEffect, if_neg (scalarInRange_of_bounds h1 hq), h])

theorem exec_eKeygen_infinity (h : pmul s.sign.eD.toNat baseG = some .infinity) :
    exec .eKeygen s = .next (failed s 1) :=
  exec_of_invalidParameter (by rw [effectOf, eKeygenEffect, if_neg (scalarInRange_of_bounds h1 hq), h])

end

/-- Settles O32: the range check, then d·G, which is always defined, in its two forms. -/
theorem keygenMultipliesBase : Obligations.KeygenMultipliesBase := by
  refine fun s => ⟨exec_eKeygen_out_of_range, fun h1 hq => ⟨fun x y => exec_eKeygen_affine h1 hq, ?_⟩⟩
  obtain ⟨Q, hQ, -⟩ := pmul_spec s.sign.eD.toNat pointG
  exact ⟨Q, hQ, fun hinf => exec_eKeygen_infinity h1 hq (hinf ▸ hQ)⟩

/-! ## E_SIGN -/

/-- The signature in natural numbers: no term of it is negative (44_signer.md R342). -/
theorem signature_eq (h d k cx : Nat) :
    signature h d k cx = (cx % curveQ, (cx % curveQ * d + k * (h % curveQ)) % curveQ) := by
  simp only [signature, smod_natCast]
  exact congrArg (Prod.mk _) (mod_cast smod_natCast _ _)

theorem exec_eSign_out_of_range {s : State} (h : s.sign.eK.toNat < 1 ∨ curveQ ≤ s.sign.eK.toNat) :
    exec .eSign s = .next (failed s 1) := exec_of_invalidParameter (if_pos (not_scalarInRange h))

section

variable {s : State} (h1 : 1 ≤ s.sign.eK.toNat) (hq : s.sign.eK.toNat < curveQ)

include h1 hq

theorem exec_eSign_affine {x y : Nat} (h : pmul s.sign.eK.toNat baseG = some (.affine x y)) :
    exec .eSign s = .next (completed { s with sign := { s.sign with
      eR := BitVec.ofNat 256 (x % curveQ)
      eS := BitVec.ofNat 256
        ((x % curveQ * s.sign.eD.toNat + s.sign.eK.toNat * (s.sign.eH.toNat % curveQ)) % curveQ) } }) :=
  exec_of_ok (by
    rw [effectOf, eSignEffect, if_neg (scalarInRange_of_bounds h1 hq), h]
    dsimp only
    rw [signature_eq])

theorem exec_eSign_infinity (h : pmul s.sign.eK.toNat baseG = some .infinity) :
    exec .eSign s = .next (failed s 1) :=
  exec_of_invalidParameter (by rw [effectOf, eSignEffect, if_neg (scalarInRange_of_bounds h1 hq), h])

end

/-- Settles O33: the range check, then C = k·G, which is always defined, in its two forms. -/
theorem signComputesSignature : Obligations.SignComputesSignature := by
  refine fun s => ⟨exec_eSign_out_of_range, fun h1 hq => ⟨fun x y => exec_eSign_affine h1 hq, ?_⟩⟩
  obtain ⟨C, hC, -⟩ := pmul_spec s.sign.eK.toNat pointG
  exact ⟨C, hC, fun hinf => exec_eSign_infinity h1 hq (hinf ▸ hC)⟩

/-! ## E_VERIFY: the checks -/

theorem onCurve_iff (x y : Nat) :
    onCurve x y = true ↔ (y : Int) ^ 2 ≡ (x : Int) ^ 3 + 7 * x + curveB [ZMOD curveP] := by
  have hzero (z : Int) : smod z curveP = 0 ↔ z ≡ 0 [ZMOD curveP] := by
    refine ⟨fun h => ?_, fun h => smod_unique curveP_prime.pos h⟩
    obtain ⟨-, hmod⟩ := smod_spec z curveP_prime.pos
    rwa [h] at hmod
  rw [onCurve, decide_eq_true_iff, hzero, Int.modEq_zero_iff_dvd, ← Int.modEq_iff_dvd]
  exact Int.modEq_comm

/-- The operands pass every check of E_VERIFY (44_signer.md R343). -/
structure PassesChecks (s : State) : Prop where
  one_le_sg : 1 ≤ s.sign.eS.toNat
  sg_lt : s.sign.eS.toNat < curveQ
  one_le_r : 1 ≤ s.sign.eR.toNat
  r_lt : s.sign.eR.toNat < curveQ
  qx_lt : s.sign.eQX.toNat < curveP
  qy_lt : s.sign.eQY.toNat < curveP
  on_curve : (s.sign.eQY.toNat : Int) ^ 2 ≡ (s.sign.eQX.toNat : Int) ^ 3 + 7 * s.sign.eQX.toNat + curveB [ZMOD curveP]
  gcd_h : Nat.gcd s.sign.eH.toNat curveQ = 1

/-- Any failed check raises InvalidParameter, so their order cannot be seen (44_signer.md R343). -/
theorem exec_eVerify_of_not_passes {s : State} (h : ¬PassesChecks s) : exec .eVerify s = .next (failed s 1) := by
  refine exec_of_invalidParameter ?_
  rw [effectOf, eVerifyEffect]
  split_ifs with hscalars hcoords hcurve
  · rfl
  · rfl
  · rfl
  · simp only [Bool.not_eq_true', Bool.not_eq_false, Bool.and_eq_true, scalarInRange_iff] at hscalars
    obtain ⟨⟨hs1, hsq⟩, hr1, hrq⟩ := hscalars
    obtain ⟨hx, hy⟩ := not_or.1 hcoords
    have hcurve := (onCurve_iff _ _).1 (by simpa using hcurve)
    rw [modinv_none (a := s.sign.eH.toNat) fun hgcd => h ⟨hs1, hsq, hr1, hrq, not_le.1 hx, not_le.1 hy, hcurve, hgcd⟩]

/-! ## E_VERIFY: the verdict -/

/-- What E_VERIFY does once it has C (44_signer.md R343). -/
def verdict (s : State) : Point → Effect
  | .infinity => .raise .verifyFailed
  | .affine x _ =>
    if x % curveQ = s.sign.eR.toNat then .ok { s with ctl := { s.ctl with vok := true } } else .raise .verifyFailed

theorem eVerifyEffect_of_passes {s : State} {v : Nat} {C : Point} (h : PassesChecks s)
    (hv : modinv s.sign.eH.toNat curveQ = some v)
    (hC : verifyPoint v s.sign.eR.toNat s.sign.eS.toNat s.sign.eQX.toNat s.sign.eQY.toNat = some C) :
    eVerifyEffect s = verdict s C := by
  have hr := (scalarInRange_iff _).2 ⟨h.one_le_r, h.r_lt⟩
  have hsg := (scalarInRange_iff _).2 ⟨h.one_le_sg, h.sg_lt⟩
  have hcoords := not_or.2 ⟨not_le.2 h.qx_lt, not_le.2 h.qy_lt⟩
  rw [eVerifyEffect, if_neg (by simp [hr, hsg]), if_neg hcoords, if_neg (by simp [(onCurve_iff _ _).2 h.on_curve]), hv]
  dsimp only
  rw [hC]
  cases C with
  | infinity => rfl
  | affine x y => rw [verdict, ← smod_natCast]

/-! ## E_VERIFY: the point C -/

theorem mul_mod_modEq (a : Int) (v : Nat) : a * (v % curveQ : Nat) ≡ a * v [ZMOD curveQ] :=
  (Int.natCast_modEq_iff.2 (Nat.mod_modEq v curveQ)).mul_left a

/-- The scalars of R343 are determined by their congruences, whichever inverse v of h they are calculated with. -/
theorem verifyPoint_eq {v z1 z2 r sg qx qy : Nat} {C1 C2 : Point} (hz1 : z1 < curveQ)
    (h1 : (z1 : Int) ≡ sg * v [ZMOD curveQ]) (hz2 : z2 < curveQ) (h2 : (z2 : Int) ≡ -r * v [ZMOD curveQ])
    (hC1 : pmul z1 pointG = some C1) (hC2 : pmul z2 (.affine qx qy) = some C2) :
    verifyPoint (v % curveQ) r sg qx qy = padd C1 C2 := by
  rw [verifyPoint, smod_unique hz1 ((mul_mod_modEq sg v).trans h1.symm),
    smod_unique hz2 ((mul_mod_modEq (-r) v).trans h2.symm), show pmul z1 baseG = some C1 from hC1, hC2]

/-- Any inverse of h modulo q, reduced, is the one the machine calculates with (44_signer.md R343). -/
theorem modinv_of_inverse {h v : Nat} (hgcd : Nat.gcd h curveQ = 1) (hv : (h : Int) * v ≡ 1 [ZMOD curveQ]) :
    modinv h curveQ = some (v % curveQ) :=
  modinv_unique hgcd (Nat.mod_lt v curveQ_prime.pos) ((mul_mod_modEq h v).trans hv)

/-- E_VERIFY past its checks gives the verdict on the C of R343. -/
theorem effectOf_eVerify {s : State} {v z1 z2 : Nat} {C1 C2 C : Point} (h : PassesChecks s)
    (hv : (s.sign.eH.toNat : Int) * v ≡ 1 [ZMOD curveQ])
    (hz1 : z1 < curveQ) (h1 : (z1 : Int) ≡ s.sign.eS.toNat * v [ZMOD curveQ])
    (hz2 : z2 < curveQ) (h2 : (z2 : Int) ≡ -s.sign.eR.toNat * v [ZMOD curveQ])
    (hC1 : pmul z1 pointG = some C1) (hC2 : pmul z2 (.affine s.sign.eQX.toNat s.sign.eQY.toNat) = some C2)
    (hC : padd C1 C2 = some C) : effectOf .eVerify s = verdict s C :=
  eVerifyEffect_of_passes h (modinv_of_inverse h.gcd_h hv) ((verifyPoint_eq hz1 h1 hz2 h2 hC1 hC2).trans hC)

/-- A public key that passes the checks is a point of the signer's curve. -/
theorem PassesChecks.onCubic {s : State} (h : PassesChecks s) :
    OnCubic curveB (.affine s.sign.eQX.toNat s.sign.eQY.toNat) :=
  ⟨h.qx_lt, h.qy_lt, mod_cast (ZMod.intCast_eq_intCast_iff _ _ _).2 h.on_curve⟩

/-- G and Q are on one curve, so every combination z1·G + z2·Q is defined (44_signer.md R343). -/
theorem PassesChecks.exists_combination {s : State} (h : PassesChecks s) (z1 z2 : Nat) :
    ∃ C1 C2 C, pmul z1 pointG = some C1 ∧ pmul z2 (.affine s.sign.eQX.toNat s.sign.eQY.toNat) = some C2 ∧
      padd C1 C2 = some C := by
  obtain ⟨C1, hC1, hon1⟩ := pmul_onCubic z1 onCubic_pointG
  obtain ⟨C2, hC2, hon2⟩ := pmul_onCubic z2 h.onCubic
  obtain ⟨C, hC, -⟩ := padd_onCubic hon1 hon2
  exact ⟨C1, C2, C, hC1, hC2, hC⟩

/-- Settles O34: the failed checks, then the existence of C, then the verdict on it. -/
theorem verifyChecksSignature : Obligations.VerifyChecksSignature := by
  rintro s _ _ _ _ _ rfl rfl rfl rfl rfl
  refine ⟨fun hbad => exec_eVerify_of_not_passes fun h => ?_, fun hbad => exec_eVerify_of_not_passes fun h => ?_,
    fun hbad => exec_eVerify_of_not_passes fun h => hbad h.on_curve,
    fun hbad => exec_eVerify_of_not_passes fun h => hbad h.gcd_h, fun hs1 hsq hr1 hrq hx hy hcurve hgcd => ?_⟩
  · obtain ⟨hs1, hsq, hr1, hrq, -⟩ := h
    omega
  · obtain ⟨-, -, -, -, hx, hy, -⟩ := h
    omega
  have hpass : PassesChecks s := ⟨hs1, hsq, hr1, hrq, hx, hy, hcurve, hgcd⟩
  constructor
  · obtain ⟨v, -, -, hv⟩ := modinv_some curveQ_prime.pos (a := s.sign.eH.toNat) hgcd
    obtain ⟨hz1, h1⟩ := smod_spec ((s.sign.eS.toNat : Int) * v) curveQ_prime.pos
    obtain ⟨hz2, h2⟩ := smod_spec (-(s.sign.eR.toNat : Int) * v) curveQ_prime.pos
    obtain ⟨C1, C2, C, hC⟩ := hpass.exists_combination _ _
    exact ⟨v, _, _, C1, C2, C, hv, hz1, h1.symm, hz2, h2.symm, hC⟩
  · intro v z1 z2 C1 C2 C hv hz1 h1 hz2 h2 hC1 hC2 hC
    have heffect := effectOf_eVerify hpass hv hz1 h1 hz2 h2 hC1 hC2 hC
    refine ⟨?_, ?_, ?_⟩
    · rintro rfl
      exact exec_of_raise (e := .verifyFailed) heffect
    · rintro x y rfl hne
      exact exec_of_raise (e := .verifyFailed) (heffect.trans (if_neg hne))
    · rintro x y rfl heq
      exact exec_of_ok (heffect.trans (if_pos heq))

end Sys2Proof.Machine
end

section
/-! PROOF. DES by its bits: the key schedule, the round function, the block, and the known answer (45_tdes.md R370-R375,
R381). -/

namespace Sys2Proof.Machine

/-! ## The key schedule -/

/-- Both halves rotated left: bit p of {C, D} comes from where `rotatedFrom` says (45_tdes.md R373). -/
theorem bitFrom1_append_rotl28 (C D : BitVec 28) {r p : Nat} (hr : r < 28) (h1 : 1 ≤ p) (h2 : p ≤ 56) :
    bitFrom1 (rotl28 C r ++ rotl28 D r) p = bitFrom1 (C ++ D) (rotatedFrom r p) := by
  rw [append_bit _ _ h1 h2, rotatedFrom]
  by_cases hp : p ≤ 28
  · rw [if_pos hp, if_pos hp, rotl28_bit _ hr h1 hp, append_bit _ _ (by omega) (by omega), if_pos (by omega)]
  · rw [if_neg hp, if_neg hp, rotl28_bit _ hr (by omega) (by omega), append_bit _ _ (by omega) (by omega),
      if_neg (by omega), Nat.sub_sub, Nat.add_sub_assoc (by norm_num)]

theorem rotatedFrom_bounds (r p : Nat) : 1 ≤ rotatedFrom r p ∧ rotatedFrom r p ≤ 56 := by
  unfold rotatedFrom
  split <;> omega

/-- Rotations add up (45_tdes.md R373). -/
theorem rotatedFrom_rotatedFrom (q r p : Nat) : rotatedFrom q (rotatedFrom r p) = rotatedFrom (q + r) p := by
  unfold rotatedFrom
  split <;> (split <;> omega)

@[simp] theorem length_desSubkeysFrom (shifts : List Nat) (C D : BitVec 28) :
    (desSubkeysFrom shifts C D).length = shifts.length := by
  induction shifts generalizing C D with
  | nil => rfl
  | cons r shifts ih => rw [desSubkeysFrom, List.length_cons, ih, List.length_cons]

theorem tablePC2_bounds : ∀ j < 48, 1 ≤ tablePC2.getD j 0 ∧ tablePC2.getD j 0 ≤ 56 := by decide

theorem tablePC1_bounds : ∀ p < 56, 1 ≤ tablePC1.getD p 0 ∧ tablePC1.getD p 0 ≤ 64 := by decide

/-- Bit j of subkey i is a bit of {C, D} before the rotations of the rounds up to i (45_tdes.md R373). -/
theorem bitFrom1_desSubkeysFrom {shifts : List Nat} (hshifts : ∀ r ∈ shifts, r < 28) (C D : BitVec 28) {i j : Nat}
    (hi : i < shifts.length) (hj : j < 48) :
    bitFrom1 ((desSubkeysFrom shifts C D).getD i 0) (j + 1) =
      bitFrom1 (C ++ D) (rotatedFrom (shifts.take (i + 1)).sum (tablePC2.getD j 0)) := by
  obtain ⟨h1, h2⟩ := tablePC2_bounds j hj
  induction shifts generalizing C D i with
  | nil => cases hi
  | cons r shifts ih =>
    obtain ⟨hr, hrest⟩ := List.forall_mem_cons.1 hshifts
    cases i with
    | zero =>
      rw [desSubkeysFrom, List.getD_cons_zero, permute_bit (n := 48) desPC2 _ rfl hj]
      exact bitFrom1_append_rotl28 C D hr h1 h2
    | succ i =>
      obtain ⟨h3, h4⟩ := rotatedFrom_bounds (shifts.take (i + 1)).sum (tablePC2.getD j 0)
      rw [desSubkeysFrom, List.getD_cons_succ, ih hrest _ _ (Nat.lt_of_succ_lt_succ hi),
        bitFrom1_append_rotl28 C D hr h3 h4, rotatedFrom_rotatedFrom, List.take_succ_cons, List.sum_cons]

@[simp] theorem length_desSubkeys (k : Bytes) : (desSubkeys k).length = 16 := length_desSubkeysFrom _ _ _

/-- Bit p of {C, D} before the rounds is the key bit PC1 names (45_tdes.md R373). -/
theorem bitFrom1_permute_desPC1 {k : Bytes} (hk : k.length = 8) {p : Nat} (h1 : 1 ≤ p) (h2 : p ≤ 56) :
    bitFrom1 (permute 56 desPC1 (be64 k)) p = desBitOf k (tablePC1.getD (p - 1) 0) := by
  obtain ⟨hlow, hhigh⟩ := tablePC1_bounds (p - 1) (by omega)
  have hbit := permute_bit (n := 56) desPC1 (be64 k) rfl (show p - 1 < 56 by omega)
  rw [Nat.sub_add_cancel h1] at hbit
  rw [hbit, ← be64_bit k hk hlow hhigh]
  rfl

/-- Bit j of subkey i is a bit of the key (45_tdes.md R373). -/
theorem bitFrom1_desSubkeys {k : Bytes} (hk : k.length = 8) {i j : Nat} (hi : i < 16) (hj : j < 48) :
    bitFrom1 ((desSubkeys k).getD i 0) (j + 1) =
      desBitOf k (tablePC1.getD (rotatedFrom (tableShifts.take (i + 1)).sum (tablePC2.getD j 0) - 1) 0) := by
  obtain ⟨h1, h2⟩ := rotatedFrom_bounds (tableShifts.take (i + 1)).sum (tablePC2.getD j 0)
  rw [desSubkeys, bitFrom1_desSubkeysFrom (by decide) _ _ hi hj, BitVec.extractLsb'_append_extractLsb' (w := 28)]
  exact bitFrom1_permute_desPC1 hk h1 h2

/-! ## The round function -/

/-- The digits of a number built from its most significant hexadecimal digit on. -/
theorem digit_foldl_range {d : Nat → Nat} (hd : ∀ g, d g < 16) {n g : Nat} (hg : g < n) :
    (List.range n).foldl (fun acc j => 16 * acc + d j) 0 / 16 ^ (n - 1 - g) % 16 = d g := by
  induction n with
  | zero => cases hg
  | succ n ih =>
    rw [List.range_succ, List.foldl_append, List.foldl_cons, List.foldl_nil, Nat.add_sub_cancel]
    have := hd n
    rcases Nat.lt_succ_iff_lt_or_eq.1 hg with h | rfl
    · rw [show n - g = n - 1 - g + 1 by omega, pow_succ', ← Nat.div_div_eq_div_mul,
        show ∀ x, (16 * x + d n) / 16 = x by omega, ih h]
    · rw [Nat.sub_self, pow_zero, Nat.div_one]
      omega

/-- The place of the entry that six bits name: the row is 2·b1 + b6, the column b2 b3 b4 b5 (45_tdes.md R372). -/
def desIndex (b : Nat → Nat) : Nat := 16 * (2 * b 1 + b 6) + (8 * b 2 + 4 * b 3 + 2 * b 4 + b 5)

/-- The row and the column the model reads from a six-bit input (45_tdes.md R372). -/
theorem desIndex_eq : ∀ z : BitVec 6,
    16 * (2 * (z.getLsbD 5).toNat + (z.getLsbD 0).toNat) + (z.extractLsb' 1 4).toNat =
      desIndex fun m => (bitFrom1 z m).toNat := by decide

theorem desSboxes_lt (g i : Nat) : (desSboxes.getD g []).getD i 0 < 16 := by
  have hentries : ∀ row ∈ desSboxes, ∀ e ∈ row, e < 16 := by decide
  rw [List.getD_eq_getElem?_getD, List.getD_eq_getElem?_getD]
  by_cases hg : g < desSboxes.length
  · rw [List.getElem?_eq_getElem hg, Option.getD_some]
    by_cases hi : i < desSboxes[g].length
    · rw [List.getElem?_eq_getElem hi]
      exact hentries _ (List.getElem_mem hg) _ (List.getElem_mem hi)
    · simp [not_lt.1 hi]
  · simp [not_lt.1 hg]

/-- An S-box entry is the table's, its row and column named by the bits (45_tdes.md R372). -/
theorem toNat_desSbox (g : Nat) (z : BitVec 6) :
    (desSbox g z).toNat = (tableS.getD g []).getD (desIndex fun m => (bitFrom1 z m).toNat) 0 := by
  rw [desSbox, desIndex_eq, BitVec.toNat_ofNat, Nat.mod_eq_of_lt (desSboxes_lt _ _)]
  rfl

/-- Bit m of a group of six bits (45_tdes.md R374). -/
theorem bitFrom1_group (x : BitVec 48) {g m : Nat} (hg : g < 8) (h1 : 1 ≤ m) (h6 : m ≤ 6) :
    bitFrom1 (x.extractLsb' (42 - 6 * g) 6) m = bitFrom1 x (6 * g + m) := by
  unfold bitFrom1
  rw [BitVec.getLsbD_extractLsb', decide_eq_true (by omega), Bool.true_and]
  congr 1
  omega

theorem desIndex_group (x : BitVec 48) {g : Nat} (hg : g < 8) :
    desIndex (fun m => (bitFrom1 (x.extractLsb' (42 - 6 * g) 6) m).toNat) =
      desIndex fun m => (bitFrom1 x (6 * g + m)).toNat := by
  simp (disch := norm_num) only [desIndex, bitFrom1_group x hg]

/-- The substitution of the eight groups, before the permutation P (45_tdes.md R374). -/
def desSubstituted (x : BitVec 48) : Word :=
  BitVec.ofNat 32
    ((List.range 8).foldl (fun acc j => 16 * acc + (desSbox j (x.extractLsb' (42 - 6 * j) 6)).toNat) 0)

/-- A round expands, adds the subkey, substitutes and permutes (45_tdes.md R374). -/
theorem desRound_eq (R : Word) (K : BitVec 48) :
    desRound R K = permute 32 desP (desSubstituted (permute 48 desE R ^^^ K)) := rfl

/-- Nibble g of the substitution is the entry of S-box g + 1 for group g (45_tdes.md R374). -/
theorem nibble_desSubstituted (x : BitVec 48) {g : Nat} (hg : g < 8) :
    ((desSubstituted x).extractLsb' (28 - 4 * g) 4).toNat = (desSbox g (x.extractLsb' (42 - 6 * g) 6)).toNat := by
  have hdigit := digit_foldl_range (n := 8) (fun j => (desSbox j (x.extractLsb' (42 - 6 * j) 6)).isLt) hg
  have hpow : 2 ^ 32 = 16 ^ (8 - 1 - g) * (16 * 16 ^ g) := by
    rw [← pow_succ', ← pow_add, show 8 - 1 - g + (g + 1) = 8 by omega]
    norm_num
  rw [BitVec.extractLsb'_toNat, desSubstituted, BitVec.toNat_ofNat, Nat.shiftRight_eq_div_pow,
    show 28 - 4 * g = 4 * (8 - 1 - g) by omega, pow_mul, show 2 ^ 4 = 16 from rfl, hpow, Nat.mod_mul_right_div_self,
    Nat.mod_mul_right_mod, hdigit]

/-- The expansion with the subkey added, bit by bit (45_tdes.md R374). -/
theorem bitFrom1_expanded (R : Word) (K : BitVec 48) {j : Nat} (hj : j < 48) :
    bitFrom1 (permute 48 desE R ^^^ K) (j + 1) = (bitFrom1 R (tableE.getD j 0) ^^ bitFrom1 K (j + 1)) := by
  have hbit := permute_bit (n := 48) desE R rfl hj
  rw [bitFrom1, BitVec.getLsbD_xor]
  exact congrArg (· ^^ _) hbit

/-! ## The block -/

/-- A permuted block, bit by bit (45_tdes.md R375). -/
theorem bitFrom1_permute_desIP {x : Bytes} (hx : x.length = 8) {j : Nat} (hj : j < 64) :
    bitFrom1 (permute 64 desIP (be64 x)) (j + 1) = desBitOf x (tableIP.getD j 0) := by
  have hbounds : ∀ j < 64, 1 ≤ tableIP.getD j 0 ∧ tableIP.getD j 0 ≤ 64 := by decide
  obtain ⟨h1, h2⟩ := hbounds j hj
  rw [permute_bit (n := 64) desIP _ rfl hj, ← be64_bit x hx h1 h2]
  rfl

theorem bitFrom1_highHalf (v : DWord) {t : Nat} (h1 : 1 ≤ t) (h2 : t ≤ 32) :
    bitFrom1 (v.extractLsb' 32 32) t = bitFrom1 v t := by
  unfold bitFrom1
  rw [BitVec.getLsbD_extractLsb', decide_eq_true (by omega), Bool.true_and, show 32 + (32 - t) = 64 - t by omega]

theorem bitFrom1_lowHalf (v : DWord) {t : Nat} (h1 : 1 ≤ t) :
    bitFrom1 (v.extractLsb' 0 32) t = bitFrom1 v (32 + t) := by
  unfold bitFrom1
  rw [BitVec.getLsbD_extractLsb', decide_eq_true (by omega), Bool.true_and, show 0 + (32 - t) = 64 - (32 + t) by omega]

/-- The halves L and R the rounds start from (45_tdes.md R375). -/
def desHalves (x : Bytes) : Word × Word :=
  ((permute 64 desIP (be64 x)).extractLsb' 32 32, (permute 64 desIP (be64 x)).extractLsb' 0 32)

/-- The block the rounds' last halves give: exchanged, then the final permutation (45_tdes.md R375). -/
def desOutput (p : Word × Word) : Bytes := toBE64 (permute 64 desFP (p.2 ++ p.1))

/-- A block is permuted, goes through the rounds, and is permuted with its halves exchanged (45_tdes.md R375). -/
theorem desBlock_eq (order : List (BitVec 48)) (x : Bytes) :
    desBlock order x = desOutput (desRounds order (desHalves x)) := rfl

/-- DES on a block, bit by bit, for the subkeys in the order they are used (45_tdes.md R375). -/
theorem desBlock_bits (order : List (BitVec 48)) {x : Bytes} (hx : x.length = 8) :
    ∃ L R L' R' : Word,
      (∀ j < 32, bitFrom1 L (j + 1) = desBitOf x (tableIP.getD j 0) ∧
        bitFrom1 R (j + 1) = desBitOf x (tableIP.getD (32 + j) 0)) ∧
      order.foldl (fun p K => (p.2, p.1 ^^^ desRound p.2 K)) (L, R) = (L', R') ∧ (desBlock order x).length = 8 ∧
      ∀ j < 64, desBitOf (desBlock order x) (j + 1) = bitFrom1 (R' ++ L') (tableFP.getD j 0) := by
  refine ⟨(desHalves x).1, (desHalves x).2, (desRounds order (desHalves x)).1, (desRounds order (desHalves x)).2,
    fun j hj => ⟨?_, ?_⟩, rfl, length_desBlock _ _, fun j hj => ?_⟩
  · rw [desHalves, bitFrom1_highHalf _ (by omega) (by omega), bitFrom1_permute_desIP hx (by omega)]
  · rw [desHalves, bitFrom1_lowHalf _ (by omega), ← Nat.add_assoc, bitFrom1_permute_desIP hx (by omega)]
  · obtain ⟨-, hbits⟩ := toBE64_bits (permute 64 desFP
      ((desRounds order (desHalves x)).2 ++ (desRounds order (desHalves x)).1))
    exact (hbits j hj).trans (permute_bit (n := 64) desFP _ rfl hj)

/-- The known answer (45_tdes.md R381). -/
theorem desEncrypt_known_answer :
    desEncrypt [0x01, 0x23, 0x45, 0x67, 0x89, 0xAB, 0xCD, 0xEF] [0x4E, 0x6F, 0x77, 0x20, 0x69, 0x73, 0x20, 0x74] =
      [0x3F, 0xA4, 0x0E, 0x8A, 0x98, 0x4D, 0x48, 0x15] := by decide +kernel

/-- Settles O54: the subkeys, the round and the block are their bits. -/
theorem desByItsBits : Obligations.DesByItsBits := by
  refine ⟨fun k hk => ⟨length_desSubkeys k, fun i hi j hj => bitFrom1_desSubkeys hk hi hj⟩, fun R K => ?_, ?_,
    desEncrypt_known_answer⟩
  · refine ⟨permute 48 desE R ^^^ K, desSubstituted (permute 48 desE R ^^^ K), fun j => bitFrom1_expanded R K, ?_,
      fun j hj => (desRound_eq R K).symm ▸ permute_bit (n := 32) desP _ rfl hj⟩
    rintro g hg _ rfl
    rw [nibble_desSubstituted _ hg, toNat_desSbox, desIndex_group _ hg]
    rfl
  · rintro k x _ _ hx (⟨rfl, rfl⟩ | ⟨rfl, rfl⟩)
    · exact desBlock_bits _ hx
    · exact desBlock_bits _ hx

end Sys2Proof.Machine
end

section
/-! PROOF. DES decryption and EDE3 decryption undo encryption (45_tdes.md R375, R376). -/

namespace Sys2Proof.Machine

/-! ## The permutations IP and FP -/

/-- Values with equal bits are equal. -/
theorem eq_of_bitFrom1_eq {n : Nat} {v w : BitVec n} (h : ∀ j < n, bitFrom1 v (j + 1) = bitFrom1 w (j + 1)) :
    v = w := by
  apply BitVec.eq_of_getLsbD_eq
  intro i hi
  have hbit := h (n - 1 - i) (by omega)
  rwa [bitFrom1, bitFrom1, show n - (n - 1 - i + 1) = i by omega] at hbit

/-- Two tables of which one undoes the other, as permutations (45_tdes.md R371). -/
theorem permute_permute {n : Nat} {T U : List Nat} (hT : T.length = n) (hU : U.length = n)
    (h : ∀ j < n, 1 ≤ T.getD j 0 ∧ T.getD j 0 ≤ n ∧ U.getD (T.getD j 0 - 1) 0 = j + 1) (v : BitVec n) :
    permute n T (permute n U v) = v := by
  refine eq_of_bitFrom1_eq fun j hj => ?_
  obtain ⟨h1, h2, hinv⟩ := h j hj
  have hbit := permute_bit U v hU (show T.getD j 0 - 1 < n by omega)
  rw [Nat.sub_add_cancel h1, hinv] at hbit
  rw [permute_bit T _ hT hj, hbit]

/-- IP undoes FP (45_tdes.md R371). -/
theorem permute_desIP_desFP (v : DWord) : permute 64 desIP (permute 64 desFP v) = v :=
  permute_permute (n := 64) rfl rfl (by decide) v

/-- FP undoes IP (45_tdes.md R371). -/
theorem permute_desFP_desIP (v : DWord) : permute 64 desFP (permute 64 desIP v) = v :=
  permute_permute (n := 64) rfl rfl (by decide) v

/-- The halves of an output are the rounds' last halves exchanged (45_tdes.md R375). -/
theorem desHalves_desOutput (p : Word × Word) : desHalves (desOutput p) = p.swap := by
  rw [desHalves, desOutput, be64_toBE64, permute_desIP_desFP, BitVec.extractLsb'_append_eq_left,
    BitVec.extractLsb'_append_eq_right]
  rfl

/-- The output of a block's exchanged halves is the block (45_tdes.md R375). -/
theorem desOutput_desHalves {x : Bytes} (hx : x.length = 8) : desOutput (desHalves x).swap = x := by
  simp only [desOutput, desHalves, Prod.swap]
  rw [BitVec.extractLsb'_append_extractLsb' (w := 32), permute_desFP_desIP, toBE64_be64 hx]

/-! ## The rounds and the block -/

/-- A round (45_tdes.md R375). -/
def desStep (p : Word × Word) (K : BitVec 48) : Word × Word := (p.2, p.1 ^^^ desRound p.2 K)

theorem desRounds_eq_foldl (order : List (BitVec 48)) (p : Word × Word) :
    desRounds order p = order.foldl desStep p := rfl

/-- A round on the exchanged halves undoes the round (45_tdes.md R375). -/
theorem desStep_swap (p : Word × Word) (K : BitVec 48) : desStep (desStep p K).swap K = p.swap := by
  simp [desStep, Prod.swap]

/-- Rounds in reverse order on the exchanged halves undo the rounds (45_tdes.md R375). -/
theorem desRounds_reverse (order : List (BitVec 48)) (p : Word × Word) :
    desRounds order.reverse (desRounds order p).swap = p.swap := by
  rw [desRounds_eq_foldl, desRounds_eq_foldl]
  induction order generalizing p with
  | nil => rfl
  | cons K order ih =>
    rw [List.foldl_cons, List.reverse_cons, List.foldl_append, ih]
    exact desStep_swap p K

/-- DES with the subkeys in reverse order undoes DES (45_tdes.md R375). -/
theorem desBlock_reverse (order : List (BitVec 48)) {x : Bytes} (hx : x.length = 8) :
    desBlock order.reverse (desBlock order x) = x := by
  rw [desBlock_eq, desBlock_eq, desHalves_desOutput, desRounds_reverse, desOutput_desHalves hx]

/-- Decryption undoes encryption (45_tdes.md R375). -/
theorem desDecrypt_desEncrypt (k : Bytes) {x : Bytes} (hx : x.length = 8) : desDecrypt k (desEncrypt k x) = x :=
  desBlock_reverse _ hx

/-- Encryption undoes decryption (45_tdes.md R375). -/
theorem desEncrypt_desDecrypt (k : Bytes) {x : Bytes} (hx : x.length = 8) : desEncrypt k (desDecrypt k x) = x := by
  have hrev := desBlock_reverse (desSubkeys k).reverse hx
  rwa [List.reverse_reverse] at hrev

@[simp] theorem length_desEncrypt (k x : Bytes) : (desEncrypt k x).length = 8 := length_desBlock _ _

@[simp] theorem length_desDecrypt (k x : Bytes) : (desDecrypt k x).length = 8 := length_desBlock _ _

/-- EDE3 decryption undoes EDE3 encryption (45_tdes.md R376). -/
theorem ede3Decrypt_ede3Encrypt (ks : Keyset) {x : Bytes} (hx : x.length = 8) :
    ede3Decrypt ks (ede3Encrypt ks x) = x := by
  rw [ede3Decrypt, ede3Encrypt, desDecrypt_desEncrypt _ (length_desDecrypt _ _),
    desEncrypt_desDecrypt _ (length_desEncrypt _ _), desDecrypt_desEncrypt _ hx]

/-- Settles O55: the subkeys in reverse order undo each pass, and EDE3 undoes its passes from the last on. -/
theorem desRoundTrip : Obligations.DesRoundTrip :=
  ⟨fun k _ hx => ⟨desDecrypt_desEncrypt k hx, desEncrypt_desDecrypt k hx⟩,
    fun ks _ => ⟨rfl, rfl, ede3Decrypt_ede3Encrypt ks⟩⟩

end Sys2Proof.Machine
end

section
/-! PROOF. CBC: the chaining of the blocks, both ways, and decryption undoes encryption (45_tdes.md R377). -/

namespace Sys2Proof.Machine

/-! ## Blocks of strings -/

/-- A part of what follows the first string of a concatenation (00_scope.md R9). -/
theorem slice_append_of_length {b : Bytes} {n : Nat} (h : b.length = n) (c : Bytes) (i j : Nat) :
    slice (b ++ c) (n + i) (n + j) = slice c i j := by
  rw [slice, slice, ← List.drop_drop, List.drop_left' h, Nat.add_sub_add_left]

/-- Block c of a string (00_scope.md R9). -/
theorem getD_blocks8 {k c : Nat} (hc : c < k) (b : Bytes) : (blocks8 k b).getD c [] = slice b (8 * c) (8 * c + 8) := by
  induction k generalizing c b with
  | zero => cases hc
  | succ k ih =>
    cases c with
    | zero => rfl
    | succ c =>
      rw [blocks8, List.getD_cons_succ, ih (Nat.lt_of_succ_lt_succ hc), slice, slice, List.drop_drop,
        show 8 * (c + 1) = 8 + 8 * c by ring, Nat.add_sub_cancel_left, Nat.add_sub_cancel_left]

/-- The first block of a string, and its other blocks. -/
theorem blocks8_append {b : Bytes} (h : b.length = 8) (k : Nat) (c : Bytes) :
    blocks8 (k + 1) (b ++ c) = b :: blocks8 k c := by
  rw [blocks8, List.take_left' h, List.drop_left' h]

/-- A later block of a string is a block of what follows the first block. -/
theorem slice_block_succ {y : Bytes} (hy : y.length = 8) (rest : Bytes) (c : Nat) :
    slice (y ++ rest) (8 * (c + 1)) (8 * (c + 1) + 8) = slice rest (8 * c) (8 * c + 8) := by
  rw [show 8 * (c + 1) = 8 + 8 * c by ring, Nat.add_assoc, slice_append_of_length hy]

/-- The block before block c of a string, `prev` before the first (45_tdes.md R377). -/
def prevBlock (prev b : Bytes) (c : Nat) : Bytes := if c = 0 then prev else slice b (8 * c - 8) (8 * c)

/-- The block before a later block is found after the first block, which is then the one before. -/
theorem prevBlock_append (prev : Bytes) {y : Bytes} (hy : y.length = 8) (rest : Bytes) (c : Nat) :
    prevBlock prev (y ++ rest) (c + 1) = prevBlock y rest c := by
  cases c with
  | zero => exact slice_append_left hy
  | succ c => exact slice_block_succ hy rest c

/-! ## Chaining -/

/-- Block c of the encryption of a list of blocks (45_tdes.md R377). -/
theorem slice_cbcEncryptBlocks (ks : Keyset) (prev : Bytes) (bs : List Bytes) {c : Nat} (hc : c < bs.length) :
    slice (cbcEncryptBlocks ks prev bs) (8 * c) (8 * c + 8) =
      ede3Encrypt ks (xorBytes (bs.getD c []) (prevBlock prev (cbcEncryptBlocks ks prev bs) c)) := by
  induction bs generalizing prev c with
  | nil => cases hc
  | cons b bs ih =>
    have hfirst := length_ede3Encrypt ks (xorBytes b prev)
    rw [cbcEncryptBlocks]
    cases c with
    | zero => exact slice_append_left hfirst
    | succ c =>
      rw [slice_block_succ hfirst, prevBlock_append _ hfirst, ih _ (Nat.lt_of_succ_lt_succ hc), List.getD_cons_succ]

/-- Block c of the decryption of a list of blocks (45_tdes.md R377). -/
theorem slice_cbcDecryptBlocks (ks : Keyset) {prev : Bytes} (hprev : prev.length = 8) {bs : List Bytes}
    (hbs : ∀ b ∈ bs, b.length = 8) {c : Nat} (hc : c < bs.length) :
    slice (cbcDecryptBlocks ks prev bs) (8 * c) (8 * c + 8) =
      xorBytes (ede3Decrypt ks (bs.getD c [])) (prevBlock prev bs.flatten c) := by
  induction bs generalizing prev c with
  | nil => cases hc
  | cons b bs ih =>
    obtain ⟨hb, hrest⟩ := List.forall_mem_cons.1 hbs
    have hfirst : (xorBytes (ede3Decrypt ks b) prev).length = 8 := by simp [hprev]
    rw [cbcDecryptBlocks, List.flatten_cons]
    cases c with
    | zero => exact slice_append_left hfirst
    | succ c =>
      rw [slice_block_succ hfirst, prevBlock_append _ hb, ih hb hrest (Nat.lt_of_succ_lt_succ hc), List.getD_cons_succ]

/-- Decryption of the encrypted blocks gives the blocks (45_tdes.md R377). -/
theorem cbcDecryptBlocks_cbcEncryptBlocks (ks : Keyset) {prev : Bytes} (hprev : prev.length = 8) {bs : List Bytes}
    (hbs : ∀ b ∈ bs, b.length = 8) :
    cbcDecryptBlocks ks prev (blocks8 bs.length (cbcEncryptBlocks ks prev bs)) = bs.flatten := by
  induction bs generalizing prev with
  | nil => rfl
  | cons b bs ih =>
    obtain ⟨hb, hrest⟩ := List.forall_mem_cons.1 hbs
    have hfirst := length_ede3Encrypt ks (xorBytes b prev)
    rw [cbcEncryptBlocks, List.length_cons, blocks8_append hfirst, cbcDecryptBlocks, ih hfirst hrest,
      ede3Decrypt_ede3Encrypt ks (by simp [hb, hprev]), xorBytes_xorBytes_right (hb.trans hprev.symm).le,
      List.flatten_cons]

/-! ## Strings -/

section

variable (ks : Keyset) {B : Bytes} (h8 : B.length % 8 = 0)

include h8

theorem mul_length_div_eight : 8 * (B.length / 8) = B.length := Nat.mul_div_cancel' (Nat.dvd_of_mod_eq_zero h8)

theorem length_of_mem_blocks8_self : ∀ b ∈ blocks8 (B.length / 8) B, b.length = 8 :=
  fun _ => length_of_mem_blocks8 (mul_length_div_eight h8).le

theorem flatten_blocks8_self : (blocks8 (B.length / 8) B).flatten = B := by
  rw [flatten_blocks8, mul_length_div_eight h8, List.take_length]

/-- A ciphertext is as long as its plaintext (45_tdes.md R377). -/
theorem length_cbcEncrypt : (cbcEncrypt ks B).length = B.length := by
  rw [cbcEncrypt, length_cbcEncryptBlocks, length_blocks8, mul_length_div_eight h8]

theorem length_cbcDecrypt : (cbcDecrypt ks B).length = B.length := by
  rw [cbcDecrypt, dwordBytes, length_cbcDecryptBlocks ks _ _ (length_toLE64 _) (length_of_mem_blocks8_self h8),
    length_blocks8, mul_length_div_eight h8]

/-- Decryption undoes encryption (45_tdes.md R377). -/
theorem cbcDecrypt_cbcEncrypt : cbcDecrypt ks (cbcEncrypt ks B) = B := by
  have hblocks := cbcDecryptBlocks_cbcEncryptBlocks ks (length_toLE64 ks.tiv) (length_of_mem_blocks8_self h8)
  rw [length_blocks8, flatten_blocks8_self h8] at hblocks
  rw [cbcDecrypt, length_cbcEncrypt ks h8]
  exact hblocks

end

/-- Settles O56: each block is chained as the blocks of its list are. -/
theorem cbcChains : Obligations.CbcChains := by
  refine fun ks B h8 => ⟨length_cbcEncrypt ks h8, length_cbcDecrypt ks h8, cbcDecrypt_cbcEncrypt ks h8,
    fun c hc => ⟨?_, ?_⟩⟩
  · have hblock := slice_cbcEncryptBlocks ks (toLE64 ks.tiv) (blocks8 (B.length / 8) B) (c := c) (by simpa using hc)
    rw [getD_blocks8 hc] at hblock
    exact hblock
  · have hblock := slice_cbcDecryptBlocks ks (length_toLE64 ks.tiv) (length_of_mem_blocks8_self h8) (c := c)
      (by simpa using hc)
    rw [getD_blocks8 hc, flatten_blocks8_self h8] at hblock
    exact hblock

end Sys2Proof.Machine
end

section
/-! PROOF. Frames: what a frame is, and exactly which strings the parse accepts (45_tdes.md R378, R379). -/

namespace Sys2Proof.Machine

/-- A length, a plaintext and v bytes of value v (45_tdes.md R378). -/
def framed (P : Bytes) (v : Nat) : Bytes := leBytes 8 P.length ++ P ++ List.replicate v (BitVec.ofNat 8 v)

theorem frame_eq_framed (P : Bytes) : frame P = framed P (padLength P.length) := rfl

theorem length_framed_body (P : Bytes) : (leBytes 8 P.length ++ P).length = 8 + P.length := by simp

@[simp] theorem length_framed (P : Bytes) (v : Nat) : (framed P v).length = 8 + P.length + v := by
  rw [framed, List.length_append, length_framed_body, List.length_replicate]

/-- What the parse checks when it gives `P`, v being the value of the last byte (45_tdes.md R379). -/
structure Parses (B P : Bytes) (v : Nat) : Prop where
  last : (B.getD (B.length - 1) 0).toNat = v
  pos : 1 ≤ v
  le_eight : v ≤ 8
  padding : B.drop (B.length - v) = List.replicate v (BitVec.ofNat 8 v)
  header : 8 ≤ B.length - v
  count : leNat (slice B 0 8) = B.length - v - 8
  plaintext : slice B 8 (B.length - v) = P

/-- The parse gives a plaintext exactly when its checks pass (45_tdes.md R379). -/
theorem unframe_eq_some_iff (B P : Bytes) : unframe B = some P ↔ ∃ v, Parses B P v := by
  constructor
  · intro h
    simp only [unframe, Option.ite_none_left_eq_some] at h
    obtain ⟨-, hv, hpad, hheader, hcount, hplain⟩ := h
    exact ⟨_, rfl, by omega, by omega, not_not.1 hpad, not_lt.1 hheader, not_not.1 hcount, Option.some.inj hplain⟩
  · rintro ⟨v, hlast, hpos, hle, hpad, hheader, hcount, rfl⟩
    unfold unframe
    simp only [hlast]
    rw [if_neg (by omega), if_neg (by omega), if_neg (not_not.2 hpad), if_neg (by omega), if_neg (not_not.2 hcount)]

/-- A framed plaintext passes the checks (45_tdes.md R379). -/
theorem parses_framed {P : Bytes} {v : Nat} (hP : P.length < 2 ^ 64) (hpos : 1 ≤ v) (hle : v ≤ 8) :
    Parses (framed P v) P v where
  last := by
    have hbyte : (framed P v).getD (8 + P.length + v - 1) 0 = BitVec.ofNat 8 v := by
      rw [framed, List.getD_append_right _ _ _ _ (by rw [length_framed_body]; omega), length_framed_body,
        List.getD_replicate _ (by omega)]
    rw [length_framed, hbyte, BitVec.toNat_ofNat]
    omega
  pos := hpos
  le_eight := hle
  padding := by rw [length_framed, Nat.add_sub_cancel, framed, List.drop_left' (length_framed_body P)]
  header := by rw [length_framed]; omega
  count := by
    rw [length_framed, framed, List.append_assoc, slice_append_left (length_leBytes _ _), leNat_leBytes,
      Nat.add_sub_cancel, Nat.add_sub_cancel_left]
    exact Nat.mod_eq_of_lt hP
  plaintext := by
    rw [length_framed, Nat.add_sub_cancel, framed, List.append_assoc]
    exact (slice_append_of_length (length_leBytes _ _) _ 0 _).trans (slice_append_left rfl)

/-- A string that passes the checks is a framed plaintext (45_tdes.md R379). -/
theorem Parses.eq_framed {B P : Bytes} {v : Nat} (h : Parses B P v) : B = framed P v := by
  obtain ⟨-, -, -, hpad, hheader, hcount, rfl⟩ := h
  have hlength : (slice B 8 (B.length - v)).length = B.length - v - 8 := by rw [length_slice]; omega
  have hnum : leBytes 8 (B.length - v - 8) = slice B 0 8 := by
    rw [← hcount]
    have hbytes := leBytes_leNat (slice B 0 8)
    rwa [length_slice, show min (8 - 0) (B.length - 0) = 8 by omega] at hbytes
  have hbody : slice B 0 8 ++ slice B 8 (B.length - v) = B.take (B.length - v) := by
    rw [slice, slice, List.drop_zero, Nat.sub_zero, ← List.take_add, Nat.add_sub_cancel' hheader]
  rw [framed, hlength, hnum, hbody, ← hpad, List.take_append_drop]

/-- The parse accepts exactly the framed plaintexts (45_tdes.md R379). -/
theorem unframe_eq_some_iff_framed {B P : Bytes} (hB : B.length < 2 ^ 64) :
    unframe B = some P ↔ ∃ v, 1 ≤ v ∧ v ≤ 8 ∧ B = framed P v := by
  rw [unframe_eq_some_iff]
  constructor
  · rintro ⟨v, h⟩
    exact ⟨v, h.pos, h.le_eight, h.eq_framed⟩
  · rintro ⟨v, hpos, hle, rfl⟩
    rw [length_framed] at hB
    exact ⟨v, parses_framed (by omega) hpos hle⟩

/-- Settles O57: the frame's length, and the parse by its checks. -/
theorem framesParse : Obligations.FramesParse :=
  ⟨fun P => ⟨rfl, length_frame P, (length_frame P).symm ▸ frameLength_mod P.length⟩,
    fun _ _ => unframe_eq_some_iff_framed⟩

theorem padLength_bounds (n : Nat) : 1 ≤ padLength n ∧ padLength n ≤ 8 := by
  unfold padLength
  omega

/-- The parse of a frame gives the plaintext (45_tdes.md R379). -/
theorem unframe_frame {P : Bytes} (hP : P.length < 2 ^ 64) : unframe (frame P) = some P := by
  obtain ⟨hpos, hle⟩ := padLength_bounds P.length
  exact (unframe_eq_some_iff _ _).2 ⟨_, parses_framed hP hpos hle⟩

end Sys2Proof.Machine
end

section
/-! PROOF. The commands of the frame codec: T_KEYLOAD, T_FRMENC and T_FRMDEC (45_tdes.md R380, R382-R384). -/

namespace Sys2Proof.Machine

/-! ## T_KEYLOAD -/

/-- Byte k of the register that holds an eight-byte string is byte k of the string (10_state.md R52). -/
theorem byteOf_le64 {b : Bytes} (h : b.length = 8) {k : Nat} (hk : k < 8) : byteOf (le64 b) k = b.getD k 0 := by
  conv_rhs => rw [← toLE64_le64 h, toLE64, leBytes_eq_map]
  simp [byteOf, List.getD_eq_getElem?_getD, hk]

/-- A byte of the register loaded from eight bytes of a region (45_tdes.md R382). -/
theorem byteAt_eq_byteOf_le64 {s : State} {off n i k : Nat} (h : Readable s off n) (hi : i + 8 ≤ n) (hk : k < 8) :
    s.dmem.byteAt (off + i + k) = some (byteOf (le64 (slice (regionBytes s off n) i (i + 8))) k) := by
  obtain ⟨b, hb⟩ := Option.isSome_iff_exists.1 (h (off + i + k) (by omega) (by omega))
  rw [slice_regionBytes s off hi, Nat.add_sub_cancel_left, byteOf_le64 (length_regionBytes _ _ _) hk]
  simp [regionBytes, List.getD_eq_getElem?_getD, hk, hb]

/-- Settles O53: the four registers are the four parts of the 32 bytes at SRC. -/
theorem tKeyloadLoadsKeyset : Obligations.TKeyloadLoadsKeyset :=
  fun _ => ⟨fun h => exec_of_raise (e := .addressRange) (readFixed32_addressRange h _),
    fun h hread => ⟨_, exec_of_ok (i := .tKeyload) (readFixed32_of_readable h hread _), fun _ hk =>
      ⟨byteAt_eq_byteOf_le64 (i := 0) hread (by norm_num) hk, byteAt_eq_byteOf_le64 hread (by norm_num) hk,
        byteAt_eq_byteOf_le64 hread (by norm_num) hk, byteAt_eq_byteOf_le64 hread (by norm_num) hk⟩⟩⟩

/-! ## T_FRMENC -/

/-- The encrypted frame of a plaintext (45_tdes.md R378, R383). -/
def encryptedFrame (ks : Keyset) (P : Bytes) : Bytes := cbcEncrypt ks (frame P)

@[simp] theorem length_encryptedFrame (ks : Keyset) (P : Bytes) :
    (encryptedFrame ks P).length = frameLength P.length := length_cbcEncrypt_frame ks P

/-- The self-check never fails: decryption gives the frame back (45_tdes.md R377, R383). -/
theorem cbcDecrypt_encryptedFrame (ks : Keyset) (P : Bytes) : cbcDecrypt ks (encryptedFrame ks P) = frame P :=
  cbcDecrypt_cbcEncrypt ks ((length_frame P).symm ▸ frameLength_mod P.length)

theorem not_inRange {base n : Nat} (h : 4096 < base + n) : (!inRange base n) = true := by
  simpa [Config.dmemSize] using h

theorem not_not_inRange {base n : Nat} (h : base + n ≤ 4096) : ¬(!inRange base n) = true := by simp [inRange_of_le h]

section

variable {s : State}

theorem tFrmencEffect_addressRange
    (h : 4096 < s.srcOff + s.lenBytes ∨ 4096 < s.dstOff + frameLength s.lenBytes) :
    tFrmencEffect s = .raise .addressRange := by
  rw [tFrmencEffect]
  by_cases hsrc : 4096 < s.srcOff + s.lenBytes
  · rw [if_pos (not_inRange hsrc)]
  · rw [if_neg (not_not_inRange (not_lt.1 hsrc)), if_pos (not_inRange (h.resolve_left hsrc))]

/-- T_FRMENC on regions inside DMEM (45_tdes.md R383). -/
theorem tFrmencEffect_in_range (hsrc : s.srcOff + s.lenBytes ≤ 4096)
    (hdst : s.dstOff + frameLength s.lenBytes ≤ 4096) :
    tFrmencEffect s = readInput s s.srcOff s.lenBytes fun P => .ok (s.writeOutput (encryptedFrame s.keys P)) := by
  rw [tFrmencEffect, if_neg (not_not_inRange hsrc), if_neg (not_not_inRange hdst)]
  congr 1
  funext P
  exact if_neg (not_not.2 (cbcDecrypt_encryptedFrame s.keys P))

theorem exec_tFrmenc_of_read (hsrc : s.srcOff + s.lenBytes ≤ 4096) (hdst : s.dstOff + frameLength s.lenBytes ≤ 4096)
    {P : Bytes} (hread : s.dmem.read s.srcOff s.lenBytes = .ok P) :
    exec .tFrmenc s = .next (completed (s.writeOutput (encryptedFrame s.keys P))) :=
  exec_of_ok (by rw [effectOf, tFrmencEffect_in_range hsrc hdst, readInput_of_read hread])

/-- Everything T_FRMENC on regions inside DMEM can leave (45_tdes.md R383). -/
theorem exec_tFrmenc_next (hsrc : s.srcOff + s.lenBytes ≤ 4096) (hdst : s.dstOff + frameLength s.lenBytes ≤ 4096)
    {t : State} (h : exec .tFrmenc s = .next t) :
    ∃ P, s.dmem.read s.srcOff s.lenBytes = .ok P ∧ t = completed (s.writeOutput (encryptedFrame s.keys P)) := by
  cases hread : s.dmem.read s.srcOff s.lenBytes with
  | ok P =>
    rw [exec_tFrmenc_of_read hsrc hdst hread] at h
    cases h
    exact ⟨P, rfl, rfl⟩
  | error a =>
    rw [exec_fault (by rw [effectOf, tFrmencEffect_in_range hsrc hdst, readInput, hread])] at h
    cases h

end

/-- Settles O58: the address checks, then the encrypted frame of the bytes at SRC. -/
theorem frmencEncryptsFrame : Obligations.FrmencEncryptsFrame := by
  rintro s _ rfl
  refine ⟨fun h => exec_of_raise (e := .addressRange) (tFrmencEffect_addressRange h), fun hsrc hdst hread =>
    ⟨_, exec_tFrmenc_of_read hsrc hdst hread.read, ?_⟩⟩
  rw [State.writeOutput, length_encryptedFrame, length_regionBytes]
  exact storedFrom_write _ _ _

/-! ## T_FRMDEC -/

section

variable {s : State}

theorem tFrmdecEffect_addressRange (h8 : s.lenBytes % 8 = 0) (h : 4096 < s.srcOff + s.lenBytes) :
    tFrmdecEffect s = .raise .addressRange := by
  rw [tFrmdecEffect, if_neg (not_not.2 h8), if_pos (not_inRange h)]

/-- T_FRMDEC's parse and its check of the output region (45_tdes.md R384). -/
def storeParsed (s : State) : Option Bytes → Effect
  | none => .raise .integrityFailure
  | some P => if !inRange s.dstOff P.length then .raise .addressRange else .ok (s.writeOutput P)

/-- T_FRMDEC on a region inside DMEM, given the input (45_tdes.md R384). -/
theorem tFrmdecEffect_of_read (h8 : s.lenBytes % 8 = 0) (hsrc : s.srcOff + s.lenBytes ≤ 4096) {Y : Bytes}
    (hread : s.dmem.read s.srcOff s.lenBytes = .ok Y) :
    tFrmdecEffect s = storeParsed s (unframe (cbcDecrypt s.keys Y)) := by
  rw [tFrmdecEffect, if_neg (not_not.2 h8), if_neg (not_not_inRange hsrc), readInput_of_read hread]
  cases unframe (cbcDecrypt s.keys Y) <;> rfl

theorem exec_tFrmdec_of_parse (h8 : s.lenBytes % 8 = 0) (hsrc : s.srcOff + s.lenBytes ≤ 4096) {Y P : Bytes}
    (hread : s.dmem.read s.srcOff s.lenBytes = .ok Y) (hparse : unframe (cbcDecrypt s.keys Y) = some P)
    (hdst : s.dstOff + P.length ≤ 4096) : exec .tFrmdec s = .next (completed (s.writeOutput P)) :=
  exec_of_ok (by rw [effectOf, tFrmdecEffect_of_read h8 hsrc hread, hparse, storeParsed, if_neg (not_not_inRange hdst)])

end

/-- Settles O59: the checks in their order, then the plaintext. -/
theorem frmdecDecryptsFrame : Obligations.FrmdecDecryptsFrame := by
  refine fun s => ⟨fun h8 => exec_of_raise (e := .bufferShape) (if_pos h8),
    fun h8 h => exec_of_raise (e := .addressRange) (tFrmdecEffect_addressRange h8 h), fun h8 hsrc hread => ?_⟩
  have heffect := tFrmdecEffect_of_read h8 hsrc hread.read
  refine ⟨fun hnone => exec_of_raise (e := .integrityFailure) (heffect.trans (by rw [hnone, storeParsed])),
    fun P hparse => ⟨fun hdst => exec_of_raise (e := .addressRange)
      (heffect.trans (by rw [hparse, storeParsed, if_pos (not_inRange hdst)])), fun hdst => ?_⟩⟩
  exact ⟨_, exec_tFrmdec_of_parse h8 hsrc hread.read hparse hdst, storedFrom_write _ _ _⟩

/-! ## The round trip -/

/-- T_FRMDEC on the encrypted frame of a plaintext gives the plaintext (45_tdes.md R380). -/
theorem exec_tFrmdec_of_encryptedFrame {s : State} {P : Bytes} (hlen : s.lenBytes = frameLength P.length)
    (hsrc : s.srcOff + s.lenBytes ≤ 4096) (hread : s.dmem.read s.srcOff s.lenBytes = .ok (encryptedFrame s.keys P))
    (hdst : s.dstOff + P.length ≤ 4096) : exec .tFrmdec s = .next (completed (s.writeOutput P)) := by
  refine exec_tFrmdec_of_parse (hlen ▸ frameLength_mod P.length) hsrc hread ?_ hdst
  rw [cbcDecrypt_encryptedFrame, unframe_frame (by omega)]

/-- Settles O60: what T_FRMENC stored decrypts to the frame, and the frame parses to the plaintext. -/
theorem frameCommandsRoundTrip : Obligations.FrameCommandsRoundTrip := by
  intro s t back hexec hsrc hdst hback
  obtain ⟨P, hread, rfl⟩ := exec_tFrmenc_next hsrc hdst hexec
  obtain ⟨hlen, hbytes⟩ := (read_ok_iff _ _ _ _).1 hread
  have houtlen : (BitVec.ofNat 32 (encryptedFrame s.keys P).length).toNat = frameLength P.length := by
    have hfits : frameLength P.length ≤ 4096 := hlen ▸ le_trans (Nat.le_add_left _ _) hdst
    rw [length_encryptedFrame, BitVec.toNat_ofNat, Nat.mod_eq_of_lt (by omega)]
  refine ⟨_, exec_tFrmdec_of_encryptedFrame (P := P) houtlen ?_ ?_ (hlen ▸ hback), ?_, fun j hj => ?_⟩
  · show s.dstOff + (BitVec.ofNat 32 (encryptedFrame s.keys P).length).toNat ≤ 4096
    rw [houtlen, hlen]
    exact hdst
  · exact read_write s.dmem s.dstOff ((length_encryptedFrame _ _).trans houtlen.symm)
  · show BitVec.ofNat 32 P.length = s.io.len
    rw [hlen, State.lenBytes, BitVec.ofNat_toNat, BitVec.setWidth_eq]
  · rw [hbytes j hj]
    exact byteAt_writeOutput_add _ (hlen ▸ hj)

end Sys2Proof.Machine
end

section
/-! PROOF. The control command: NOP completes from every state, and its two-step run from an idle host
(49_control.md R420). -/

namespace Sys2Proof.Machine

/-- NOP ends with OK and has no writes of its own (49_control.md R420). -/
theorem exec_nop (s : State) : exec .nop s = .next (completed s) := exec_of_ok rfl

/-- A due NOP word completes in the next step and changes STATUS alone (30_encoding.md R146, 49_control.md R420). -/
theorem step_of_due_nop {s : State} (h : CompletionDue s 0) : step s = .next (completed s) :=
  (step_of_due_ok h (decode_encode .nop)).trans (exec_nop s)

/-- Settles O24: the write to CMD starts NOP, and the completion is due at once, for the host has no access left. -/
theorem nopChangesOnlyStatus : Obligations.NopChangesOnlyStatus := by
  refine ⟨exec_nop, fun s hidle htodo => ?_⟩
  obtain ⟨u, hstart, -, hu_todo, hu⟩ := (cmdWriteStarts s 0 [] ⟨htodo, .inl hidle⟩).1 hidle
  have hdue : CompletionDue u 0 := ⟨by rw [hu], .inr hu_todo⟩
  exact ⟨completed u, run_succ hstart (run_succ (step_of_due_nop hdue) rfl), congrArg completed hu⟩

end Sys2Proof.Machine
end

section
/-! PROOF. How STATUS and CTRL change in one step: by a completion, or by one of the host's events that reach them; from
it precise errors, the sticky ERR, and the interrupt output (60_exceptions.md R432, R433, R440). -/

namespace Sys2Proof.Machine

/-! ## Completions -/

/-- Everything the step of a due word can be, legal or not: its command's writes, or an error (30_encoding.md R146, R147). -/
theorem completion_next {s t : State} {w : Word} (hdue : CompletionDue s w) (h : step s = .next t) :
    (∃ i u, effectOf i s = .ok u ∧ t = completed u) ∨ ∃ e : ErrCode, t = failed s e.code := by
  cases hw : decode w with
  | ok i =>
    rw [step_of_due_ok hdue hw] at h
    rcases exec_next h with ⟨u, hu, rfl⟩ | ⟨e, -, rfl⟩
    · exact .inl ⟨i, u, hu, rfl⟩
    · exact .inr ⟨e, rfl⟩
  | error e =>
    rw [step_of_due_illegal hdue hw] at h
    cases h
    exact .inr ⟨.illegalCommand, rfl⟩

/-- Without an error a command leaves STATUS and CTRL as its start left them, but for VOK, BUSY and DONE
(30_encoding.md R144, R146). -/
theorem completed_ctl {i : Instr} {s u : State} (h : effectOf i s = .ok u) :
    (completed u).ctl = { s.ctl with vok := u.ctl.vok, pending := none, done := true } := by
  obtain ⟨-, hctl, -⟩ := ok_writes h
  rw [completed, hctl]

/-- Every completion sets DONE and keeps IE (30_encoding.md R146). -/
theorem completion_done_ie {s t : State} {w : Word} (hdue : CompletionDue s w) (h : step s = .next t) :
    t.ctl.done = true ∧ t.ctl.ie = s.ctl.ie := by
  rcases completion_next hdue h with ⟨i, u, hu, rfl⟩ | ⟨e, rfl⟩
  · rw [completed_ctl hu]
    exact ⟨rfl, rfl⟩
  · exact ⟨rfl, rfl⟩

/-- Settles O6: an OK completion leaves the ERR of the start, so the completion is an error's, which writes ERR alone. -/
theorem errorsArePrecise : Obligations.ErrorsArePrecise := by
  intro s t w hdue herr hvok houtlen h hne
  rcases completion_next hdue h with ⟨i, u, hu, rfl⟩ | ⟨e, rfl⟩
  · rw [completed_ctl hu] at hne
    exact absurd herr hne
  · exact ⟨rfl, rfl, rfl, hvok, houtlen, code_range e⟩

/-! ## The host's events that reach STATUS and CTRL -/

/-- The host's events that reach STATUS and CTRL, with what they leave of them: a reset, a write to CTRL, and while nothing
is pending the W1C of DONE and an accepted write to CMD (10_state.md R35, R36; 30_encoding.md R145). -/
inductive CtlChange (c : ControlRegs) : HostEvent → ControlRegs → Prop where
  | powerOn : CtlChange c .platformReset State.reset.ctl
  | softReset {v : Word} (hsrst : v.getLsbD 1 = true) : CtlChange c (.write (addressOf 0x008) 4 v) State.reset.ctl
  | enable {v : Word} (hsrst : v.getLsbD 1 = false) :
      CtlChange c (.write (addressOf 0x008) 4 v) { c with ie := v.getLsbD 0 }
  | clearDone {v : Word} (hidle : c.pending = none) (hv : v.getLsbD 1 = true) :
      CtlChange c (.write (addressOf 0x00C) 4 v) { c with done := false }
  | start {w : Word} (hidle : c.pending = none) :
      CtlChange c (.write (addressOf 0x010) 4 w) { c with done := false, err := 0, vok := false, pending := some w }

theorem busy_eq_false_of_idle {s : State} (hidle : s.ctl.pending = none) : s.busy = false := by
  rw [State.busy, hidle]
  rfl

/-- A write to CTRL without SRST sets IE (10_state.md R35). -/
theorem writeCtrl_of_no_srst (s : State) {v : Word} (hsrst : v.getLsbD 1 = false) :
    writeCtrl s v = { s with ctl := { s.ctl with ie := v.getLsbD 0 } } :=
  if_neg (by rw [hsrst]; exact Bool.false_ne_true)

/-- A write to STATUS with bit 1 clears DONE and nothing else (10_state.md R36). -/
theorem hostWriteAccess_w1c {s : State} {v : Word} (hidle : s.ctl.pending = none) (hv : v.getLsbD 1 = true) :
    hostWriteAccess s 0x00C v = { s with ctl := { s.ctl with done := false } } :=
  (hostWriteAccess_single (busy_eq_false_of_idle hidle) 0x00C .status v).trans (if_pos hv)

/-- The W1C of DONE as a step (10_state.md R36). -/
theorem step_w1c {s : State} {rest : List HostEvent} {v : Word} (hmoves : HostMoves s (.write (addressOf 0x00C) 4 v) rest)
    (hidle : s.ctl.pending = none) (hv : v.getLsbD 1 = true) :
    step s = .next { afterHost s rest with ctl := { s.ctl with done := false } } := by
  rw [step_write hmoves (by norm_num) (by norm_num), hostWriteAccess_w1c (s := afterHost s rest) hidle hv]
  rfl

/-- Each of these events does what `CtlChange` says. -/
theorem step_of_ctlChange {s : State} {ev : HostEvent} {rest : List HostEvent} {c : ControlRegs}
    (hmoves : HostMoves s ev rest) (h : CtlChange s.ctl ev c) : ∃ t, step s = .next t ∧ t.ctl = c := by
  cases h with
  | powerOn => exact ⟨_, step_host hmoves, rfl⟩
  | softReset hsrst =>
    refine ⟨_, step_write hmoves (by norm_num) (by norm_num), ?_⟩
    rw [hostWriteAccess_srst _ hsrst, softReset_ctl]
  | enable hsrst =>
    refine ⟨_, step_write hmoves (by norm_num) (by norm_num), ?_⟩
    rw [hostWriteAccess_ctrl, writeCtrl_of_no_srst _ hsrst]
    rfl
  | clearDone hidle hv => exact ⟨_, step_w1c hmoves hidle hv, rfl⟩
  | start hidle =>
    refine ⟨_, step_write hmoves (by norm_num) (by norm_num), ?_⟩
    rw [hostWriteAccess_cmd (s := afterHost s rest) _ (busy_eq_false_of_idle hidle), accept_ctl]
    rfl

/-- A host write keeps STATUS and CTRL, or is one of these events (20_memory.md R111). -/
theorem hostWriteAccess_ctl_cases (s : State) {off : Nat} (v : Word) (h4 : off % 4 = 0) (ho : off < 8192) :
    (hostWriteAccess s off v).ctl = s.ctl ∨
      CtlChange s.ctl (.write (addressOf off) 4 v) (hostWriteAccess s off v).ctl := by
  rcases write_cases s off v h4 ho with
    hw | ⟨rfl, hw⟩ | ⟨hidle, ⟨rfl, hw⟩ | ⟨rfl, hw⟩ | ⟨hctl, -⟩⟩
  · exact .inl (congrArg State.ctl hw)
  · rw [hw]
    cases hsrst : v.getLsbD 1 with
    | true => rw [writeCtrl, if_pos hsrst]; exact .inr (.softReset hsrst)
    | false => rw [writeCtrl_of_no_srst s hsrst]; exact .inr (.enable hsrst)
  · rw [hw, writeStatus]
    split
    · next hv => exact .inr (.clearDone hidle hv)
    · exact .inl rfl
  · rw [hw]
    exact .inr (.start hidle)
  · exact .inl hctl

/-- A step that is no completion keeps STATUS and CTRL, or is one of these events: the converse of `step_of_ctlChange`. -/
theorem step_ctl_cases {s t : State} (hdue : ¬∃ w, CompletionDue s w) (h : step s = .next t) :
    t.ctl = s.ctl ∨ ∃ ev rest c, HostMoves s ev rest ∧ CtlChange s.ctl ev c ∧ t.ctl = c := by
  have hnone : commandDue s = none := Option.eq_none_iff_forall_ne_some.2 fun w hw => hdue ⟨w, commandDue_some hw⟩
  rcases hostTurn_next hnone h with ⟨-, rfl⟩ | ⟨ev, rest, hmoves, hev⟩
  · exact .inl rfl
  · rcases event_cases hev with ⟨rfl, rfl⟩ | rfl | ⟨-, -, -, hread, -⟩ | ⟨off, v, rfl, ho, h4, rfl⟩
    · exact .inr ⟨_, rest, _, hmoves, .powerOn, rfl⟩
    · exact .inl rfl
    · exact .inl ((congrArg State.ctl hread).trans rfl)
    · exact (hostWriteAccess_ctl_cases (afterHost s rest) v h4 ho).imp_right
        fun hchange => ⟨_, rest, _, hmoves, hchange, rfl⟩

/-- Settles O22: of the events that reach STATUS and CTRL, the resets and the accepted CMD write alone write ERR. -/
theorem errIsSticky : Obligations.ErrIsSticky := by
  refine ⟨fun s t h hdue hne => ?_, fun s v rest hidle hmoves hv => ?_⟩
  · rcases step_ctl_cases hdue h with hsame | ⟨ev, rest, c, hmoves, hchange, hc⟩
    · exact absurd (congrArg ControlRegs.err hsame) hne
    · rw [hc] at hne
      refine ⟨ev, rest, hmoves, ?_⟩
      cases hchange with
      | powerOn => exact .inl rfl
      | softReset hsrst => exact .inr (.inl ⟨_, rfl, hsrst⟩)
      | enable | clearDone => exact absurd rfl hne
      | start hidle => exact .inr (.inr ⟨_, rfl, hidle⟩)
  · exact step_w1c hmoves hidle hv

/-! ## The interrupt output -/

/-- IRQ in terms of the registers it is made of (60_exceptions.md R440). -/
def ControlRegs.irq (c : ControlRegs) : Bool := c.done && c.ie

theorem State.irq_eq_ctl_irq (s : State) : s.irq = s.ctl.irq := rfl

/-- A host event that reaches STATUS and CTRL raises IRQ only as a write of IE = 1 while DONE = 1 (60_exceptions.md R440). -/
theorem CtlChange.raises_irq {c c' : ControlRegs} {ev : HostEvent} (h : CtlChange c ev c') (hup : c'.irq = true) :
    ∃ v, ev = .write (addressOf 0x008) 4 v ∧ v.getLsbD 0 = true ∧ v.getLsbD 1 = false ∧ c.done = true := by
  cases h with
  | powerOn | softReset | clearDone | start => exact absurd hup Bool.false_ne_true
  | enable hsrst =>
    obtain ⟨hdone, hie⟩ := Bool.and_eq_true_iff.1 hup
    exact ⟨_, rfl, hie, hsrst, hdone⟩

/-- A host event that reaches STATUS and CTRL while IRQ = 1 and leaves it 0 is a reset, a write of IE = 0, a W1C of DONE or
an accepted CMD write (60_exceptions.md R440). -/
theorem CtlChange.lowers_irq {c c' : ControlRegs} {ev : HostEvent} (h : CtlChange c ev c') (hup : c.irq = true)
    (hdown : c'.irq = false) :
    ev = .platformReset ∨
    (∃ v, ev = .write (addressOf 0x008) 4 v ∧ (v.getLsbD 1 = true ∨ v.getLsbD 0 = false)) ∨
    (∃ v, ev = .write (addressOf 0x00C) 4 v ∧ v.getLsbD 1 = true) ∨
    ∃ v, ev = .write (addressOf 0x010) 4 v ∧ c.pending = none := by
  cases h with
  | powerOn => exact .inl rfl
  | softReset hsrst => exact .inr (.inl ⟨_, rfl, .inl hsrst⟩)
  | enable =>
    obtain ⟨hdone, -⟩ := Bool.and_eq_true_iff.1 hup
    have hie := (Bool.and_eq_false_imp.1 hdown) hdone
    exact .inr (.inl ⟨_, rfl, .inr hie⟩)
  | clearDone _ hv => exact .inr (.inr (.inl ⟨_, rfl, hv⟩))
  | start hidle => exact .inr (.inr (.inr ⟨_, rfl, hidle⟩))

/-- The step of one of these events leaves IRQ as its registers say. -/
theorem step_irq_of_ctlChange {s : State} {ev : HostEvent} {rest : List HostEvent} {c : ControlRegs}
    (hmoves : HostMoves s ev rest) (h : CtlChange s.ctl ev c) : ∃ t, step s = .next t ∧ t.irq = c.irq := by
  obtain ⟨t, hstep, rfl⟩ := step_of_ctlChange hmoves h
  exact ⟨t, hstep, rfl⟩

/-- A write to CTRL leaves IRQ 0 with SRST = 1, and DONE and the IE it writes otherwise (60_exceptions.md R440). -/
theorem step_ctrl_write_irq {s : State} {rest : List HostEvent} {v : Word}
    (hmoves : HostMoves s (.write (addressOf 0x008) 4 v) rest) :
    ∃ t, step s = .next t ∧ t.irq = (v.getLsbD 0 && !v.getLsbD 1 && s.ctl.done) := by
  cases hsrst : v.getLsbD 1 with
  | true =>
    obtain ⟨t, hstep, hirq⟩ := step_irq_of_ctlChange hmoves (.softReset hsrst)
    exact ⟨t, hstep, by simp [hirq, ControlRegs.irq, State.reset]⟩
  | false =>
    obtain ⟨t, hstep, hirq⟩ := step_irq_of_ctlChange hmoves (.enable hsrst)
    exact ⟨t, hstep, by simp [hirq, ControlRegs.irq, Bool.and_comm]⟩

/-- IRQ goes up by a completion, or by a write of IE = 1 while DONE = 1 (60_exceptions.md R440). -/
theorem step_raises_irq {s t : State} (h : step s = .next t) (hlow : s.irq = false) (hup : t.irq = true) :
    (∃ w, CompletionDue s w) ∨
    ∃ v rest, HostMoves s (.write (addressOf 0x008) 4 v) rest ∧ v.getLsbD 0 = true ∧ v.getLsbD 1 = false ∧
      s.ctl.done = true := by
  by_cases hdue : ∃ w, CompletionDue s w
  · exact .inl hdue
  · rw [State.irq_eq_ctl_irq] at hlow hup
    rcases step_ctl_cases hdue h with hsame | ⟨ev, rest, c, hmoves, hchange, hc⟩
    · rw [hsame, hlow] at hup
      exact absurd hup Bool.false_ne_true
    · rw [hc] at hup
      obtain ⟨v, rfl, hbits⟩ := hchange.raises_irq hup
      exact .inr ⟨v, rest, hmoves, hbits⟩

/-- No completion lowers IRQ, so what lowers it is one of the host's events (60_exceptions.md R440). -/
theorem step_lowers_irq {s t : State} (h : step s = .next t) (hup : s.irq = true) (hlow : t.irq = false) :
    ∃ ev rest c, HostMoves s ev rest ∧ CtlChange s.ctl ev c ∧ c.irq = false := by
  rw [State.irq_eq_ctl_irq] at hlow hup
  by_cases hdue : ∃ w, CompletionDue s w
  · obtain ⟨w, hw⟩ := hdue
    obtain ⟨hdone, hie⟩ := completion_done_ie hw h
    obtain ⟨-, hs⟩ := Bool.and_eq_true_iff.1 hup
    have : t.ctl.irq = true := Bool.and_eq_true_iff.2 ⟨hdone, hie.trans hs⟩
    exact absurd (hlow.symm.trans this) Bool.false_ne_true
  · rcases step_ctl_cases hdue h with hsame | ⟨ev, rest, c, hmoves, hchange, hc⟩
    · rw [hsame, hup] at hlow
      exact absurd hlow.symm Bool.false_ne_true
    · exact ⟨ev, rest, c, hmoves, hchange, hc ▸ hlow⟩

/-- Settles O23: each event is a `CtlChange` or a completion, and these are the only steps that change DONE or IE. -/
theorem interruptRule : Obligations.InterruptRule := by
  refine ⟨fun _ => rfl, fun s => ⟨?_, fun line hline => ?_⟩,
    fun s rest v => ⟨step_ctrl_write_irq, fun hmoves hidle hv => ?_, fun hmoves hidle => ?_, fun hmoves => ?_⟩,
    fun s t h => ⟨?_, step_raises_irq h, fun hup hlow => ?_⟩⟩
  · simp [State.irqInput]
  · simp [State.irqInput, hline]
  · exact step_irq_of_ctlChange hmoves (.clearDone hidle hv)
  · exact step_irq_of_ctlChange hmoves (.start hidle)
  · exact step_irq_of_ctlChange hmoves .powerOn
  · rintro ⟨w, hdue⟩
    obtain ⟨hdone, hie⟩ := completion_done_ie hdue h
    exact ⟨hdone, by rw [State.irq, hdone, hie, Bool.true_and]⟩
  · obtain ⟨ev, rest, c, hmoves, hchange, hc⟩ := step_lowers_irq h hup hlow
    exact ⟨ev, rest, hmoves, hchange.lowers_irq hup hc⟩

end Sys2Proof.Machine
end

section
/-! PROOF. The resets, and the wait of a pending command: what every register holds after a reset, and that the host's
events bring the completion closer without touching the command (70_reset_and_hazards.md R470, R471, R480). -/

namespace Sys2Proof.Machine

/-! ## Register words after a reset -/

theorem wordOf_zero (n i : Nat) : wordOf (0 : BitVec n) i = 0 := by simp [wordOf]

/-- The words of the default S-box set as a register, 0 past the last (10_state.md R44). -/
theorem wordOf_defaultSbox (i : Nat) : wordOf defaultSbox i = defaultSboxWords.getD i 0 := by
  by_cases hi : i < 16
  · rw [defaultSbox, wordOf_packWords _ hi (by omega), List.getD_eq_getElem _ _ hi]
  · rw [List.getD_eq_default _ _ (by simpa [defaultSboxWords] using hi)]
    apply BitVec.eq_of_getLsbD_eq
    intro b _
    simp [wordOf, BitVec.getLsbD_of_ge defaultSbox (32 * i + b) (by omega)]

/-- Every register word holds its reset value after power-on (10_state.md R72). -/
theorem readReg_reset (n : RegName) (i : Nat) : readReg State.reset n i = resetWord n i := by
  cases n with
  | sbox | hsbox => exact wordOf_defaultSbox i
  | id | version | ctrl | status | cmd | src | dst | len | outlen | hctl | pinf => rfl
  | _ => exact wordOf_zero _ i

/-- No register reads DMEM or the model's own record. -/
theorem readReg_dmem_env (s : State) (m : Memory) (e : Environment) (n : RegName) (i : Nat) :
    readReg { s with dmem := m, env := e } n i = readReg s n i := by
  cases n <;> rfl

/-- Every register word holds its reset value after a soft reset (70_reset_and_hazards.md R471). -/
theorem readReg_softReset (s : State) (n : RegName) (i : Nat) : readReg s.softReset n i = resetWord n i :=
  (readReg_dmem_env State.reset s.dmem s.env n i).trans (readReg_reset n i)

/-- Settles O13: the platform's reset is `State.powerOn`, the initial state with the model's own record. -/
theorem powerOnReset : Obligations.PowerOnReset :=
  ⟨fun r _ i _ => readReg_reset r.name i, rfl, rfl, fun _ => rfl, fun _ _ hmoves => ⟨_, step_host hmoves, rfl⟩⟩

/-- Settles O14: the write reaches CTRL busy or not, and is `State.softReset`. -/
theorem softReset : Obligations.SoftReset := by
  intro s v rest hmoves hsrst
  have hstep : step s = .next (afterHost s rest).softReset := by
    rw [step_write hmoves (by norm_num) (by norm_num), hostWriteAccess_srst _ hsrst]
  exact ⟨_, hstep, fun r _ i _ => readReg_softReset _ r.name i, rfl, rfl, rfl, rfl⟩

/-- Settles O12: after reset the control registers and OUTLEN are 0 and DMEM holds no byte. -/
theorem resetIsConsistent : Obligations.ResetIsConsistent := consistent_of_reset_fields rfl rfl ⟨.nil, nofun⟩

/-! ## The wait of a pending command -/

/-- `t` is `s` but for IE and the model's own record: all that can change while a command is pending
(20_memory.md R112, 70_reset_and_hazards.md R480). -/
def Waited (s t : State) : Prop := t = { s with ctl := { s.ctl with ie := t.ctl.ie }, env := t.env }

theorem Waited.refl (s : State) : Waited s s := rfl

theorem Waited.trans {s t u : State} (hst : Waited s t) (htu : Waited t u) : Waited s u := by
  rw [Waited, htu, hst]

theorem Waited.pending_eq {s t : State} (h : Waited s t) : t.ctl.pending = s.ctl.pending := by rw [h]

section

variable {addr width : Nat} (s : State) (hin : InAperture addr)
  (hcontract : width = 4 ∧ (addr - Config.gcoreBase) % 4 = 0)

include hin hcontract

/-- A host read the bus contract allows is that of the offset it reaches (20_memory.md R102, R103). -/
theorem hostEvent_read_in_contract :
    hostEvent s (.read addr width) = hostReadAccess s addr (addr - Config.gcoreBase) := by
  rw [hostEvent, apertureOffset_of_inAperture hin]
  exact if_pos ((busContract_iff _ _).2 hcontract)

/-- A host write the bus contract allows is that of the offset it reaches (20_memory.md R102, R103). -/
theorem hostEvent_write_in_contract (v : Word) :
    hostEvent s (.write addr width v) = .next (hostWriteAccess s (addr - Config.gcoreBase) v) := by
  rw [hostEvent, apertureOffset_of_inAperture hin]
  exact if_pos ((busContract_iff _ _).2 hcontract)

end

/-- While BUSY = 1 an event that keeps the bus contract neither faults nor is refused (20_memory.md R102, R112). -/
theorem hostEvent_taken {s : State} {ev : HostEvent} (hbusy : s.busy = true) (hkeeps : KeepsPending ev) :
    ∃ t, hostEvent s ev = .next t := by
  cases ev with
  | platformReset => exact hkeeps.elim
  | read addr width =>
    by_cases hin : InAperture addr
    · obtain ⟨-, t, hread, -⟩ := hostReadAccess_busy addr (addr - Config.gcoreBase) hbusy
      exact ⟨t, (hostEvent_read_in_contract s hin (hkeeps hin)).trans hread⟩
    · exact ⟨s, by rw [hostEvent, apertureOffset_of_not_inAperture hin]⟩
  | write addr width v =>
    by_cases hin : InAperture addr
    · obtain ⟨hwidth, h4, -⟩ := hkeeps hin
      exact ⟨_, hostEvent_write_in_contract s hin ⟨hwidth, h4⟩ v⟩
    · exact ⟨s, by rw [hostEvent, apertureOffset_of_not_inAperture hin]⟩

theorem inAperture_addressOf {off : Nat} (h : off < 8192) : InAperture (addressOf off) :=
  ⟨Nat.le_add_right _ _, Nat.add_lt_add_left h _⟩

/-- While BUSY = 1 a host write that is no soft reset changes at most IE (20_memory.md R112). -/
theorem hostWriteAccess_waited {s : State} {off : Nat} {v : Word} (hbusy : s.busy = true) (h4 : off % 4 = 0)
    (ho : off < 8192) (hkeeps : KeepsPending (.write (addressOf off) 4 v)) :
    Waited s (hostWriteAccess s off v) ∧ (hostWriteAccess s off v).env = s.env := by
  rcases write_cases s off v h4 ho with hw | ⟨rfl, hw⟩ | ⟨hidle, -⟩
  · rw [hw]
    exact ⟨.refl s, rfl⟩
  · obtain ⟨-, -, hno⟩ := hkeeps (inAperture_addressOf ho)
    have hsrst : v.getLsbD 1 = false := Bool.eq_false_iff.2 fun hv => hno ⟨rfl, hv⟩
    rw [hw, writeCtrl_of_no_srst s hsrst]
    exact ⟨rfl, rfl⟩
  · exact absurd hbusy (by simp [busy_eq_false_of_idle hidle])

/-- While BUSY = 1 such an event leaves the command pending, the rest of the queue and the wait that remains
(20_memory.md R112, 70_reset_and_hazards.md R480). -/
theorem hostEvent_waited {s t : State} {ev : HostEvent} (hbusy : s.busy = true) (hkeeps : KeepsPending ev)
    (h : hostEvent s ev = .next t) : Waited s t ∧ t.env.todo = s.env.todo ∧ t.env.delay = s.env.delay := by
  rcases event_cases h with ⟨rfl, -⟩ | rfl | ⟨-, -, -, hframe, htodo, hdelay⟩ | ⟨off, v, rfl, ho, h4, rfl⟩
  · exact hkeeps.elim
  · exact ⟨.refl _, rfl, rfl⟩
  · exact ⟨by rw [hframe]; rfl, htodo, hdelay⟩
  · obtain ⟨hwaited, henv⟩ := hostWriteAccess_waited hbusy h4 ho hkeeps
    exact ⟨hwaited, by rw [henv], by rw [henv]⟩

/-- A host's turn while a command is pending: the command waits for one event less (70_reset_and_hazards.md R480). -/
theorem step_waits {s : State} {w : Word} {ev : HostEvent} {rest : List HostEvent} (hpending : s.ctl.pending = some w)
    (hmoves : HostMoves s ev rest) (hkeeps : KeepsPending ev) :
    ∃ t, step s = .next t ∧ Waited s t ∧ t.env.todo = rest ∧ t.env.delay = s.env.delay - 1 := by
  have hbusy : (afterHost s rest).busy = true := by simp [State.busy, afterHost, hpending]
  obtain ⟨t, hev⟩ := hostEvent_taken hbusy hkeeps
  obtain ⟨hwaited, htodo, hdelay⟩ := hostEvent_waited hbusy hkeeps hev
  exact ⟨t, (step_host hmoves).trans hev, Waited.trans (t := afterHost s rest) rfl hwaited, htodo, hdelay⟩

/-- Settles O10, by induction on the host events that may still pass. -/
theorem pendingCommandComesDue : Obligations.PendingCommandComesDue := by
  intro s w hpending hkeeps
  induction hd : s.env.delay generalizing s with
  | zero => exact ⟨0, le_rfl, s, rfl, ⟨hpending, .inl hd⟩, .refl s⟩
  | succ d ih =>
    cases htodo : s.env.todo with
    | nil => exact ⟨0, Nat.zero_le _, s, rfl, ⟨hpending, .inr htodo⟩, .refl s⟩
    | cons ev rest =>
      obtain ⟨hev, hrest⟩ := List.forall_mem_cons.1 (htodo ▸ hkeeps)
      obtain ⟨t, hstep, hwaited, htodo', hdelay⟩ := step_waits hpending ⟨htodo, .inr (by omega)⟩ hev
      obtain ⟨n, hn, u, hrun, hdue, hu⟩ := ih t (hwaited.pending_eq.trans hpending) (htodo' ▸ hrest) (by omega)
      exact ⟨n + 1, Nat.succ_le_succ hn, u, run_succ hstep hrun, hdue, hwaited.trans hu⟩

end Sys2Proof.Machine
end
